-- ==== Sys2Proof/Word.lean ====
section
/-! DEFINITION. The word types of the block (spec 00_scope R10, 20_memory R60, 30_encoding R90, 10_state R25). -/

namespace Sys2Proof

/-- A working register, port word or address: `WORD_W` = 32 bits (R8, R60). -/
abbrev Word := BitVec 32

/-- A byte of a memory space, and a word of the 8-bit data port (R60, R34). -/
abbrev Byte := BitVec 8

/-- A micro-word of the microcode ROM (R65, R90). -/
abbrev MicroWord := BitVec 16

/-- An address of the microcode ROM, the width of `upc` (R25). -/
abbrev UAddr := BitVec 8

end Sys2Proof
end

