-- ==== Sys2Proof/Config.lean ====
section
/-! DEFINITION. What is fixed for the life of a run (00_scope R8, 10_state R39, R40) and the free values
(93_implementation_defined): constants with no body, about which nothing can be proved. -/

namespace Sys2Proof

/-- The port a line is on (30_encoding R104): the input port `IN`, the data port `ODR`/`DIR`, the strap
port `STRAP`, or another port. -/
inductive Port where
  | input
  | data
  | strap
  | other
deriving DecidableEq, Repr

/-- Where a line is: its port and its bit index, 0 to 31 (R40, R104). -/
structure Pin where
  port : Port
  bit : Fin 32
deriving DecidableEq, Repr

/-- The PinMap (R40). `none` is a line the board does not have. The image-select and bootloader-entry
pins are by R40 bits of `STRAP`, so they are kept as positions; there are N_SEL and M_BOOT of them
(log 15). `led` is used by no rule (R273). -/
structure PinMap where
  /-- `data_pin(0)` to `data_pin(7)`. -/
  data : Vector (Option Pin) 8
  /-- `addr_pin(0)` to `addr_pin(15)`. -/
  addr : Vector (Option Pin) 16
  /-- `cs_pin(2364, 1)`. -/
  cs2364 : Vector (Option Pin) 1
  /-- `cs_pin(2332, 1)`, `cs_pin(2332, 2)`. -/
  cs2332 : Vector (Option Pin) 2
  /-- `cs_pin(2316, 1)` to `cs_pin(2316, 3)`. -/
  cs2316 : Vector (Option Pin) 3
  /-- `x_pin(1)`. -/
  x1 : Option Pin
  /-- `x_pin(2)`. -/
  x2 : Option Pin
  /-- `sel_pin(0)` to `sel_pin(N_SEL - 1)`. -/
  sel : List (Fin 32)
  /-- `boot_pin(0)` to `boot_pin(M_BOOT - 1)`. -/
  boot : List (Fin 32)
  /-- `led_pin`. -/
  led : Option Pin
  /-- The skipped or unusable bit positions of `IN`. -/
  skip : List (Fin 32)
deriving DecidableEq, Repr

/-- Where a logical image lies in `STORE` and how many bytes it has (30_encoding R103, 40_remapper R131). -/
structure ImageLoc where
  addr : Word
  len : Nat
deriving DecidableEq, Repr

/-- The parameters of R8, all "fixed for the life of a run". Plain data, so that one model covers every
board and every image store: a statement for every state is one for every configuration (log 3). -/
structure Config where
  /-- `IN_W`, the number of implemented bits of `IN`. -/
  inW : Nat
  /-- `NUM_SETS`. -/
  numSets : Nat
  /-- `COUNT_EN`. -/
  countEn : Bool
  /-- `FAST_COPY`. -/
  fastCopy : Bool
  /-- `REMAP_AT_BOOT`. -/
  remapAtBoot : Bool
  /-- `PM`, with `N_SEL` and `M_BOOT` the lengths of its two lists of strap pins. -/
  pm : PinMap
  /-- `STORE_BASE`. -/
  storeBase : Word
  /-- `FAST_BASE`. -/
  fastBase : Word
  /-- `WORK_BASE`. -/
  workBase : Word
  /-- `RTI_BASE`. -/
  rtiBase : Word
  /-- `RTI_MAGIC`, four bytes in address order. -/
  magic : Vector Byte 4
  /-- `LIMG_ADDR[s][k]` with the image's length, for the images that lie in `STORE`. -/
  images : List (List ImageLoc)
deriving DecidableEq, Repr

/-- The byte spaces (20_memory R60). -/
inductive Space where
  | store
  | fast
  | work
  | rti
deriving DecidableEq, Repr

/-- The byte at an address of a space that nothing has written since reset number `boots` ("unspecified
bytes", R48, R291): one byte for the whole run, so that two reads agree (R74). Free (log 7). -/
opaque Config.freeByte (boots : Nat) (space : Space) (addr : Nat) : Byte

/-- The value of the `n`-th read of `IN`: "any `IN_W`-bit value" (R33). Free (log 4). -/
opaque Config.freeSample (n : Nat) : Word

/-- The value of a mask that the source does not define (`PinMapOK` false, U6). Free (log 10). -/
opaque Config.freeWord (n : Nat) : Word

/-- Entry `idx` of a table that the source does not define (`PinMapOK` false, U6). Free (log 10). -/
opaque Config.freeTableByte (n idx : Nat) : Byte

/-- Byte `a` of the logical image of `rom[k]` of set `n`, where no `LIMG_ADDR` places it or it is past the
image's end: the spec gives it no value. Free (log 22). -/
opaque Config.freeImageByte (n k a : Nat) : Byte

/-- The byte LKP finds at index `idx` where `PinMapOK` fails: one byte for the whole run (R74), otherwise
"any value" (U6). Free (log 10). -/
opaque Config.freeServedByte (boots idx : Nat) : Byte

/-- What the bus host reads on the logical data lines at observation `obs` where `PinMapOK` fails: "the data
seen by the host" is "any value" (U6). Free (log 10). -/
opaque Config.freeHostByte (obs : Nat) : Byte

/-- What the data pins carry at observation `obs` while they are outputs and `ODR` holds no value:
"any 8-bit pattern, possibly different at each observation" (U4). Free (log 20). -/
opaque Config.freePins (obs : Nat) : Byte

/-- `T_STEP`, the time one micro-operation takes: open, and no rule depends on it (R8, U15). -/
opaque Config.tStep : Nat

end Sys2Proof
end

