-- ==== Sys2Proof/Machine/Microcode.lean ====
section
/-! DEFINITION. The contents of the microcode ROM (30_encoding R109; listings 45_preload_boot R242,
44_serve_control R214 to R216). -/

namespace Sys2Proof.Machine

/-- Number a run of words from an address on. -/
def listingFrom : Nat → List MicroWord → List (Nat × MicroWord)
  | _, [] => []
  | a, w :: ws => (a, w) :: listingFrom (a + 1) ws

/-- The boot program, 0x00 to 0x09 (R242). -/
def bootProgram : List MicroWord :=
  [0x4000, 0x4100, 0x4200, 0x4300, 0x4400, 0x4500, 0x4600, 0x4700, 0x4800, 0x4900]

/-- Program A, 0x10 to 0x1E (R214). -/
def programA : List MicroWord :=
  [0x1000, 0x1100, 0x2210, 0x1600, 0x1800, 0x1400, 0x1000, 0x1100,
   0x221D, 0x1500, 0x1000, 0x1100, 0x2115, 0x1700, 0x2010]

/-- Program B, 0x20 to 0x2E (R215). -/
def programB : List MicroWord :=
  [0x1000, 0x1100, 0x2220, 0x1600, 0x1800, 0x1400, 0x1500, 0x1300,
   0x1000, 0x1100, 0x222D, 0x2328, 0x2025, 0x1700, 0x2020]

/-- Program C, 0x30 to 0x3E (R216). -/
def programC : List MicroWord :=
  [0x1000, 0x1200, 0x2230, 0x1600, 0x1800, 0x1400, 0x1500, 0x1300,
   0x1000, 0x1200, 0x223D, 0x2338, 0x2035, 0x1700, 0x2030]

/-- The microcode ROM: "four programs and nothing else; every other location holds 0x0000" (R109). The
locations of 0x0000 are not listed. -/
def microcodeRom : List (Nat × MicroWord) :=
  listingFrom 0x00 bootProgram ++ listingFrom 0x10 programA
    ++ listingFrom 0x20 programB ++ listingFrom 0x30 programC

end Sys2Proof.Machine
end

