-- ==== Sys2Proof/Syntax.lean ====
section
/-! DEFINITION. The micro-operations: one constructor per row of spec/opcode_table.json (30_encoding R92). -/

namespace Sys2Proof

/-- The 23 micro-operations. Format `N` rows carry no operand; format `T` rows carry `tgt`, an
absolute microcode-ROM address used unchanged as the new `upc` (R90, R91). -/
inductive Instr where
  | smp
  | tall
  | tany
  | lat
  | lkp
  | drv
  | oen
  | ods
  | cnt
  | jmp (tgt : UAddr)
  | ba (tgt : UAddr)
  | bi (tgt : UAddr)
  | bs (tgt : UAddr)
  | bchk
  | strap
  | sset
  | rmp
  | pld
  | pck
  | rpr
  | msk
  | rti
  | ent
deriving DecidableEq, Repr

end Sys2Proof
end

