-- ==== Sys2Proof/WellFormed.lean ====
section
/-! DEFINITION. Well-formedness of a micro-operation (30_encoding R90, 44_serve_control R205) and the
canonical form of the memories. -/

namespace Sys2Proof

/-- Every term of `Instr` is well formed: the one operand, `tgt`, is an 8-bit field by its type, every
one of its 256 values is a legal target, and "a misaligned target cannot exist" (R205). The match has
no wildcard, so that a new constructor must be judged here. -/
def Instr.wellFormed : Instr → Bool
  | .smp | .tall | .tany | .lat | .lkp | .drv | .oen | .ods | .cnt => true
  | .jmp _ | .ba _ | .bi _ | .bs _ => true
  | .bchk | .strap | .sset | .rmp | .pld | .pck | .rpr | .msk | .rti | .ent => true

/-- The addresses of a list of cells rise strictly from `lo` on and stay below `bound`. -/
def cellsRise {α : Type} (bound : Nat) : Nat → List (Nat × α) → Bool
  | _, [] => true
  | lo, (a, _) :: rest => decide (lo ≤ a) && decide (a < bound) && cellsRise bound (a + 1) rest

/-- One byte space in canonical form: (address, byte) pairs, addresses strictly rising and inside the
32-bit address space (R60). An unlisted address holds NO value of the model's (its byte is unspecified,
R48, R291), so no entry can equal what an unlisted address reads as. -/
def Machine.Memory.wf (m : List Host.Cell) : Bool :=
  cellsRise (2 ^ 32) 0 m

/-- The microcode ROM in canonical form: addresses strictly rising below 256, and no entry equal to
0x0000, the word of every location that no program uses (R65, R109). -/
def Machine.Urom.wf (m : List (Nat × MicroWord)) : Bool :=
  cellsRise 256 0 m && m.all fun c => decide (c.2 ≠ 0)

end Sys2Proof
end

