-- ==== Sys2Proof/Machine/State.lean ====
section
/-! DEFINITION. The state of the block (10_state, 20_memory R60, 60_exceptions R262), the reasons a step
stops, and the state after reset (10_state R48). -/

namespace Sys2Proof.Machine

/-- The registers that hold no value until a micro-operation writes them (R24, R48): the names that
`UnwrittenRead` records (R261). -/
inductive RegName where
  | chk
  | inv
  | tbl
  | tlen
  | raw
  | eff
  | dat
  | prev
  | act
  | mode
  | sel
  | set
  | odr
deriving DecidableEq, Repr

/-- A register with the mark whether a micro-operation has written it since reset (R24). The register
always has stored bits; while `written` is false they are no value of the machine and nothing reads
them (log 2). -/
structure Latch (α : Type) where
  value : α
  written : Bool
deriving DecidableEq, Repr

/-- The effective serve mode (R28): 0, 1, 2. "3 is reserved and never held", so it is no term (U12). -/
inductive ServeMode where
  /-- 0, Algorithm A. -/
  | twoCheck
  /-- 1, Algorithm B. -/
  | addrOnCs
  /-- 2, Algorithm C. -/
  | addrOnAnyCs
deriving DecidableEq, Repr

/-- The run state `RS` (R27): 0, 1, 2, 3. -/
inductive RunState where
  | boot
  | serve
  | bootloader
  | faulted
deriving DecidableEq, Repr

/-- What `raise` records: a model fault with its info (60_exceptions R261, R262). -/
inductive FaultRecord where
  /-- Code 1: the sample that LKP found at or above `TLEN`. -/
  | indexOutOfRange (raw : Word)
  /-- Code 2: where the illegal micro-word was fetched, and the word. -/
  | illegalMicroOp (upc : UAddr) (word : MicroWord)
  /-- Code 3: the register that held no value. -/
  | unwrittenRead (reg : RegName)
deriving DecidableEq, Repr

/-- One observable access (44_serve_control R220: "reads of `IN`, writes of `DIR` and `ODR`" and "the
same counter writes"; and the strap reads of boot). -/
inductive Access where
  | readIn (v : Word)
  | readStrap (v : Word)
  | writeOdr (b : Byte)
  | writeDir (b : Byte)
  | writeCount (v : Word)
deriving DecidableEq, Repr

/-- What the environment's reset does at one step (70_reset R290): nothing, or a reset after which the
strap lines have settled at `straps` (70_reset R297). -/
inductive Tick where
  | quiet
  | reset (straps : Word)
deriving DecidableEq, Repr

/-- A byte space: the bytes something has placed there, by address (20_memory R60). -/
abbrev Memory := List Host.Cell

/-- Everything the spec gives the machine; INVENTORY.md lists each field with its rule. -/
structure State where
  /-- The parameters (R39): written by no step. -/
  cfg : Config
  /-- `STORE`, the Image Store (R61): written by no step. -/
  store : Memory
  /-- `FAST`, the copy of the active table (R62). -/
  fast : Memory
  /-- `WORK`, the table built at boot (R63). -/
  work : Memory
  /-- `RTI`, the RuntimeInfo record (R64). -/
  rti : Memory
  /-- `UROM`, the microcode ROM (R65): the words that are not 0x0000; written by no step. -/
  urom : List (Nat × MicroWord)
  /-- The micro-program counter (R25). -/
  upc : UAddr
  /-- The run state (R27). -/
  rs : RunState
  /-- The fault record (R262); `none` is the cleared record. -/
  faultRec : Option FaultRecord
  /-- `x[0]`, `cs_check_mask` (R20). -/
  chk : Latch Word
  /-- `x[1]`, `cs_invert_mask` (R20). -/
  inv : Latch Word
  /-- `x[2]`, the address of the active table (R20, R22). -/
  tbl : Latch Word
  /-- `x[3]`, the length of the active table (R20, R22). -/
  tlen : Latch Word
  /-- `x[4]`, the last sample (R20). -/
  raw : Latch Word
  /-- `x[5]`, the last normalised and masked chip-select word (R20). -/
  eff : Latch Word
  /-- `x[6]`, the last table byte (R20). -/
  dat : Latch Word
  /-- `x[7]`, the sample of the last LAT (R20). -/
  prev : Latch Word
  /-- The one flag (R26). -/
  act : Latch Bool
  /-- The effective serve mode (R28). -/
  mode : Latch ServeMode
  /-- The strap selector (R29). -/
  sel : Latch Word
  /-- The selected set (R30). -/
  set : Latch Word
  /-- The sticky warnings (R32). -/
  warn : Word
  /-- The data port's output-data register (R34). -/
  odr : Latch Byte
  /-- The data port's direction register (R35): 1 is output. -/
  dir : Byte
  /-- What `PortRead(STRAP)` returns for the whole of this run (R37, R297). -/
  strap : Word
  /-- The MODEL's: what the bus host will present at the next reads of `IN` (R13, R33). -/
  samples : List Word
  /-- The MODEL's: how many reads of `IN` there have been, the index of the free samples. -/
  sampleCount : Nat
  /-- The MODEL's: what the reset line does at the next steps (R290). -/
  ticks : List Tick
  /-- The MODEL's: the index of the next free word (U6). -/
  freeCount : Nat
  /-- The MODEL's: how many resets there have been, the index of the free memory contents. -/
  boots : Nat
  /-- The MODEL's: the accesses so far, the newest first (R70, R220). -/
  trace : List Access
deriving DecidableEq, Repr

/-- Why a step is no step. -/
inductive Fault where
  /-- Raised by `step` in run states BOOTLOADER and FAULTED when the environment has no further tick: "the
  sequencer has no step" (R200). Safe: the machine goes no further than the spec says. -/
  | sequencerStopped (rs : RunState)
deriving DecidableEq, Repr

/-- Why a configuration has no step from reset (60_exceptions R263; U8 to U10; 00_scope R8). -/
inductive ConfigDefect where
  /-- `IN_W` is outside 14 to 32 (R8). -/
  | inputWidth (inW : Nat)
  /-- `NUM_SETS` is 0 (U8). -/
  | noSets
  /-- More than four image-select pins (R8). -/
  | tooManySelectPins (n : Nat)
  /-- The Image Store holds no header byte where block `set` must have one (R101, R299). -/
  | headerMissing (set : Nat)
  /-- `SET` names no RomSet of the store (R30). -/
  | noSuchSet (set : Nat)
  /-- `rom_count` is not 1, 2 or 3 (U8). -/
  | romCount (code : Byte)
  /-- A reserved `serve_mode` code (U9). -/
  | serveMode (code : Byte)
  /-- A reserved polarity code (U9). -/
  | polarity (code : Byte)
  /-- `index_width` is outside 11 to `IN_W` (U9). -/
  | indexWidth (code : Byte)
  /-- The image of ROM `rom` is not placed although `REMAP_AT_BOOT` (R299). -/
  | imageMissing (rom : Nat)
  /-- The image of ROM `rom` has not `size(eff_type)` bytes (U9). -/
  | imageLength (rom len : Nat)
  /-- `RTI_BASE` is not a multiple of 4 (U10). -/
  | rtiMisaligned
  /-- A memory range in use passes 2^32 (U10). -/
  | rangeWraps
  /-- Two memory ranges in use overlap (U10). -/
  | rangesOverlap
deriving DecidableEq, Repr

/-- Why the model gives no meaning. -/
inductive Refusal where
  /-- Raised by an arm of `exec` whose instruction has no meaning yet (no arm is one now). Safe. -/
  | notModelled (mnemonic : String)
  /-- Raised by `step`, and by a micro-operation whose `SET` names a block that is no RomSet: "the model
  is silent" (R263). Safe: nothing is said of such a configuration. -/
  | configuration (why : ConfigDefect)
deriving DecidableEq, Repr

/-- A register that nothing has written since reset (R24, R48); `bits` are behind the mark (log 2). -/
def Latch.unwritten {α : Type} (bits : α) : Latch α := ⟨bits, false⟩

/-- A register that a micro-operation has written. -/
def Latch.holds {α : Type} (v : α) : Latch α := ⟨v, true⟩

/-- The state right after reset (R48, R291) for a configuration, an Image Store, a microcode ROM, strap
levels, and an environment. -/
def State.atReset (cfg : Config) (store : Memory) (urom : List (Nat × MicroWord)) (strap : Word)
    (samples : List Word) (ticks : List Tick) : State where
  cfg := cfg
  store := store
  fast := []
  work := []
  rti := []
  urom := urom
  upc := 0x00
  rs := .boot
  faultRec := none
  chk := .unwritten 0
  inv := .unwritten 0
  tbl := .unwritten 0
  tlen := .unwritten 0
  raw := .unwritten 0
  eff := .unwritten 0
  dat := .unwritten 0
  prev := .unwritten 0
  act := .unwritten false
  mode := .unwritten .twoCheck
  sel := .unwritten 0
  set := .unwritten 0
  warn := 0x00000000
  odr := .unwritten 0
  dir := 0x00
  strap := strap
  samples := samples
  sampleCount := 0
  ticks := ticks
  freeCount := 0
  boots := 0
  trace := []

/-- A line on the input port. -/
def onInput (bit : Fin 32) : Option Pin := some ⟨.input, bit⟩

/-- A line on the data port. -/
def onData (bit : Fin 32) : Option Pin := some ⟨.data, bit⟩

/-- The PinMap `PM_S1` of 95_test_vectors §0.1, with the strap pins of its program P1. -/
def fixturePinMap : PinMap where
  data := #v[onData 0, onData 1, onData 2, onData 3, onData 4, onData 5, onData 6, onData 7]
  addr := #v[onInput 0, onInput 1, onInput 2, onInput 3, onInput 4, onInput 5, onInput 6, onInput 7,
    onInput 8, onInput 9, onInput 11, onInput 12, onInput 13, none, none, none]
  cs2364 := #v[onInput 10]
  cs2332 := #v[onInput 10, onInput 13]
  cs2316 := #v[onInput 10, onInput 12, onInput 13]
  x1 := onInput 14
  x2 := onInput 15
  sel := [0, 1]
  boot := [2]
  led := none
  skip := []

/-- The parameters of 95_test_vectors §0.4, each "a placeholder" there (log 3). -/
def fixtureConfig : Config where
  inW := 16
  numSets := 1
  countEn := true
  fastCopy := false
  remapAtBoot := false
  pm := fixturePinMap
  storeBase := 0x08010000
  fastBase := 0x20000000
  workBase := 0x20010000
  rtiBase := 0x20008000
  magic := #v[0x61, 0x62, 0x63, 0x64]
  images := []

/-- The header of `SET_A` (95_test_vectors §0.3) at STORE_BASE; the bytes of its table are not listed,
so nothing is known of them (log 3). -/
def fixtureStore : Memory :=
  [(0x08010000, 0x01), (0x08010001, 0x00), (0x08010002, 0x00), (0x08010003, 0x0E),
   (0x08010004, 0x02), (0x08010005, 0x00), (0x08010006, 0x02), (0x08010007, 0x02),
   (0x08010008, 0x00), (0x08010009, 0x00), (0x0801000A, 0x00), (0x0801000B, 0x00),
   (0x0801000C, 0x00), (0x0801000D, 0x00), (0x0801000E, 0x00), (0x0801000F, 0x00)]

/-- The machine right after reset. The registers, flags, ports and memories are those of R48 and R291;
the parameters, which the spec leaves open, are the spec's own fixture (log 3). -/
def State.reset : State := .atReset fixtureConfig fixtureStore microcodeRom 0 [] []

end Sys2Proof.Machine
end

