-- ==== Sys2Proof/Machine/Ops.lean ====
section
/-! DEFINITION. The named operations over registers, ports and memories (00_scope R11), raising a model
fault (60_exceptions R262) and reset (70_reset R290, R291), the only way out of it. -/

namespace Sys2Proof.Machine

/-- What executing a micro-operation answers. -/
abbrev StepResult := Host.Outcome State Fault Refusal

/-! ## Lists of cells in canonical form -/

/-- The cell at address `a`, if one is listed. -/
def cellAt {α : Type} : List (Nat × α) → Nat → Option α
  | [], _ => none
  | (b, v) :: rest, a => if b = a then some v else cellAt rest a

/-- Place `v` at address `a`, keeping the addresses strictly rising. -/
def putCell {α : Type} : List (Nat × α) → Nat → α → List (Nat × α)
  | [], a, v => [(a, v)]
  | (b, w) :: rest, a, v =>
    if a < b then (a, v) :: (b, w) :: rest
    else if a = b then (a, v) :: rest
    else (b, w) :: putCell rest a v

/-- Take the cell at address `a` out. -/
def dropCell {α : Type} : List (Nat × α) → Nat → List (Nat × α)
  | [], _ => []
  | (b, w) :: rest, a => if b = a then rest else (b, w) :: dropCell rest a

/-- Store a run of bytes from `base` on, ascending; addresses are 32-bit and `+` is modulo 2^32 (R10). -/
def putBytes : Memory → Word → List Byte → Memory
  | m, _, [] => m
  | m, base, b :: bs => putBytes (putCell m base.toNat b) (base + 1) bs

/-- The micro-word at a microcode-ROM address: 0x0000 where none is listed (R65, R109). -/
def uromWord (m : List (Nat × MicroWord)) (a : UAddr) : MicroWord :=
  (cellAt m a.toNat).getD 0x0000

/-- The ROM with word `w` at address `a`, in canonical form. No micro-operation does this (R79); it stands
for the contents the ROM was made with. -/
def uromPlace (m : List (Nat × MicroWord)) (a : UAddr) (w : MicroWord) : List (Nat × MicroWord) :=
  if w = 0x0000 then dropCell m a.toNat else putCell m a.toNat w

/-! ## Memory spaces (R60) -/

/-- The bytes placed in a space. -/
def State.memory (s : State) : Space → Memory
  | .store => s.store
  | .fast => s.fast
  | .work => s.work
  | .rti => s.rti

/-- Which contents a space was given when the run began: `FAST`, `WORK` and `RTI` hold unspecified bytes
after every reset, the Image Store keeps its contents (R291). -/
def State.contentsOf (s : State) : Space → Nat
  | .store => 0
  | .fast | .work | .rti => s.boots

/-- `MemRead(space, addr, 1)` (R11): the byte placed there, or the unspecified byte that was there (log 7). -/
def State.memRead (s : State) (space : Space) (a : Word) : Byte :=
  (cellAt (s.memory space) a.toNat).getD (Config.freeByte (s.contentsOf space) space a.toNat)

/-- `MemRead(space, addr, 4)`, little-endian (R66). -/
def State.memReadWord (s : State) (space : Space) (a : Word) : Word :=
  s.memRead space (a + 3) ++ s.memRead space (a + 2) ++ s.memRead space (a + 1) ++ s.memRead space a

/-- The four bytes of a word, least significant first (R66). -/
def wordBytes (v : Word) : List Byte :=
  [v.extractLsb' 0 8, v.extractLsb' 8 8, v.extractLsb' 16 8, v.extractLsb' 24 8]

/-- `MemWrite` of a run of bytes. `STORE` is "writable by nothing" (R60, R61). -/
def State.memWrite (s : State) (space : Space) (a : Word) (bs : List Byte) : State :=
  match space with
  | .store => s
  | .fast => { s with fast := putBytes s.fast a bs }
  | .work => { s with work := putBytes s.work a bs }
  | .rti => { s with rti := putBytes s.rti a bs }

/-! ## Ports (R33 to R37, R70): each access is performed once and leaves its mark in the trace -/

/-- Note an observable access (R70, R220). -/
def State.note (s : State) (a : Access) : State := { s with trace := a :: s.trace }

/-- The levels of the input lines at the next read: what the bus host presents, or any value; only the
`IN_W` implemented bits, the others read 0 (R33, R106; log 4). -/
def State.inputNow (s : State) : Word :=
  BitVec.ofNat 32 ((s.samples.headD (Config.freeSample s.sampleCount)).toNat % 2 ^ s.cfg.inW)

/-- `PortRead(IN)` has been performed: the host goes on to what it presents next. -/
def State.afterReadIn (s : State) : State :=
  { s with samples := s.samples.tail, sampleCount := s.sampleCount + 1,
           trace := .readIn s.inputNow :: s.trace }

/-- `PortRead(STRAP)` has been performed; its value is `s.strap`, one for the whole run (R37, R297). -/
def State.afterReadStrap (s : State) : State := s.note (.readStrap s.strap)

/-- `PortWrite(ODR, b)`. -/
def State.writeOdr (s : State) (b : Byte) : State :=
  { s with odr := .holds b, trace := .writeOdr b :: s.trace }

/-- `PortWrite(DIR, d)`. -/
def State.writeDir (s : State) (d : Byte) : State :=
  { s with dir := d, trace := .writeDir d :: s.trace }

/-! ## Registers -/

/-- `upc <- (upc + 1) mod 256` (R25, R200). -/
def State.advance (s : State) : State := { s with upc := s.upc + 1 }

/-- `upc <- t` (R11, R201). -/
def State.jump (s : State) (t : UAddr) : State := { s with upc := t }

/-- `RAW <- v`. -/
def State.writeRaw (s : State) (v : Word) : State := { s with raw := .holds v }

/-- `EFF <- e`, `ACT <- a`: the two results of a chip-select test (R181, R182). -/
def State.writeTest (s : State) (e : Word) (a : Bool) : State :=
  { s with eff := .holds e, act := .holds a }

/-- `PREV <- v`. -/
def State.writePrev (s : State) (v : Word) : State := { s with prev := .holds v }

/-- `DAT <- v`. -/
def State.writeDat (s : State) (v : Word) : State := { s with dat := .holds v }

/-- `TBL <- v`. -/
def State.writeTbl (s : State) (v : Word) : State := { s with tbl := .holds v }

/-- `TLEN <- v`. -/
def State.writeTlen (s : State) (v : Word) : State := { s with tlen := .holds v }

/-- `SEL <- v`. -/
def State.writeSel (s : State) (v : Word) : State := { s with sel := .holds v }

/-- `SET <- v`. -/
def State.writeSet (s : State) (v : Word) : State := { s with set := .holds v }

/-- `MODE <- m`. -/
def State.writeMode (s : State) (m : ServeMode) : State := { s with mode := .holds m }

/-- `(CHK, INV) <- (c, i)`. -/
def State.writeMasks (s : State) (c i : Word) : State := { s with chk := .holds c, inv := .holds i }

/-- `RS <- r`. -/
def State.writeRs (s : State) (r : RunState) : State := { s with rs := r }

/-- `warn(W)` for the warnings in `bits`: sticky (R32). -/
def State.warned (s : State) (bits : Word) : State := { s with warn := s.warn ||| bits }

/-- The free values from `freeCount` on have been used up to `n` of them (log 10). -/
def State.tookFree (s : State) (n : Nat) : State := { s with freeCount := s.freeCount + n }

/-- `W_MODE_FORCED_ANY` (R32). -/
def warnModeForcedAny : Word := 1
/-- `W_MODE_RESET_SINGLE` (R32). -/
def warnModeResetSingle : Word := 2
/-- `W_ROMTYPE_UNKNOWN` (R32). -/
def warnRomTypeUnknown : Word := 4
/-- `W_PINMAP` (R32). -/
def warnPinMap : Word := 8

/-! ## Model faults and reset -/

/-- The fault's code (R261). -/
def FaultRecord.code : FaultRecord → Nat
  | .indexOutOfRange _ => 1
  | .illegalMicroOp _ _ => 2
  | .unwrittenRead _ => 3

/-- `RS <- FAULTED`; the fault code and info are recorded (R262). -/
def State.raised (s : State) (f : FaultRecord) : State := { s with rs := .faulted, faultRec := some f }

/-- `raise F(info)` (R262): the micro-operation has no other effect, `s` is the state it began in. -/
def raise (f : FaultRecord) (s : State) : StepResult := .next (s.raised f)

/-- Read a register that may hold no value: go on with its value, or raise `UnwrittenRead` (R24, R261). -/
def readLatch {α : Type} (name : RegName) (r : Latch α) (s : State) (go : α → StepResult) : StepResult :=
  if r.written then go r.value else raise (.unwrittenRead name) s

/-- Reset (R290, R291): every register, flag and port takes its value of R48, the fault record is cleared,
`RTI`, `FAST` and `WORK` hold unspecified bytes again, the Image Store and the microcode ROM keep theirs.
The strap lines have settled at `straps` (R297). The environment's own fields go on: the host keeps its
samples, and no free value is used twice. -/
def State.performReset (s : State) (straps : Word) : State :=
  { State.atReset s.cfg s.store s.urom straps s.samples s.ticks with
    sampleCount := s.sampleCount
    freeCount := s.freeCount
    boots := s.boots + 1
    trace := s.trace }

end Sys2Proof.Machine
end

