-- ==== Sys2Proof/Machine/Operands.lean ====
section
/-! DEFINITION. The computed operands (30_encoding R91): a line's mask word, the strap selector, the table
address; and the two bit permutations all bit-position functions are made of. -/

namespace Sys2Proof.Machine

/-- `bit(n)` (R10). -/
def bitWord (n : Nat) : Word := BitVec.ofNat 32 (2 ^ n)

/-- `Σ bit(p)` over a list of positions: their or (R10). -/
def bitsWord (ps : List Nat) : Word := ps.foldr (fun p w => bitWord p ||| w) 0

/-- `Σ_i v[p_i] * 2^i`: the bits of `v` at the positions, the first position weighing 1. -/
def gather : List Nat → Nat → Nat
  | [], _ => 0
  | p :: ps, v => (v.testBit p).toNat + 2 * gather ps v

/-- `Σ_i a[i] * 2^(p_i)`: bit `i` of `a` put at the `i`-th position. -/
def scatter : List Nat → Nat → Nat
  | [], _ => 0
  | p :: ps, a => (if a.testBit 0 then 2 ^ p else 0) ||| scatter ps (a / 2)

/-- The strap selector, binary-weighted: `Σ STRAP[sel_pin(i)] * 2^i` (R91, R233). -/
def strapSelector (selPins : List (Fin 32)) (strap : Word) : Word :=
  BitVec.ofNat 32 (gather (selPins.map (·.val)) strap.toNat)

/-- All `M_BOOT` bootloader-entry pins read 1, and there is at least one (R231). -/
def bootPinsHigh (bootPins : List (Fin 32)) (strap : Word) : Bool :=
  !bootPins.isEmpty && bootPins.all fun p => strap.getLsbD p.val

/-- The table address `TBL + RAW` (R91, R190). -/
def tableAddress (tbl raw : Word) : Word := tbl + raw

/-- The space `TBL` points into once the boot program has run (R190). -/
def tableSpace (cfg : Config) : Space :=
  if cfg.fastCopy then .fast else if cfg.remapAtBoot then .work else .store

/-- The space `TBL` points into after RMP (R236). -/
def remapSpace (cfg : Config) : Space := if cfg.remapAtBoot then .work else .store

/-- The code of a serve mode (R28, R100). -/
def ServeMode.code : ServeMode → Nat
  | .twoCheck => 0
  | .addrOnCs => 1
  | .addrOnAnyCs => 2

/-- The entry of the program a mode is served by: `0x10 + 0x10 * MODE` (R241). -/
def entryOf (m : ServeMode) : UAddr := BitVec.ofNat 8 (0x10 + 0x10 * m.code)

end Sys2Proof.Machine
end

