-- ==== Sys2Proof/Machine/ImageStore.lean ====
section
/-! DEFINITION. The Image Store (30_encoding R98 to R103): field codes, ROM descriptors, set headers and
the chain of blocks. -/

namespace Sys2Proof.Machine

/-- The three emulated ROM types (00_scope R9). -/
inductive RomType where
  | r2316
  | r2332
  | r2364
deriving DecidableEq, Repr

/-- Polarity of a select line (R99). -/
inductive Polarity where
  | activeLow
  | activeHigh
  | notUsed
deriving DecidableEq, Repr

/-- A ROM descriptor (R102). The type stays a raw code: an unrecognised one has a meaning (R98). -/
structure RomDesc where
  typeCode : Byte
  pol1 : Polarity
  pol2 : Polarity
  pol3 : Polarity
deriving DecidableEq, Repr

/-- A RomSet as its header describes it (10_state R43, R101); `roms` has `romCount` descriptors. -/
structure RomSet where
  romCount : Nat
  serveMode : ServeMode
  multiPol : Polarity
  indexWidth : Nat
  roms : List RomDesc
deriving DecidableEq, Repr

/-- `size(T)` in bytes (R9; the 2316 and 2332 sizes are PRESUMED, log 18). -/
def RomType.size : RomType → Nat
  | .r2316 => 2048
  | .r2332 => 4096
  | .r2364 => 8192

/-- `n_addr(T)`, the number of address lines (R9). -/
def RomType.nAddr : RomType → Nat
  | .r2316 => 11
  | .r2332 => 12
  | .r2364 => 13

/-- `n_cs(T)`, the number of chip-select lines (R9). -/
def RomType.nCs : RomType → Nat
  | .r2316 => 3
  | .r2332 => 2
  | .r2364 => 1

/-- The type a code stands for, if it is one of the three (R98). -/
def romTypeOf (code : Byte) : Option RomType :=
  match code.toNat with
  | 0 => some .r2316
  | 1 => some .r2332
  | 2 => some .r2364
  | _ => none

/-- `eff_type(d)`: 2364 for every other code (40_remapper R131). -/
def RomDesc.effType (d : RomDesc) : RomType := (romTypeOf d.typeCode).getD .r2364

/-- `pol[r]` (R102). -/
def RomDesc.pol (d : RomDesc) : Nat → Polarity
  | 1 => d.pol1
  | 2 => d.pol2
  | 3 => d.pol3
  | _ => .notUsed

/-- The effective type of `rom[k]`. -/
def RomSet.typeAt (set : RomSet) (k : Nat) : RomType :=
  ((set.roms[k]?).map RomDesc.effType).getD .r2364

/-- A polarity code (R99); a reserved one is refused (U9). -/
def polarityOf (code : Byte) : Except ConfigDefect Polarity :=
  match code.toNat with
  | 0 => .ok .activeLow
  | 1 => .ok .activeHigh
  | 2 => .ok .notUsed
  | _ => .error (.polarity code)

/-- A `serve_mode` code (R100); a reserved one is refused (U9). -/
def serveModeOf (code : Byte) : Except ConfigDefect ServeMode :=
  match code.toNat with
  | 0 => .ok .twoCheck
  | 1 => .ok .addrOnCs
  | 2 => .ok .addrOnAnyCs
  | _ => .error (.serveMode code)

/-- The `index_width` field: 11 to `IN_W` (R101, U9). -/
def indexWidthOf (inW : Nat) (code : Byte) : Except ConfigDefect Nat :=
  if 11 ≤ code.toNat ∧ code.toNat ≤ inW then .ok code.toNat else .error (.indexWidth code)

/-- Four bytes of a header as a ROM descriptor (R102). -/
def parseDesc (t p1 p2 p3 : Byte) : Except ConfigDefect RomDesc := do
  return { typeCode := t, pol1 := ← polarityOf p1, pol2 := ← polarityOf p2, pol3 := ← polarityOf p3 }

/-- The descriptors in use, `rom_count` of the three (R101, R43; U8). -/
def romsInUse (count : Byte) (d0 d1 d2 : RomDesc) : Except ConfigDefect (List RomDesc) :=
  match count.toNat with
  | 1 => .ok [d0]
  | 2 => .ok [d0, d1]
  | 3 => .ok [d0, d1, d2]
  | _ => .error (.romCount count)

/-- The 16 bytes of a set header (R101). All three descriptors are read, so a reserved polarity code is
refused in whichever it stands (R99, U9); `multi_rom_cs1_state` is "ignored when `rom_count == 1`" (log 13). -/
def parseHeader (inW : Nat) : List Byte → Option (Except ConfigDefect RomSet)
  | [c, m, p, w, t0, a0, b0, c0, t1, a1, b1, c1, t2, a2, b2, c2] => some do
    let d0 ← parseDesc t0 a0 b0 c0
    let d1 ← parseDesc t1 a1 b1 c1
    let d2 ← parseDesc t2 a2 b2 c2
    let roms ← romsInUse c d0 d1 d2
    let mode ← serveModeOf m
    let multi ← if c = 1 then .ok .notUsed else polarityOf p
    let width ← indexWidthOf inW w
    return { romCount := roms.length, serveMode := mode, multiPol := multi, indexWidth := width, roms := roms }
  | _ => none

/-- The 16 placed bytes from an address on, if all are placed. -/
def headerBytes (store : Memory) (base : Nat) : Option (List Byte) :=
  (List.range 16).mapM fun i => cellAt store (base + i)

/-- `SET_ADDR[n]` (R103): block 0 is at `STORE_BASE`, and a block is its 16-byte header and its table.
`none` when an earlier block's `index_width` byte is not placed. -/
def setAddr (cfg : Config) (store : Memory) : Nat → Option Nat
  | 0 => some cfg.storeBase.toNat
  | n + 1 => do
    let a ← setAddr cfg store n
    let w ← cellAt store (a + 3)
    return a + 16 + 2 ^ w.toNat

/-- `sets[n]`, read from the Image Store each time it is needed (10_state R31). -/
def romSetAt (cfg : Config) (store : Memory) (n : Nat) : Except ConfigDefect RomSet :=
  if n < cfg.numSets then
    match (setAddr cfg store n).bind fun a => (headerBytes store a).bind (parseHeader cfg.inW) with
    | some r => r
    | none => .error (.headerMissing n)
  else .error (.noSuchSet n)

/-- The address of byte 0 of the prebuilt table of set `n`: `SET_ADDR[n] + 16` (R101, R147). -/
def prebuiltTable (cfg : Config) (store : Memory) (n : Nat) : Word :=
  BitVec.ofNat 32 ((setAddr cfg store n).getD 0 + 16)

/-- `TLEN` of a set: `2^IDX_W` (R22). -/
def RomSet.tableLength (set : RomSet) : Word := BitVec.ofNat 32 (2 ^ set.indexWidth)

/-- Read `SET`, then the selected set's configuration (R30, R31). A block that is no RomSet is refused
(R263); no accepted configuration has one at its `SET` (log 11). -/
def withSet (s : State) (go : Nat → RomSet → StepResult) : StepResult :=
  readLatch .set s.set s fun n =>
    match romSetAt s.cfg s.store n.toNat with
    | .ok set => go n.toNat set
    | .error d => .refused (.configuration d)

end Sys2Proof.Machine
end

