-- ==== Sys2Proof/Machine/Boot.lean ====
section
/-! DEFINITION. Boot selection, preload, RuntimeInfo and loop entry: BCHK, STRAP, SSET, PLD, RTI, ENT
(45_preload_boot). -/

namespace Sys2Proof.Machine

/-- BCHK (R231): with all bootloader-entry pins high the sequencer stops in `BOOTLOADER`, `upc` where it is. -/
def execBchk (s : State) : StepResult :=
  if bootPinsHigh s.cfg.pm.boot s.strap then .next (s.afterReadStrap.writeRs .bootloader)
  else .next s.afterReadStrap.advance

/-- STRAP (R233). -/
def execStrap (s : State) : StepResult :=
  .next (s.afterReadStrap.writeSel (strapSelector s.cfg.pm.sel s.strap)).advance

/-- `SEL mod NUM_SETS` (R234). -/
def selectedSet (cfg : Config) (sel : Word) : Word := BitVec.ofNat 32 (sel.toNat % cfg.numSets)

/-- SSET (R234). `NUM_SETS == 0` is not a configuration (U8). -/
def execSset (s : State) : StepResult :=
  readLatch .sel s.sel s fun sel =>
    if s.cfg.numSets = 0 then .refused (.configuration .noSets)
    else .next (s.writeSet (selectedSet s.cfg sel)).advance

/-- The `TLEN` bytes of the table as `SRC` holds them (R236). -/
def sourceTable (s : State) (tbl tlen : Word) : List Byte :=
  (List.range tlen.toNat).map fun i => s.memRead (remapSpace s.cfg) (tbl + BitVec.ofNat 32 i)

/-- PLD (R236): "a plain linear byte copy" of "the selected set's table", so that `SET` is read (R30, log 28)
although its value decides nothing more; without `FAST_COPY` it changes nothing. -/
def execPld (s : State) : StepResult :=
  if s.cfg.fastCopy then
    readLatch .set s.set s fun _ => readLatch .tlen s.tlen s fun tlen => readLatch .tbl s.tbl s fun tbl =>
      .next ((s.memWrite .fast s.cfg.fastBase (sourceTable s tbl tlen)).writeTbl s.cfg.fastBase).advance
  else .next s.advance

/-- The 24 bytes of the RuntimeInfo record (30_encoding R105, R240). -/
def rtiRecord (magic : Vector Byte 4) (set tbl tlen : Word) : List Byte :=
  magic.toList ++ wordBytes 24 ++ wordBytes set ++ wordBytes 0 ++ wordBytes tbl ++ wordBytes tlen

/-- RTI (R240). -/
def execRti (s : State) : StepResult :=
  readLatch .set s.set s fun set => readLatch .tbl s.tbl s fun tbl => readLatch .tlen s.tlen s fun tlen =>
    .next (s.memWrite .rti s.cfg.rtiBase (rtiRecord s.cfg.magic set tbl tlen)).advance

/-- ENT (R241): the data pins become inputs and the program of `MODE` is entered. -/
def execEnt (s : State) : StepResult :=
  readLatch .mode s.mode s fun mode => .next (((s.writeDir 0x00).writeRs .serve).jump (entryOf mode))

end Sys2Proof.Machine
end

