-- ==== Sys2Proof/Machine/Control.lean ====
section
/-! DEFINITION. Control transfer: JMP, BA, BI, BS (44_serve_control_algorithms R201 to R204). -/

namespace Sys2Proof.Machine

/-- `upc <- tgt` when the condition holds, else the normal advance (R202 to R204). -/
def State.branch (s : State) (taken : Bool) (tgt : UAddr) : State := if taken then s.jump tgt else s.advance

/-- JMP (R201). -/
def execJmp (tgt : UAddr) (s : State) : StepResult := .next (s.jump tgt)

/-- BA (R202). -/
def execBa (tgt : UAddr) (s : State) : StepResult := readLatch .act s.act s fun act => .next (s.branch act tgt)

/-- BI (R203). -/
def execBi (tgt : UAddr) (s : State) : StepResult := readLatch .act s.act s fun act => .next (s.branch (!act) tgt)

/-- BS (R204): the comparison is of all 32 bits. -/
def execBs (tgt : UAddr) (s : State) : StepResult :=
  readLatch .raw s.raw s fun raw => readLatch .prev s.prev s fun prev => .next (s.branch (raw == prev) tgt)

end Sys2Proof.Machine
end

