-- ==== Sys2Proof/Machine/PinMapCheck.lean ====
section
/-! DEFINITION. The lines of a set and the predicate `PinMapOK` (10_state R40, R41, R44; 40_remapper R143),
and the PinMap record (30_encoding R104). -/

namespace Sys2Proof.Machine

/-- The bit position of a line. An absent line has none: the 0 here stands for no position, and no
micro-operation and no observation uses it, as each has a free value where `PinMapOK` fails (U6; log 10). -/
def linePos (line : Option Pin) : Nat := (line.map fun p => p.bit.val).getD 0

/-- `addr_pin(0)` to `addr_pin(n_addr(T) - 1)` (R40). -/
def addrLines (pm : PinMap) (t : RomType) : List (Option Pin) := pm.addr.toList.take t.nAddr

/-- `cs_pin(T, 1)` to `cs_pin(T, n_cs(T))` (R40). -/
def csLines (pm : PinMap) : RomType → List (Option Pin)
  | .r2316 => pm.cs2316.toList
  | .r2332 => pm.cs2332.toList
  | .r2364 => pm.cs2364.toList

/-- Positions of the address lines of a type. -/
def addrPositions (pm : PinMap) (t : RomType) : List Nat := (addrLines pm t).map linePos

/-- `data_pin(0)` to `data_pin(7)`. -/
def dataPositions (pm : PinMap) : List Nat := pm.data.toList.map linePos

/-- A select line of a set with the polarity that counts for it (R44). -/
structure SelectLine where
  line : Option Pin
  pol : Polarity
deriving DecidableEq, Repr

/-- The select lines of a set (R44): of a single-ROM set its chip-select lines, each with its own
polarity; of a multi-ROM set CS1 of `rom[0]`'s type, X1 and, with three ROMs, X2, all with
`multi_rom_cs1_state`. -/
def selectLines (pm : PinMap) (set : RomSet) : List SelectLine :=
  if set.romCount > 1 then
    ((csLines pm (set.typeAt 0)).take 1 ++ [pm.x1] ++ (if set.romCount = 3 then [pm.x2] else [])).map
      fun l => ⟨l, set.multiPol⟩
  else
    (csLines pm (set.typeAt 0)).zipIdx.map fun (l, i) =>
      ⟨l, ((set.roms[0]?).map fun d => d.pol (i + 1)).getD .notUsed⟩

/-- Positions of the select lines of a set. -/
def selectPositions (pm : PinMap) (set : RomSet) : List Nat := (selectLines pm set).map fun l => linePos l.line

/-- The line is on the input port. -/
def isInput : Option Pin → Bool
  | some ⟨.input, _⟩ => true
  | _ => false

/-- The line is on bits 0 to 7 of the data port. -/
def isDataByte : Option Pin → Bool
  | some ⟨.data, b⟩ => b.val < 8
  | _ => false

/-- No two members are equal. -/
def allDistinct : List Nat → Bool
  | [] => true
  | p :: ps => !ps.contains p && allDistinct ps

/-- The address, chip-select and X lines that clause (b) speaks of (R41). -/
def usedLines (pm : PinMap) (set : RomSet) : List (Option Pin) :=
  (List.range set.romCount).flatMap (fun k => addrLines pm (set.typeAt k) ++ csLines pm (set.typeAt k))
    ++ (if set.romCount > 1 then [pm.x1] else []) ++ (if set.romCount = 3 then [pm.x2] else [])

/-- Clause (a): `data_pin` is a bijection from 0..7 onto 0..7, all on the data port. -/
def pinsClauseA (pm : PinMap) : Bool := pm.data.toList.all isDataByte && allDistinct (dataPositions pm)

/-- Clause (b): every line in use is on the input port. -/
def pinsClauseB (pm : PinMap) (set : RomSet) : Bool := (usedLines pm set).all isInput

/-- Clause (c): every position in use, and every skipped bit, is below `IDX_W` (also R143). -/
def pinsClauseC (pm : PinMap) (set : RomSet) : Bool :=
  ((usedLines pm set).all fun l => linePos l < set.indexWidth)
    && pm.skip.all fun b => b.val < set.indexWidth

/-- Clause (d): for each ROM, the address positions, the select-line positions and the skipped bits are
pairwise different. The select lines are all those of the set, as R136 needs (log 14). -/
def pinsClauseD (pm : PinMap) (set : RomSet) : Bool :=
  (List.range set.romCount).all fun k =>
    let ps := addrPositions pm (set.typeAt k) ++ selectPositions pm set
    allDistinct ps && pm.skip.all fun b => !ps.contains b.val

/-- Clause (e): the select lines of a multi-ROM set are at pairwise different positions. -/
def pinsClauseE (pm : PinMap) (set : RomSet) : Bool :=
  set.romCount ≤ 1 || allDistinct (selectPositions pm set)

/-- `PinMapOK(PM, set)` (R41). -/
def pinMapOK (pm : PinMap) (set : RomSet) : Bool :=
  pinsClauseA pm && pinsClauseB pm set && pinsClauseC pm set && pinsClauseD pm set && pinsClauseE pm set

/-- `PinMapOK` fails for the block as it runs: for the selected set, or, whichever set that is, because the
data lines are not in order (clause (a) speaks of no set). Where it does, "the masks, the table's meaning
and the data seen by the host" are not defined (U6; log 10). -/
def State.pinMapFails (s : State) : Bool :=
  !pinsClauseA s.cfg.pm || (s.set.written &&
    match romSetAt s.cfg s.store s.set.value.toNat with
    | .ok set => !pinMapOK s.cfg.pm set
    | .error _ => false)

/-- "CS2 physically shares the 'CS3' pin role": `cs_pin(2332, 2) == cs_pin(2316, 3)` (R40). A fact of the
boards; no rule of the block uses it. -/
def cs2SharesCs3 (pm : PinMap) : Bool := pm.cs2332[1] == pm.cs2316[2]

/-! ## The PinMap record (R104) -/

/-- One entry: `port` then `bit` (R104); `none` when the two bytes are no entry. The second byte of an absent
line's entry may be any byte and is ignored: the rule says of it only that a bit index is 0 to 31, and an absent
line has no bit (DESIGN CHOICE, log 29). -/
def parsePin (port bit : Byte) : Option (Option Pin) :=
  if port = 0xFF then some none
  else if h : bit.toNat < 32 then
    match port.toNat with
    | 0 => some (some ⟨.input, ⟨bit.toNat, h⟩⟩)
    | 1 => some (some ⟨.data, ⟨bit.toNat, h⟩⟩)
    | 2 => some (some ⟨.strap, ⟨bit.toNat, h⟩⟩)
    | 3 => some (some ⟨.other, ⟨bit.toNat, h⟩⟩)
    | _ => none
  else none

/-- `n` entries and the bytes after them. -/
def parsePins : Nat → List Byte → Option (List (Option Pin) × List Byte)
  | 0, bs => some ([], bs)
  | n + 1, p :: b :: bs => do
    let pin ← parsePin p b
    let (pins, rest) ← parsePins n bs
    return (pin :: pins, rest)
  | _ + 1, _ => none

/-- A strap pin's position (R40: "the bit of `STRAP`"). -/
def strapPos : Option Pin → Option (Fin 32)
  | some ⟨.strap, b⟩ => some b
  | _ => none

/-- A byte as a bit position. -/
def bitPos (b : Byte) : Option (Fin 32) := if h : b.toNat < 32 then some ⟨b.toNat, h⟩ else none

/-- The entries at `i`, `i + 1`, .. as the lines of a vector. -/
def linesAt (pins : List (Option Pin)) (i : Nat) (n : Nat) : Vector (Option Pin) n :=
  Vector.ofFn fun j => (pins[i + j.val]?).join

/-- The entry is not on "another port". -/
def notOther : Option Pin → Bool
  | some ⟨.other, _⟩ => false
  | _ => true

/-- The PinMap of a record (R104): `data_pin` 0..7, `addr_pin` 0..15, the six `cs_pin`, `x_pin` 1..2, `sel_pin`
0..3 (of which `nSel` are in use), `mBoot` `boot_pin`, `led_pin`, then the members of `skip`. On another port
"only the LED may be there". What is done with bytes the rule does not speak of is log 29. -/
def parsePinMap (nSel mBoot : Nat) (bytes : List Byte) : Option PinMap := do
  let (pins, rest) ← parsePins (37 + mBoot) bytes
  if !(pins.take (36 + mBoot)).all notOther then none
  let sel ← ((pins.drop 32).take (min nSel 4)).mapM strapPos
  let boot ← ((pins.drop 36).take mBoot).mapM strapPos
  match rest with
  | n :: skip =>
    if skip.length = n.toNat then do
      let skipped ← skip.mapM bitPos
      return { data := linesAt pins 0 8, addr := linesAt pins 8 16, cs2364 := linesAt pins 24 1,
               cs2332 := linesAt pins 25 2, cs2316 := linesAt pins 27 3,
               x1 := (pins[30]?).join, x2 := (pins[31]?).join, sel := sel, boot := boot,
               led := (pins[36 + mBoot]?).join, skip := skipped }
    else none
  | [] => none

end Sys2Proof.Machine
end

