-- ==== Sys2Proof/Machine/Drive.lean ====
section
/-! DEFINITION. The lookup mux and the output driver: LKP, DRV, OEN, ODS, CNT (43_serve_lookup_drive). -/

namespace Sys2Proof.Machine

/-- The byte that LKP finds at an index: the table's (R190), or, where `PinMapOK` fails, a free one ("served
bytes", U6; log 10). -/
def servedByte (s : State) (tbl raw : Word) : Byte :=
  if s.pinMapFails then Config.freeServedByte s.boots raw.toNat
  else s.memRead (tableSpace s.cfg) (tableAddress tbl raw)

/-- LKP (R190): the whole sample is the index; at or above `TLEN` it raises `IndexOutOfRange`. -/
def execLkp (s : State) : StepResult :=
  readLatch .raw s.raw s fun raw => readLatch .tlen s.tlen s fun tlen =>
    if raw ≥ tlen then raise (.indexOutOfRange raw) s
    else readLatch .tbl s.tbl s fun tbl =>
      .next (s.writeDat ((servedByte s tbl raw).setWidth 32)).advance

/-- DRV (R191): `PortWrite(ODR, DAT[7:0])`, whatever `ACT` and `DIR` are. -/
def execDrv (s : State) : StepResult :=
  readLatch .dat s.dat s fun dat => .next (s.writeOdr (dat.extractLsb' 0 8)).advance

/-- OEN (R192): all data pins become outputs. -/
def execOen (s : State) : StepResult := .next (s.writeDir 0xFF).advance

/-- ODS (R193): all data pins become inputs; `ODR` is unchanged. -/
def execOds (s : State) : StepResult := .next (s.writeDir 0x00).advance

/-- The address of the `access_count` field (R105). -/
def countAddress (cfg : Config) : Word := cfg.rtiBase + 12

/-- `access_count` as memory holds it (R105, R194). -/
def State.accessCount (s : State) : Word := s.memReadWord .rti (countAddress s.cfg)

/-- Read, add one modulo 2^32, write back (R194). -/
def State.countOne (s : State) : State :=
  (s.memWrite .rti (countAddress s.cfg) (wordBytes (s.accessCount + 1))).note (.writeCount (s.accessCount + 1))

/-- CNT (R194): "When `COUNT_EN` is false CNT does nothing at all". -/
def execCnt (s : State) : StepResult := .next (if s.cfg.countEn then s.countOne else s).advance

end Sys2Proof.Machine
end

