-- ==== Sys2Proof/Machine/Remap.lean ====
section
/-! DEFINITION. The remapper (40_remapper): the bit-position functions, what a correct table is, the
reference construction, and the micro-operation RMP. -/

namespace Sys2Proof.Machine

/-! ## Bit-position functions (R132 to R135) -/

/-- `logical_address_of(T, idx)` (R132). -/
def logicalAddress (pm : PinMap) (t : RomType) (idx : Nat) : Nat := gather (addrPositions pm t) idx

/-- `mangle_addr(T, a)` (R133). -/
def mangleAddr (pm : PinMap) (t : RomType) (a : Nat) : Nat := scatter (addrPositions pm t) a

/-- `mangle(T, a, lv)` (R133): the address with the select lines of the set at levels `lv`, the first
line's level in bit 0 of `lv`. -/
def mangle (pm : PinMap) (set : RomSet) (t : RomType) (a lv : Nat) : Nat :=
  mangleAddr pm t a ||| scatter (selectPositions pm set) lv

/-- `remap_byte(b)` (R134). -/
def remapByte (pm : PinMap) (b : Byte) : Byte := BitVec.ofNat 8 (scatter (dataPositions pm) b.toNat)

/-- `demangle_byte(r)` (R135). -/
def demangleByte (pm : PinMap) (r : Byte) : Byte := BitVec.ofNat 8 (gather (dataPositions pm) r.toNat)

/-! ## Selection by an index (R137) -/

/-- The active level of a polarity: 1 for `active_high`; every other value counts as 0: `active_low`, a
multi-ROM `not_used` (R167), and a single-ROM `not_used` line, which must read 0 (R165). -/
def Polarity.activeLevel : Polarity → Bool
  | .activeHigh => true
  | .activeLow => false
  | .notUsed => false

/-- Line `l` is asserted in `idx` (R137). -/
def SelectLine.asserted (l : SelectLine) (idx : Nat) : Bool := idx.testBit (linePos l.line) == l.pol.activeLevel

/-- `idx` selects `rom[k]` (R137): of a single-ROM set all lines are asserted; of a multi-ROM set `L_k` is. -/
def selectsRom (pm : PinMap) (set : RomSet) (idx k : Nat) : Bool :=
  if set.romCount > 1 then ((selectLines pm set)[k]?).any fun l => l.asserted idx
  else k == 0 && (selectLines pm set).all fun l => l.asserted idx

/-- The ROMs that `idx` selects, the least-numbered first. -/
def selectedRoms (pm : PinMap) (set : RomSet) (idx : Nat) : List Nat :=
  (List.range set.romCount).filter fun k => selectsRom pm set idx k

/-! ## Tables -/

/-- `TableOK` (R138, R139): wherever an index selects exactly one ROM, the entry demangles to that ROM's
byte. Nothing is said of an index that selects none or several (U1, U2). -/
def TableOK (pm : PinMap) (set : RomSet) (img : Nat → Nat → Byte) (table : Nat → Byte) : Prop :=
  ∀ idx k, idx < 2 ^ set.indexWidth → selectedRoms pm set idx = [k] →
    demangleByte pm (table idx) = img k (logicalAddress pm (set.typeAt k) idx)

/-- The ROM whose byte `remap_ref` puts at `idx`: the single one (R141); of several sets the least-numbered
that `idx` selects, else `rom[0]` (R142). -/
def remapSource (pm : PinMap) (set : RomSet) (idx : Nat) : Nat :=
  if set.romCount > 1 then (selectedRoms pm set idx).headD 0 else 0

/-- Entry `idx` of `remap_ref` (R141, R142). -/
def remapRef (pm : PinMap) (set : RomSet) (img : Nat → Nat → Byte) (idx : Nat) : Byte :=
  let k := remapSource pm set idx
  remapByte pm (img k (logicalAddress pm (set.typeAt k) idx % (set.typeAt k).size))

/-! ## RMP -/

/-- Byte `a` of the logical image of `rom[k]` of set `n`, in `STORE` at `LIMG_ADDR[n][k]` (R103). An image
that nothing places has free bytes, and so has one past its end: a DESIGN CHOICE (log 22), which an accepted
configuration does not meet at the set its straps select. -/
def logicalImage (s : State) (n k a : Nat) : Byte :=
  match (s.cfg.images[n]?).bind (·[k]?) with
  | some image =>
    if a < image.len then s.memRead .store (image.addr + BitVec.ofNat 32 a) else Config.freeImageByte n k a
  | none => Config.freeImageByte n k a

/-- The table RMP builds (R147): `remap_ref`; where `PinMapOK` fails its entries have no defined result
and are free (R160, U6; log 10). -/
def builtTable (s : State) (n : Nat) (set : RomSet) : List Byte :=
  (List.range set.tableLength.toNat).map fun idx =>
    if pinMapOK s.cfg.pm set then remapRef s.cfg.pm set (logicalImage s n) idx
    else Config.freeTableByte s.freeCount idx

/-- RMP (R147). Without `REMAP_AT_BOOT` the table is the prebuilt one in the Image Store, unchecked. -/
def execRmp (s : State) : StepResult :=
  withSet s fun n set =>
    let s1 := s.writeTlen set.tableLength
    if s.cfg.remapAtBoot then
      .next (((s1.memWrite .work s.cfg.workBase (builtTable s n set)).writeTbl s.cfg.workBase).tookFree
        (if pinMapOK s.cfg.pm set then 0 else 1)).advance
    else .next (s1.writeTbl (prebuiltTable s.cfg s.store n)).advance

end Sys2Proof.Machine
end

