-- ==== Sys2Proof/Machine/Flags.lean ====
section
/-! DEFINITION. The one flag, `ACT`, and how the two chip-select tests compute it (42_serve_sample_test). -/

namespace Sys2Proof.Machine

/-- `(RAW ^ INV) & CHK`: a 0 bit is a line at its active level (R169, R181). -/
def effective (raw inv chk : Word) : Word := (raw ^^^ inv) &&& chk

/-- TALL's flag: all lines of the check mask are active (R181). -/
def allActive (eff : Word) : Bool := eff == 0

/-- TANY's flag: at least one line of the check mask is active (R182). -/
def anyActive (eff chk : Word) : Bool := eff != chk

end Sys2Proof.Machine
end

