-- ==== Sys2Proof/Machine/Sample.lean ====
section
/-! DEFINITION. The input sampler and the chip-select tests: SMP, TALL, TANY, LAT (42_serve_sample_test). -/

namespace Sys2Proof.Machine

/-- SMP (R180): one read of the whole input register. -/
def execSmp (s : State) : StepResult := .next (s.afterReadIn.writeRaw s.inputNow).advance

/-- TALL (R181). -/
def execTall (s : State) : StepResult :=
  readLatch .raw s.raw s fun raw => readLatch .inv s.inv s fun inv => readLatch .chk s.chk s fun chk =>
    .next (s.writeTest (effective raw inv chk) (allActive (effective raw inv chk))).advance

/-- TANY (R182). -/
def execTany (s : State) : StepResult :=
  readLatch .raw s.raw s fun raw => readLatch .inv s.inv s fun inv => readLatch .chk s.chk s fun chk =>
    .next (s.writeTest (effective raw inv chk) (anyActive (effective raw inv chk) chk)).advance

/-- LAT (R183). -/
def execLat (s : State) : StepResult := readLatch .raw s.raw s fun raw => .next (s.writePrev raw).advance

end Sys2Proof.Machine
end

