-- ==== Sys2Proof/Machine/Selector.lean ====
section
/-! DEFINITION. The serve-mode selector: PCK, RPR, MSK (41_selector). -/

namespace Sys2Proof.Machine

/-- PCK (R160): sets `W_PINMAP` where `PinMapOK` fails, and nothing else. -/
def execPck (s : State) : StepResult :=
  withSet s fun _ set => .next (if pinMapOK s.cfg.pm set then s else s.warned warnPinMap).advance

/-- The repaired serve mode and the warning that goes with the repair (R162). -/
def repairMode (set : RomSet) : ServeMode × Word :=
  if set.romCount > 1 ∧ set.serveMode ≠ .addrOnAnyCs then (.addrOnAnyCs, warnModeForcedAny)
  else if set.romCount = 1 ∧ set.serveMode = .addrOnAnyCs then (.twoCheck, warnModeResetSingle)
  else (set.serveMode, 0)

/-- RPR (R162). -/
def execRpr (s : State) : StepResult :=
  withSet s fun _ set => .next ((s.warned (repairMode set).2).writeMode (repairMode set).1).advance

/-- `CHK`: every select line of the set (R165, R167); a `not_used` line the type has is in it. -/
def checkMask (pm : PinMap) (set : RomSet) : Word := bitsWord (selectPositions pm set)

/-- `INV`: the select lines whose polarity is `active_high` (R165, R167). -/
def invertMask (pm : PinMap) (set : RomSet) : Word :=
  bitsWord (((selectLines pm set).filter fun l => l.pol = .activeHigh).map fun l => linePos l.line)

/-- MSK warns of the type of a single-ROM set only (R166, R167). -/
def romTypeWarning (set : RomSet) : Word :=
  if set.romCount ≤ 1 ∧ ((set.roms[0]?).any fun d => (romTypeOf d.typeCode).isNone) = true then warnRomTypeUnknown
  else 0

/-- MSK (R164). Where `PinMapOK` fails the two masks are free, and all else happens (U6; log 10). -/
def execMsk (s : State) : StepResult :=
  withSet s fun _ set =>
    let w := s.warned (romTypeWarning set)
    if pinMapOK s.cfg.pm set then .next (w.writeMasks (checkMask s.cfg.pm set) (invertMask s.cfg.pm set)).advance
    else .next ((w.writeMasks (Config.freeWord s.freeCount) (Config.freeWord (s.freeCount + 1))).tookFree 2).advance

end Sys2Proof.Machine
end

