-- ==== Sys2Proof/Machine/Dispatch.lean ====
section
/-! DEFINITION. Each micro-operation's meaning, one arm per constructor (30_encoding R92). -/

namespace Sys2Proof.Machine

def exec (i : Instr) (s : State) : Host.Outcome State Fault Refusal :=
  match i with
  | .smp => Sys2Proof.Machine.execSmp s
  | .tall => Sys2Proof.Machine.execTall s
  | .tany => Sys2Proof.Machine.execTany s
  | .lat => Sys2Proof.Machine.execLat s
  | .lkp => Sys2Proof.Machine.execLkp s
  | .drv => Sys2Proof.Machine.execDrv s
  | .oen => Sys2Proof.Machine.execOen s
  | .ods => Sys2Proof.Machine.execOds s
  | .cnt => Sys2Proof.Machine.execCnt s
  | .jmp tgt => Sys2Proof.Machine.execJmp tgt s
  | .ba tgt => Sys2Proof.Machine.execBa tgt s
  | .bi tgt => Sys2Proof.Machine.execBi tgt s
  | .bs tgt => Sys2Proof.Machine.execBs tgt s
  | .bchk => Sys2Proof.Machine.execBchk s
  | .strap => Sys2Proof.Machine.execStrap s
  | .sset => Sys2Proof.Machine.execSset s
  | .rmp => Sys2Proof.Machine.execRmp s
  | .pld => Sys2Proof.Machine.execPld s
  | .pck => Sys2Proof.Machine.execPck s
  | .rpr => Sys2Proof.Machine.execRpr s
  | .msk => Sys2Proof.Machine.execMsk s
  | .rti => Sys2Proof.Machine.execRti s
  | .ent => Sys2Proof.Machine.execEnt s

end Sys2Proof.Machine
end

