-- ==== Sys2Proof/Decode.lean ====
section
/-! DEFINITION. Decoding a micro-word (30_encoding R90 to R94) and, after it, the encoder. -/

namespace Sys2Proof

/-- Why a micro-word is illegal (R93). -/
inductive DecodeError where
  /-- `op` is not in the opcode map (0x0000 is one of these). -/
  | unknownOp (op : BitVec 8)
  /-- A format `N` word whose bits 7:0 are not 0x00. -/
  | operandNotZero (op lo : BitVec 8)
deriving DecidableEq, Repr

/-- Bits 15:8 of a micro-word (R90). -/
def opField (w : MicroWord) : BitVec 8 := w.extractLsb' 8 8

/-- Bits 7:0 of a micro-word: `zero` in format `N`, `tgt` in format `T` (R90, R91). -/
def lowField (w : MicroWord) : BitVec 8 := w.extractLsb' 0 8

/-- A format `N` word is legal only with a zero low byte (R90, R93). -/
def formatN (w : MicroWord) (i : Instr) : Except DecodeError Instr :=
  if lowField w = 0 then .ok i else .error (.operandNotZero (opField w) (lowField w))

/-- The opcode map (R92), total on the 65536 words: a word is decoded the same way in every run state
(R94), and an illegal word is rejected by name (R93). -/
def decode (w : MicroWord) : Except DecodeError Instr :=
  match (opField w).toNat with
  | 0x10 => formatN w .smp
  | 0x11 => formatN w .tall
  | 0x12 => formatN w .tany
  | 0x13 => formatN w .lat
  | 0x14 => formatN w .lkp
  | 0x15 => formatN w .drv
  | 0x16 => formatN w .oen
  | 0x17 => formatN w .ods
  | 0x18 => formatN w .cnt
  | 0x20 => .ok (.jmp (lowField w))
  | 0x21 => .ok (.ba (lowField w))
  | 0x22 => .ok (.bi (lowField w))
  | 0x23 => .ok (.bs (lowField w))
  | 0x40 => formatN w .bchk
  | 0x41 => formatN w .strap
  | 0x42 => formatN w .sset
  | 0x43 => formatN w .rmp
  | 0x44 => formatN w .pld
  | 0x45 => formatN w .pck
  | 0x46 => formatN w .rpr
  | 0x47 => formatN w .msk
  | 0x48 => formatN w .rti
  | 0x49 => formatN w .ent
  | _ => .error (.unknownOp (opField w))

/-- The instruction the decoder reads from a row of spec/opcode_table.json whose bits are `w`: every
row is one 16-bit micro-word with no byte order (R65, R90), so the bits above `nbits` are 0 and bit 0 is
the word's bit 0. -/
def decodeTableWord (nbits w : Nat) : Option Instr :=
  match decode (BitVec.ofNat 16 (w % 2 ^ nbits)) with
  | .ok i => some i
  | .error _ => none

/-- The `op` field of a micro-operation (R92). -/
def Instr.opcode : Instr → BitVec 8
  | .smp => 0x10
  | .tall => 0x11
  | .tany => 0x12
  | .lat => 0x13
  | .lkp => 0x14
  | .drv => 0x15
  | .oen => 0x16
  | .ods => 0x17
  | .cnt => 0x18
  | .jmp _ => 0x20
  | .ba _ => 0x21
  | .bi _ => 0x22
  | .bs _ => 0x23
  | .bchk => 0x40
  | .strap => 0x41
  | .sset => 0x42
  | .rmp => 0x43
  | .pld => 0x44
  | .pck => 0x45
  | .rpr => 0x46
  | .msk => 0x47
  | .rti => 0x48
  | .ent => 0x49

/-- The low byte of a micro-operation's word: `tgt` in format `T`, 0x00 in format `N` (R90). -/
def Instr.operand : Instr → BitVec 8
  | .jmp t | .ba t | .bi t | .bs t => t
  | .smp | .tall | .tany | .lat | .lkp | .drv | .oen | .ods | .cnt => 0
  | .bchk | .strap | .sset | .rmp | .pld | .pck | .rpr | .msk | .rti | .ent => 0

/-- The micro-word of a micro-operation (R90, R92). -/
def encode (i : Instr) : MicroWord := i.opcode ++ i.operand

end Sys2Proof
end

