-- ==== Sys2Proof/Machine/Configuration.lean ====
section
/-! DEFINITION. The configurations that have no step from reset (60_exceptions R263; 93 U8 to U10; 00_scope
R8; 20_memory R67, R75). -/

namespace Sys2Proof.Machine

/-- Go on only where a condition holds. -/
def require (ok : Bool) (d : ConfigDefect) : Except ConfigDefect Unit := if ok then .ok () else .error d

/-- The set the straps select: `SEL mod NUM_SETS` (R233, R234). Only its block must be a RomSet: the
contents of the others may be anything (U3; log 11). -/
def strappedSet (cfg : Config) (strap : Word) : Nat := (strapSelector cfg.pm.sel strap).toNat % cfg.numSets

/-- A range of addresses, its first and its length. -/
structure Range where
  lo : Nat
  len : Nat
deriving DecidableEq, Repr

/-- The range does not pass 2^32 (R75). -/
def Range.fits (r : Range) : Bool := r.lo + r.len ≤ 2 ^ 32

/-- The two ranges share no address (R75). -/
def Range.apart (r q : Range) : Bool := r.lo + r.len ≤ q.lo || q.lo + q.len ≤ r.lo

/-- The Image Store: its blocks and, when `REMAP_AT_BOOT`, its logical images (R60, R103). -/
def storeRanges (cfg : Config) (storeEnd : Nat) : List Range :=
  ⟨cfg.storeBase.toNat, storeEnd - cfg.storeBase.toNat⟩
    :: (if cfg.remapAtBoot then cfg.images.flatten.map fun i => ⟨i.addr.toNat, i.len⟩ else [])

/-- The other ranges in use (R75). -/
def otherRanges (cfg : Config) (set : RomSet) : List Range :=
  ⟨cfg.rtiBase.toNat, 24⟩
    :: ((if cfg.fastCopy then [⟨cfg.fastBase.toNat, 2 ^ set.indexWidth⟩] else [])
      ++ (if cfg.remapAtBoot then [⟨cfg.workBase.toNat, 2 ^ set.indexWidth⟩] else []))

/-- No two of the ranges overlap. -/
def pairwiseApart : List Range → Bool
  | [] => true
  | r :: rs => rs.all r.apart && pairwiseApart rs

/-- The image of each ROM of the set is placed where RMP needs it, and one that is placed has
`size(eff_type)` bytes (R131, U9; log 22). -/
def checkImages (cfg : Config) (n : Nat) (set : RomSet) : Except ConfigDefect Unit :=
  (List.range set.romCount).forM fun k =>
    match (cfg.images[n]?).bind (·[k]?) with
    | some i => require (i.len == (set.typeAt k).size) (.imageLength k i.len)
    | none => require (!cfg.remapAtBoot) (.imageMissing k)

/-- The memory ranges (R67, R75, U10). -/
def checkRanges (cfg : Config) (set : RomSet) (storeEnd : Nat) : Except ConfigDefect Unit := do
  require (cfg.rtiBase.toNat % 4 == 0) .rtiMisaligned
  require ((storeRanges cfg storeEnd ++ otherRanges cfg set).all Range.fits) .rangeWraps
  require (pairwiseApart (otherRanges cfg set)
    && (otherRanges cfg set).all fun r => (storeRanges cfg storeEnd).all r.apart) .rangesOverlap

/-- The parameters have the values R8 allows (log 12), the selected block is a RomSet (U8, U9), and the
memory ranges are sound (U10). -/
def checkConfig (cfg : Config) (store : Memory) (strap : Word) : Except ConfigDefect Unit := do
  require (14 ≤ cfg.inW && cfg.inW ≤ 32) (.inputWidth cfg.inW)
  require (cfg.numSets != 0) .noSets
  require (cfg.pm.sel.length ≤ 4) (.tooManySelectPins cfg.pm.sel.length)
  let set ← romSetAt cfg store (strappedSet cfg strap)
  checkImages cfg (strappedSet cfg strap) set
  match setAddr cfg store cfg.numSets with
  | some storeEnd => checkRanges cfg set storeEnd
  | none => .error (.headerMissing cfg.numSets)

/-- Why the model refuses the configuration, if it does (R263). -/
def configDefect (cfg : Config) (store : Memory) (strap : Word) : Option ConfigDefect :=
  match checkConfig cfg store strap with
  | .ok _ => none
  | .error d => some d

/-- The configuration is one the model runs. -/
def State.accepted (s : State) : Prop := configDefect s.cfg s.store s.strap = none

end Sys2Proof.Machine
end

