-- ==== Sys2Proof/Machine/Sequencer.lean ====
section
/-! DEFINITION. What goes around a micro-operation in one step: the reset line, the fetch, and the stopped
run states (44_serve_control R200; 70_reset R290). -/

namespace Sys2Proof.Machine

/-- The micro-word the sequencer fetches: `UROM[upc]` (R65, R200). -/
def State.fetched (s : State) : MicroWord := uromWord s.urom s.upc

/-- One step of the reset line has passed. -/
def State.tickPassed (s : State) : State := { s with ticks := s.ticks.tail }

/-- The strap levels after a reset that comes at this step, if one does (R290). -/
def State.resetNow (s : State) : Option Word :=
  match s.ticks with
  | .reset straps :: _ => some straps
  | _ => none

/-- The sequencer runs: run states `BOOT` and `SERVE` (R200). -/
def RunState.running : RunState → Bool
  | .boot | .serve => true
  | .bootloader | .faulted => false

/-- In `BOOTLOADER` and `FAULTED` "the sequencer has no step" (R200): time passes as long as the
environment has a tick, and only its reset goes on (R290); then the machine is stuck (log 6). -/
def State.stopped (s : State) : StepResult :=
  if s.ticks.isEmpty then .fault (.sequencerStopped s.rs) else .next s.tickPassed

end Sys2Proof.Machine
end

