-- ==== Sys2Proof/Machine/Step.lean ====
section
/-! DEFINITION. One step of the block (44_serve_control R200), and where an instruction is put to be the
next one fetched. -/

namespace Sys2Proof.Machine

/-- One micro-operation: fetch at `upc`, decode, execute to completion; an illegal word raises
`IllegalMicroOp` (R200, R93, R261). -/
def runOne (s : State) : StepResult :=
  match decode s.fetched with
  | .ok i => exec i s
  | .error _ => raise (.illegalMicroOp s.upc s.fetched) s

/-- One step. A configuration of R263 has none. A reset wins over the step it coincides with (R290). -/
def step (s : State) : Host.Outcome State Fault Refusal :=
  match configDefect s.cfg s.store s.strap with
  | some d => .refused (.configuration d)
  | none =>
    match s.resetNow with
    | some straps => .next (s.tickPassed.performReset straps)
    | none => if s.rs.running then runOne s.tickPassed else s.stopped

/-- `s` with the micro-word of an opcode-table row at the microcode-ROM address that the next step fetches
from. The ROM is not written by the machine (R79): the row's word stands in its fixed contents (log 23). -/
def State.withFetchWord (s : State) (nbits w : Nat) : State :=
  { s with urom := uromPlace s.urom s.upc (BitVec.ofNat 16 (w % 2 ^ nbits)) }

end Sys2Proof.Machine
end

