-- ==== Sys2Proof/Machine/Observe.lean ====
section
/-! DEFINITION. What the bus host and the probe see of a state (10_state R36, R38; 20_memory R73, R81). -/

namespace Sys2Proof.Machine

/-- What the block does to one data pin (R36). -/
inductive PinLevel where
  /-- High impedance: not driven by the block. -/
  | z
  | driven (level : Bool)
deriving DecidableEq, Repr

/-- The byte on the data pins that are outputs, at observation `obs`: `ODR`, or any pattern while it holds
no value (R36, U4). -/
def State.pinByte (s : State) (obs : Nat) : Byte := if s.odr.written then s.odr.value else Config.freePins obs

/-- Data-port pin `q` at observation `obs` (R36, R195). -/
def State.pin (s : State) (obs : Nat) (q : Fin 8) : PinLevel :=
  if s.dir.getLsbD q.val then .driven ((s.pinByte obs).getLsbD q.val) else .z

/-- What the host reads on logical lines D7 to D0 while the block drives all of them (R36, R135); where
`PinMapOK` fails (a data line absent, off the data port, or two on one bit) it is any byte, possibly another
at each observation (U6; log 10). -/
def State.hostByte (s : State) (obs : Nat) : Option Byte :=
  if s.dir = 0xFF then
    some (if s.pinMapFails then Config.freeHostByte obs else demangleByte s.cfg.pm (s.pinByte obs))
  else none

/-- The two states of the serve loop (R38, R206). -/
inductive ServeState where
  | idle
  | serving
deriving DecidableEq, Repr

/-- `SST` (R38): in run state `SERVE`, IDLE when `DIR == 0x00` and SERVING when `DIR == 0xFF`. -/
def State.serveState (s : State) : Option ServeState :=
  if s.rs = .serve then
    if s.dir = 0x00 then some .idle else if s.dir = 0xFF then some .serving else none
  else none

/-- A read by the probe: "pure memory inspection" (R81). -/
def State.probe (s : State) (space : Space) (a : Word) : Byte := s.memRead space a

/-- Byte `i` from `base` on as a probe reads it inside the micro-operation that leads from `before` to
`after`: already written, or still as it was, as `isNew` says (R71, R81; log 21). -/
def tornByte (before after : State) (isNew : Nat → Bool) (space : Space) (base : Word) (i : Nat) : Byte :=
  (if isNew i then after else before).probe space (base + BitVec.ofNat 32 i)

/-- Byte `i` of `access_count` read during a CNT: "any mix of the bytes of the old and new values", as `isNew`
says byte by byte (R73, R306, U7). -/
def tornCountByte (before after : State) (isNew : Nat → Bool) (i : Nat) : Byte :=
  tornByte before after isNew .rti (countAddress before.cfg) i

/-- Byte `i` of the RuntimeInfo record read during an RTI: "some fields written and others not", in any order,
as `isNew` says byte by byte (R71, R240); a choice for whole fields is one that is constant on each four. -/
def tornRecordByte (before after : State) (isNew : Nat → Bool) (i : Nat) : Byte :=
  tornByte before after isNew .rti before.cfg.rtiBase i

/-- Byte `i` of the table that PLD or RMP writes, read when `n` of its bytes have been written: "in the order
made", ascending (R71, R147, R236). -/
def partCopiedByte (before after : State) (space : Space) (base : Word) (n i : Nat) : Byte :=
  tornByte before after (fun j => decide (j < n)) space base i

end Sys2Proof.Machine
end

