-- ==== Sys2Proof/Safety.lean ====
section
/-! DEFINITION. What a sound state and a safe run are, in the terms the statements use: the canonical form of
the memories, the frames, and the invariant of the microcode ROM's four programs (10_state R21 to R24,
44_serve_control R208 to R210). -/

namespace Sys2Proof.Machine

/-- Every memory is in canonical form. -/
structure MemoriesWf (s : State) : Prop where
  store : Memory.wf s.store = true
  fast : Memory.wf s.fast = true
  work : Memory.wf s.work = true
  rti : Memory.wf s.rti = true
  urom : Urom.wf s.urom = true

/-- Every byte of every space reads the same in both states. -/
def SameBytes (s t : State) : Prop := ∀ space a, t.memRead space a = s.memRead space a

/-- Every byte reads the same but those of one space in a run of `n` bytes from `base` on. -/
def SameBytesBut (space : Space) (base : Word) (n : Nat) (s t : State) : Prop :=
  ∀ sp a, (sp ≠ space ∨ ∀ i < n, a ≠ base + BitVec.ofNat 32 i) → t.memRead sp a = s.memRead sp a

/-- The environment resets at none of the next steps (R290). -/
def State.noReset (s : State) : Prop := ∀ x ∈ s.ticks, x = Tick.quiet

/-- `t` is a state that `k` steps from `s` lead to. -/
def State.leadsTo (s : State) (k : Nat) (t : State) : Prop := Sys2Proof.core.run k s = .next t

/-- The test of a mode's program: TALL for programs A and B, TANY for program C (R217, D41). -/
def testActive (m : ServeMode) (raw inv chk : Word) : Bool :=
  match m with
  | .twoCheck | .addrOnCs => allActive (effective raw inv chk)
  | .addrOnAnyCs => anyActive (effective raw inv chk) chk

/-- The sample `raw` is one the set's test finds active. -/
def State.activeSample (s : State) (raw : Word) : Bool := testActive s.mode.value raw s.inv.value s.chk.value

/-- The entry of the active table at an index, as LKP finds it (R190): the table's byte, or, where `PinMapOK`
fails, a free one (U6, log 10). -/
def State.tableEntry (s : State) (idx : Word) : Byte := servedByte s s.tbl.value idx

/-- `DAT` holds the table byte of a sample that the set's test found active (R210 (c)). -/
def State.servesActive (s : State) : Prop :=
  ∃ r : Word, s.activeSample r = true ∧ r < s.tlen.value ∧ s.dat = .holds ((s.tableEntry r).setWidth 32)

/-- Where `upc` stands in the program of `MODE`: its offset from the program's entry (R210, R241). -/
def State.offset (s : State) : Nat := (s.upc - entryOf s.mode.value).toNat

/-- The IDLE part of a program: offsets 0x0 to 0x3 and 0xE (R210 (b)). -/
def idleOffset (o : Nat) : Bool := o ≤ 3 || o == 0xE

/-- `TBL` after RMP: the work area, or the prebuilt table of the selected set (R147). -/
def State.remapBase (s : State) : Word :=
  if s.cfg.remapAtBoot then s.cfg.workBase else prebuiltTable s.cfg s.store s.set.value.toNat

/-- `TBL` after PLD (R236). -/
def State.tableBase (s : State) : Word := if s.cfg.fastCopy then s.cfg.fastBase else s.remapBase

/-- `set` is the configuration of the selected RomSet (R31). -/
def State.selected (s : State) (set : RomSet) : Prop := romSetAt s.cfg s.store s.set.value.toNat = .ok set

/-- `CHK` and `INV` hold values: under `PinMapOK` those of R165 to R167 (else any, U6). -/
def State.masksOf (s : State) (set : RomSet) : Prop :=
  s.chk.written = true ∧ s.inv.written = true ∧ (pinMapOK s.cfg.pm set = true →
    s.chk.value = checkMask s.cfg.pm set ∧ s.inv.value = invertMask s.cfg.pm set)

/-- The boot program is running (R242, R243): what has been written so far, and with what. -/
structure BootInv (s : State) : Prop where
  pc : s.upc.toNat ≤ 9
  pins : s.dir = 0x00
  scratch : s.raw.written = false ∧ s.eff.written = false ∧ s.dat.written = false
    ∧ s.prev.written = false ∧ s.act.written = false ∧ s.odr.written = false
  sel : 2 ≤ s.upc.toNat → s.sel = .holds (strapSelector s.cfg.pm.sel s.strap)
  set : 3 ≤ s.upc.toNat → s.set = .holds (selectedSet s.cfg (strapSelector s.cfg.pm.sel s.strap))
  table : 4 ≤ s.upc.toNat → ∃ set, s.selected set ∧ s.tlen = .holds set.tableLength
    ∧ s.tbl = .holds (if s.upc = 0x04 then s.remapBase else s.tableBase)
  mode : 7 ≤ s.upc.toNat → ∃ set, s.selected set ∧ s.mode = .holds (repairMode set).1
  masks : 8 ≤ s.upc.toNat → ∃ set, s.selected set ∧ s.masksOf set

/-- One of the programs A, B, C is running (R210): the boot program's results stand (R21, R22, R243), which
registers hold values at each offset, the pins' direction, and that what is looked up and driven belongs
to a sample found active. -/
structure ServeInv (s : State) : Prop where
  pc : s.offset < 0xF
  pins : s.dir = if idleOffset s.offset then 0x00 else 0xFF
  sel : s.sel = .holds (strapSelector s.cfg.pm.sel s.strap)
  set : s.set = .holds (selectedSet s.cfg (strapSelector s.cfg.pm.sel s.strap))
  config : ∃ set, s.selected set ∧ s.tlen = .holds set.tableLength ∧ s.tbl = .holds s.tableBase
    ∧ s.mode = .holds (repairMode set).1 ∧ s.masksOf set
  sampled : 1 ≤ s.offset → s.raw.written = true
  tested : 2 ≤ s.offset → s.act.written = true
  looked : 6 ≤ s.offset → s.dat.written = true
  latched : s.mode.value ≠ .twoCheck → 8 ≤ s.offset → s.prev.written = true
  found : s.offset ∈ (if s.mode.value = .twoCheck then [2, 8, 12] else [2, 10]) →
    s.act.value = s.activeSample s.raw.value
  active : s.offset ∈ (if s.mode.value = .twoCheck then [3, 4, 5] else [3, 4, 5, 6, 7, 11, 12]) →
    s.activeSample s.raw.value = true
  serves : s.offset ∈ (if s.mode.value = .twoCheck then [6, 7, 8, 9] else [6]) → s.servesActive

/-- The invariant of a run on the microcode ROM of R109, from reset on. In `FAULTED` only
`IndexOutOfRange` is ever recorded: no program reads a register before it is written (R24) nor reaches an
unused location (R93). -/
structure RunInv (s : State) : Prop where
  rom : s.urom = microcodeRom
  boot : s.rs = .boot → BootInv s
  serve : s.rs = .serve → ServeInv s
  bootloader : s.rs = .bootloader → s.upc = 0x00 ∧ s.dir = 0x00 ∧ s.odr.written = false
  record : ∀ f, s.faultRec = some f → ∃ r, f = .indexOutOfRange r
  faulted : s.rs = .faulted ↔ s.faultRec.isSome = true

/-- Reserved bits stay as the spec says they read: bits 4 to 31 of `WARN` (R32), bits `IN_W` and above of
`RAW` and `PREV` and bits 8 and above of `DAT` (R23). -/
structure ReservedZero (s : State) : Prop where
  warn : s.warn < 16
  raw : s.raw.written = true → s.raw.value.toNat < 2 ^ s.cfg.inW
  prev : s.prev.written = true → s.prev.value.toNat < 2 ^ s.cfg.inW
  dat : s.dat.written = true → s.dat.value < 256

end Sys2Proof.Machine
end

