-- ==== Sys2Proof/Certificates/Slice0/Obligations.lean ====
section
/-! DEFINITION. The statements for the provers: the numbered rules of spec/ that say what a micro-operation
or the machine does. OBLIGATIONS.json says for each what it formalises. The fields `samples`, `sampleCount`,
`ticks`, `freeCount`, `boots` and `trace` are the model's own: a clause that gives one of them a new value is the
model's choice (logs 4, 5, 10, 7, 19), and no rule of the spec. `State.tableEntry` is the byte that LKP finds at an
index: the active table's, or, where `PinMapOK` fails, one of which nothing is known (U6, log 10). -/

open Sys2Proof Sys2Proof.Machine

/-! ## Encoding (30_encoding) -/

/-- R90, R92: a word decodes to a micro-operation exactly when it is that micro-operation's encoding. -/
def Obligations.DecodeInvertsEncode : Prop :=
  ∀ (w : MicroWord) (i : Instr), decode w = .ok i ↔ (i.wellFormed = true ∧ w = encode i)

/-- R93: the illegal words are those whose `op` is not in the opcode map, and those of format `N` whose
bits 7:0 are not 0x00. -/
def Obligations.IllegalWordsAreThoseOutsideTheOpcodeMap : Prop :=
  ∀ w : MicroWord, (∃ e, decode w = .error e) ↔
    (w.extractLsb' 8 8).toNat ∉ [0x10, 0x11, 0x12, 0x13, 0x14, 0x15, 0x16, 0x17, 0x18, 0x20, 0x21, 0x22, 0x23,
        0x40, 0x41, 0x42, 0x43, 0x44, 0x45, 0x46, 0x47, 0x48, 0x49]
      ∨ ((w.extractLsb' 8 8).toNat ∉ [0x20, 0x21, 0x22, 0x23] ∧ w.extractLsb' 0 8 ≠ 0)

/-- 95_test_vectors §2.1: words written out from the encoding tables decode as the spec says. -/
def Obligations.SpecWordsDecode : Prop :=
  decode 0x1000 = .ok .smp ∧ decode 0x1400 = .ok .lkp ∧ decode 0x2115 = .ok (.ba 0x15)
    ∧ decode 0x2328 = .ok (.bs 0x28) ∧ decode 0x4300 = .ok .rmp ∧ decode 0x4700 = .ok .msk
    ∧ decode 0x4900 = .ok .ent ∧ decode 0x0000 = .error (.unknownOp 0x00)
    ∧ decode 0x49FF = .error (.operandNotZero 0x49 0xFF)

/-! ## One step (44_serve_control R200, 70_reset R290, 60_exceptions R263) -/

/-- R200: where the word at `upc` decodes to `i`, the step is `exec i`, after one step of the reset line has
passed (log 5). -/
def Obligations.StepRunsTheDecodedMicroOperation : Prop :=
  ∀ (s : State) (i : Instr), s.accepted → s.resetNow = none → s.rs = .boot ∨ s.rs = .serve →
    decode (uromWord s.urom s.upc) = .ok i → i.wellFormed = true →
      step s = exec i { s with ticks := s.ticks.tail }

/-- R93, R261, R262: fetching an illegal word raises `IllegalMicroOp` with `upc` and the word. -/
def Obligations.IllegalFetchRaises : Prop :=
  ∀ (s : State) (e : DecodeError), s.accepted → s.resetNow = none → s.rs = .boot ∨ s.rs = .serve →
    decode (uromWord s.urom s.upc) = .error e →
      step s = .next { s with ticks := s.ticks.tail, rs := .faulted,
                              faultRec := some (.illegalMicroOp s.upc (uromWord s.urom s.upc)) }

/-- R290, R291: a reset that coincides with a step wins; every register is without a value again, the fault
record is cleared, the written memories are unspecified again, the Image Store and the ROM are kept. -/
def Obligations.ResetWinsAndLeavesTheResetValues : Prop :=
  ∀ (s : State) (straps : Word) (rest : List Tick), s.accepted → s.ticks = .reset straps :: rest →
    ∃ t, step s = .next t ∧ t.upc = 0x00 ∧ t.rs = .boot ∧ t.warn = 0 ∧ t.dir = 0x00 ∧ t.faultRec = none
      ∧ t.chk.written = false ∧ t.inv.written = false ∧ t.tbl.written = false ∧ t.tlen.written = false
      ∧ t.raw.written = false ∧ t.eff.written = false ∧ t.dat.written = false ∧ t.prev.written = false
      ∧ t.act.written = false ∧ t.mode.written = false ∧ t.sel.written = false ∧ t.set.written = false
      ∧ t.odr.written = false ∧ t.fast = [] ∧ t.work = [] ∧ t.rti = []
      ∧ t.store = s.store ∧ t.urom = s.urom ∧ t.cfg = s.cfg ∧ t.strap = straps ∧ t.ticks = rest
      ∧ (∀ a, t.memRead .store a = s.memRead .store a)

/-- R48: the state after reset (the configuration in it is the model's choice, log 3). -/
def Obligations.ResetStateHasTheSpecsValues : Prop :=
  State.reset.upc = 0x00 ∧ State.reset.rs = .boot ∧ State.reset.warn = 0 ∧ State.reset.dir = 0x00
    ∧ State.reset.faultRec = none ∧ State.reset.urom = microcodeRom
    ∧ State.reset.chk.written = false ∧ State.reset.inv.written = false ∧ State.reset.tbl.written = false
    ∧ State.reset.tlen.written = false ∧ State.reset.raw.written = false ∧ State.reset.eff.written = false
    ∧ State.reset.dat.written = false ∧ State.reset.prev.written = false ∧ State.reset.act.written = false
    ∧ State.reset.mode.written = false ∧ State.reset.sel.written = false ∧ State.reset.set.written = false
    ∧ State.reset.odr.written = false ∧ State.reset.fast = [] ∧ State.reset.work = [] ∧ State.reset.rti = []

/-- R200: in `BOOTLOADER` and `FAULTED` the sequencer has no step; time that passes changes nothing (log 6). -/
def Obligations.StoppedSequencerHasNoStep : Prop :=
  ∀ s : State, s.accepted → s.rs = .bootloader ∨ s.rs = .faulted →
    (s.ticks = [] → step s = .fault (.sequencerStopped s.rs))
    ∧ (∀ rest, s.ticks = .quiet :: rest → step s = .next { s with ticks := rest })

/-- R263 (U8 to U10), R67, R75: a configuration with a defect has no step, and an accepted one has none of the
listed defects: sets, counts, index width, codes and images of the strap-selected set (the others are not
examined: the model's choice, log 11), and every range in use, aligned, inside 2^32 and apart from the
others. That IN_W outside the 14 to 32 of R8 is refused as well is the model's choice (log 12). -/
def Obligations.UnsoundConfigurationsAreRefused : Prop :=
  ∀ s : State,
    (∀ d, configDefect s.cfg s.store s.strap = some d → step s = .refused (.configuration d)) ∧
    (s.accepted → s.cfg.numSets ≠ 0 ∧ s.cfg.rtiBase.toNat % 4 = 0 ∧ 14 ≤ s.cfg.inW ∧ s.cfg.inW ≤ 32
      ∧ ∃ set a storeEnd, romSetAt s.cfg s.store (strappedSet s.cfg s.strap) = .ok set
        ∧ setAddr s.cfg s.store (strappedSet s.cfg s.strap) = some a
        ∧ setAddr s.cfg s.store s.cfg.numSets = some storeEnd
        ∧ 1 ≤ set.romCount ∧ set.romCount ≤ 3 ∧ set.roms.length = set.romCount
        ∧ 11 ≤ set.indexWidth ∧ set.indexWidth ≤ s.cfg.inW
        ∧ (∃ c, cellAt s.store a = some c ∧ c.toNat = set.romCount)
        ∧ (∀ i ∈ [1, 5, 6, 7, 9, 10, 11, 13, 14, 15], ∃ code, cellAt s.store (a + i) = some code ∧ code.toNat ≤ 2)
        ∧ (set.romCount ≠ 1 → ∃ code, cellAt s.store (a + 2) = some code ∧ code.toNat ≤ 2)
        ∧ (∀ k < set.romCount, ∀ i, (s.cfg.images[strappedSet s.cfg s.strap]?).bind (·[k]?) = some i →
            i.len = (set.typeAt k).size)
        ∧ (let others : List (Nat × Nat) := (s.cfg.rtiBase.toNat, 24)
              :: ((if s.cfg.fastCopy = true then [(s.cfg.fastBase.toNat, 2 ^ set.indexWidth)] else [])
                ++ (if s.cfg.remapAtBoot = true then [(s.cfg.workBase.toNat, 2 ^ set.indexWidth)] else []))
           let stored : List (Nat × Nat) := (s.cfg.storeBase.toNat, storeEnd - s.cfg.storeBase.toNat)
              :: (if s.cfg.remapAtBoot = true then s.cfg.images.flatten.map fun i => (i.addr.toNat, i.len) else [])
           (∀ r ∈ stored ++ others, r.1 + r.2 ≤ 2 ^ 32)
            ∧ others.Pairwise (fun r q => r.1 + r.2 ≤ q.1 ∨ q.1 + q.2 ≤ r.1)
            ∧ ∀ r ∈ others, ∀ q ∈ stored, r.1 + r.2 ≤ q.1 ∨ q.1 + q.2 ≤ r.1))

/-! ## The input sampler and the tests (42_serve_sample_test) -/

/-- R180: SMP puts what the input register reads into `RAW`, one read each time; the value is any
`IN_W`-bit value the bus host presents (the queue of its values is the model's choice, log 4). -/
def Obligations.SmpSamplesTheWholeInputRegister : Prop :=
  ∀ s : State, ∃ t, exec .smp s = .next t
    ∧ t = { s with raw := .holds s.inputNow, samples := s.samples.tail, sampleCount := s.sampleCount + 1,
                   trace := .readIn s.inputNow :: s.trace, upc := s.upc + 1 }
    ∧ s.inputNow.toNat < 2 ^ s.cfg.inW
    ∧ (∀ v rest, s.samples = v :: rest → v.toNat < 2 ^ s.cfg.inW → s.inputNow = v)
    ∧ SameBytes s t

/-- R181: TALL, "all must be low". -/
def Obligations.TallFindsAllLinesActive : Prop :=
  ∀ (s : State) (raw inv chk : Word), s.raw = .holds raw → s.inv = .holds inv → s.chk = .holds chk →
    ∃ t, exec .tall s = .next t
      ∧ t = { s with eff := .holds ((raw ^^^ inv) &&& chk), act := t.act, upc := s.upc + 1 }
      ∧ t.act.written = true
      ∧ (t.act.value = true ↔ ∀ i < 32, chk.getLsbD i = true → raw.getLsbD i = inv.getLsbD i)
      ∧ (t.act.value = true ↔ (raw ^^^ inv) &&& chk = 0)
      ∧ SameBytes s t

/-- R182: TANY, "any" semantics. -/
def Obligations.TanyFindsAnyLineActive : Prop :=
  ∀ (s : State) (raw inv chk : Word), s.raw = .holds raw → s.inv = .holds inv → s.chk = .holds chk →
    ∃ t, exec .tany s = .next t
      ∧ t = { s with eff := .holds ((raw ^^^ inv) &&& chk), act := t.act, upc := s.upc + 1 }
      ∧ t.act.written = true
      ∧ (t.act.value = true ↔ ∃ i < 32, chk.getLsbD i = true ∧ raw.getLsbD i = inv.getLsbD i)
      ∧ (t.act.value = true ↔ (raw ^^^ inv) &&& chk ≠ chk)
      ∧ SameBytes s t

/-- R183: LAT copies the whole sample into `PREV`. -/
def Obligations.LatRemembersTheSample : Prop :=
  ∀ (s : State) (raw : Word), s.raw = .holds raw →
    ∃ t, exec .lat s = .next t ∧ t = { s with prev := .holds raw, upc := s.upc + 1 } ∧ SameBytes s t

/-- R184: for one sample and one pair of masks, TALL's active implies TANY's when `CHK != 0`; with a one-bit
`CHK` the two agree; with two or more bits the converse fails for some sample. -/
def Obligations.TallActiveImpliesTanyActive : Prop :=
  ∀ inv chk : Word,
    (chk ≠ 0 → ∀ raw, testActive .twoCheck raw inv chk = true → testActive .addrOnAnyCs raw inv chk = true)
    ∧ (∀ p < 32, chk = bitWord p →
        ∀ raw, testActive .twoCheck raw inv chk = testActive .addrOnAnyCs raw inv chk)
    ∧ (∀ p q, p < 32 → q < 32 → p ≠ q → chk.getLsbD p = true → chk.getLsbD q = true →
        ∃ raw, testActive .addrOnAnyCs raw inv chk = true ∧ testActive .twoCheck raw inv chk = false)

/-! ## Lookup and drive (43_serve_lookup_drive) -/

/-- R190: LKP reads the table byte at the whole sample, unshifted and unmasked. Where `PinMapOK` fails all else
happens, but nothing is said of the byte (U6, log 10). -/
def Obligations.LkpReadsTheTableAtTheRawSample : Prop :=
  ∀ (s : State) (raw tlen tbl : Word), s.raw = .holds raw → s.tlen = .holds tlen → s.tbl = .holds tbl →
    raw.toNat < tlen.toNat →
    ∃ (t : State) (b : Byte), exec .lkp s = .next t
      ∧ t = { s with dat := .holds (b.setWidth 32), upc := s.upc + 1 }
      ∧ (s.pinMapFails = false →
          b = s.memRead (if s.cfg.fastCopy then .fast else if s.cfg.remapAtBoot then .work else .store) (tbl + raw))
      ∧ SameBytes s t

/-- R190, R262: a sample at or above `TLEN` raises `IndexOutOfRange`, and nothing else changes. -/
def Obligations.LkpOutsideTheTableRaises : Prop :=
  ∀ (s : State) (raw tlen : Word), s.raw = .holds raw → s.tlen = .holds tlen → tlen.toNat ≤ raw.toNat →
    ∃ t, exec .lkp s = .next t
      ∧ t = { s with rs := .faulted, faultRec := some (.indexOutOfRange raw) } ∧ SameBytes s t

/-- R191: DRV stores bits 7:0 of `DAT` to the data port, every time; the pins that are outputs show it. -/
def Obligations.DrvStoresTheByte : Prop :=
  ∀ (s : State) (dat : Word), s.dat = .holds dat →
    ∃ t, exec .drv s = .next t
      ∧ t = { s with odr := .holds (dat.extractLsb' 0 8), trace := .writeOdr (dat.extractLsb' 0 8) :: s.trace,
                     upc := s.upc + 1 }
      ∧ (∀ obs (q : Fin 8), t.pin obs q = if s.dir.getLsbD q.val then .driven (dat.getLsbD q.val) else .z)
      ∧ SameBytes s t

/-- R192: OEN makes all 8 data pins outputs in one write; they carry `ODR`, or any byte while it holds no
value (U4). -/
def Obligations.OenEnablesAllDataPins : Prop :=
  ∀ s : State, ∃ t, exec .oen s = .next t
    ∧ t = { s with dir := 0xFF, trace := .writeDir 0xFF :: s.trace, upc := s.upc + 1 }
    ∧ (∀ obs (q : Fin 8), ∃ level, t.pin obs q = .driven level
        ∧ (s.odr.written = true → level = s.odr.value.getLsbD q.val))
    ∧ SameBytes s t

/-- R193: ODS makes all 8 data pins inputs in one write; `ODR` is unchanged. -/
def Obligations.OdsReleasesAllDataPins : Prop :=
  ∀ s : State, ∃ t, exec .ods s = .next t
    ∧ t = { s with dir := 0x00, trace := .writeDir 0x00 :: s.trace, upc := s.upc + 1 }
    ∧ (∀ obs (q : Fin 8), t.pin obs q = .z)
    ∧ SameBytes s t

/-- R194: CNT adds one, modulo 2^32, to the little-endian (PRESUMED, log 16) counter of the RuntimeInfo record
when `COUNT_EN`, and does nothing at all otherwise. A probe inside it sees of each byte the old or the new (R73). -/
def Obligations.CntCountsOneAccess : Prop :=
  ∀ s : State, ∃ t, exec .cnt s = .next t
    ∧ (s.cfg.countEn = true →
        t = { s with rti := t.rti, trace := .writeCount (s.memReadWord .rti (s.cfg.rtiBase + 12) + 1) :: s.trace,
                     upc := s.upc + 1 }
        ∧ t.memReadWord .rti (s.cfg.rtiBase + 12) = s.memReadWord .rti (s.cfg.rtiBase + 12) + 1
        ∧ (∀ (isNew : Nat → Bool) i, tornCountByte s t isNew i
            = (if isNew i then t else s).memRead .rti (s.cfg.rtiBase + 12 + BitVec.ofNat 32 i))
        ∧ SameBytesBut .rti (s.cfg.rtiBase + 12) 4 s t)
    ∧ (s.cfg.countEn = false → t = { s with upc := s.upc + 1 } ∧ SameBytes s t)

/-! ## Control transfer (44_serve_control_algorithms R201 to R204) -/

/-- R201: JMP. -/
def Obligations.JmpSetsTheMicroProgramCounter : Prop :=
  ∀ (s : State) (tgt : UAddr), ∃ t, exec (.jmp tgt) s = .next t ∧ t = { s with upc := tgt } ∧ SameBytes s t

/-- R202: BA. -/
def Obligations.BaBranchesWhenActive : Prop :=
  ∀ (s : State) (tgt : UAddr) (act : Bool), s.act = .holds act →
    ∃ t, exec (.ba tgt) s = .next t ∧ t = { s with upc := if act = true then tgt else s.upc + 1 } ∧ SameBytes s t

/-- R203: BI. -/
def Obligations.BiBranchesWhenInactive : Prop :=
  ∀ (s : State) (tgt : UAddr) (act : Bool), s.act = .holds act →
    ∃ t, exec (.bi tgt) s = .next t ∧ t = { s with upc := if act = false then tgt else s.upc + 1 } ∧ SameBytes s t

/-- R204: BS compares all 32 bits of `RAW` and `PREV`. -/
def Obligations.BsBranchesWhenTheSampleIsTheSame : Prop :=
  ∀ (s : State) (tgt : UAddr) (raw prev : Word), s.raw = .holds raw → s.prev = .holds prev →
    ∃ t, exec (.bs tgt) s = .next t ∧ t = { s with upc := if raw = prev then tgt else s.upc + 1 } ∧ SameBytes s t

/-! ## Boot (45_preload_boot, 41_selector, 40_remapper) -/

/-- R231: BCHK enters the bootloader exactly when there are boot pins and all of them read 1. -/
def Obligations.BchkEntersTheBootloaderOnAllHigh : Prop :=
  ∀ s : State, ∃ t, exec .bchk s = .next t
    ∧ ((s.cfg.pm.boot ≠ [] ∧ ∀ p ∈ s.cfg.pm.boot, s.strap.getLsbD p.val = true) →
        t = { s with rs := .bootloader, trace := .readStrap s.strap :: s.trace })
    ∧ (¬ (s.cfg.pm.boot ≠ [] ∧ ∀ p ∈ s.cfg.pm.boot, s.strap.getLsbD p.val = true) →
        t = { s with trace := .readStrap s.strap :: s.trace, upc := s.upc + 1 })
    ∧ SameBytes s t

/-- R233: bit `i` of `SEL` is the level of `sel_pin(i)`, the other bits are 0. -/
def Obligations.StrapReadsTheSelector : Prop :=
  ∀ s : State, ∃ t sel, exec .strap s = .next t
    ∧ t = { s with sel := .holds sel, trace := .readStrap s.strap :: s.trace, upc := s.upc + 1 }
    ∧ (∀ i < 32, sel.getLsbD i = ((s.cfg.pm.sel[i]?).map fun p => s.strap.getLsbD p.val).getD false)
    ∧ sel.toNat < 2 ^ s.cfg.pm.sel.length
    ∧ SameBytes s t

/-- R234, R235: `SET <- SEL mod NUM_SETS`, with no warning; `NUM_SETS == 0` is refused (U8). -/
def Obligations.SsetWrapsTheSelector : Prop :=
  ∀ (s : State) (sel : Word), s.sel = .holds sel →
    (s.cfg.numSets ≠ 0 → ∃ t n, exec .sset s = .next t ∧ t = { s with set := .holds n, upc := s.upc + 1 }
      ∧ n.toNat = sel.toNat % s.cfg.numSets ∧ n.toNat < s.cfg.numSets ∧ SameBytes s t)
    ∧ (s.cfg.numSets = 0 → exec .sset s = .refused (.configuration .noSets))

/-- R147, R141, R142: without `REMAP_AT_BOOT`, RMP points `TBL` at the prebuilt table behind the set's header;
with it, RMP builds the table in the work area, entry by entry `remap_ref`'s (where `PinMapOK` fails the
entries are free, U6, log 10; an image byte that nothing places is free, log 22), and no other byte changes. -/
def Obligations.RmpProvidesTheTable : Prop :=
  ∀ (s : State) (set : RomSet) (n : Word), s.set = .holds n → romSetAt s.cfg s.store n.toNat = .ok set →
    ∃ t, exec .rmp s = .next t
      ∧ (s.cfg.remapAtBoot = false → SameBytes s t ∧ ∃ a, setAddr s.cfg s.store n.toNat = some a
        ∧ t = { s with tlen := .holds (BitVec.ofNat 32 (2 ^ set.indexWidth)),
                       tbl := .holds (BitVec.ofNat 32 (a + 16)), upc := s.upc + 1 })
      ∧ (s.cfg.remapAtBoot = true →
        t = { s with work := t.work, tlen := .holds (BitVec.ofNat 32 (2 ^ set.indexWidth)),
                     tbl := .holds s.cfg.workBase, freeCount := t.freeCount, upc := s.upc + 1 }
        ∧ (pinMapOK s.cfg.pm set = true → t.freeCount = s.freeCount
            ∧ ∀ idx < (BitVec.ofNat 32 (2 ^ set.indexWidth)).toNat,
              t.memRead .work (s.cfg.workBase + BitVec.ofNat 32 idx)
                = remapRef s.cfg.pm set (logicalImage s n.toNat) idx)
        ∧ SameBytesBut .work s.cfg.workBase (BitVec.ofNat 32 (2 ^ set.indexWidth)).toNat s t)

/-- R236: with `FAST_COPY`, PLD copies `TLEN` bytes linearly into `FAST` and `TBL` becomes `FAST_BASE`; without
it PLD changes nothing. That it reads `SET` at all is R30's (log 28); the value decides nothing. -/
def Obligations.PldCopiesTheTableOrChangesNothing : Prop :=
  ∀ s : State,
    (∀ set tbl tlen : Word, s.set = .holds set → s.tbl = .holds tbl → s.tlen = .holds tlen → s.cfg.fastCopy = true →
      ∃ t, exec .pld s = .next t
        ∧ t = { s with fast := t.fast, tbl := .holds s.cfg.fastBase, upc := s.upc + 1 }
        ∧ (∀ i < tlen.toNat, t.memRead .fast (s.cfg.fastBase + BitVec.ofNat 32 i)
            = s.memRead (if s.cfg.remapAtBoot then .work else .store) (tbl + BitVec.ofNat 32 i))
        ∧ SameBytesBut .fast s.cfg.fastBase tlen.toNat s t)
    ∧ (s.cfg.fastCopy = false → ∃ t, exec .pld s = .next t ∧ t = { s with upc := s.upc + 1 } ∧ SameBytes s t)

/-- R160: PCK sets `W_PINMAP` where `PinMapOK` fails, and changes nothing else. -/
def Obligations.PckOnlyWarns : Prop :=
  ∀ (s : State) (set : RomSet) (n : Word), s.set = .holds n → romSetAt s.cfg s.store n.toNat = .ok set →
    ∃ t, exec .pck s = .next t
      ∧ t = { s with warn := if pinMapOK s.cfg.pm set = true then s.warn else s.warn ||| 8, upc := s.upc + 1 }
      ∧ SameBytes s t

/-- R162: RPR forces `ADDR_ON_ANY_CS` on a multi-ROM set and resets a single-ROM set to the default mode,
each with its warning; any other mode is kept. -/
def Obligations.RprRepairsTheMode : Prop :=
  ∀ (s : State) (set : RomSet) (n : Word), s.set = .holds n → romSetAt s.cfg s.store n.toNat = .ok set →
    ∃ t m w, exec .rpr s = .next t
      ∧ t = { s with mode := .holds m, warn := s.warn ||| w, upc := s.upc + 1 }
      ∧ (set.romCount > 1 → set.serveMode ≠ .addrOnAnyCs → m = .addrOnAnyCs ∧ w = 1)
      ∧ (set.romCount = 1 → set.serveMode = .addrOnAnyCs → m = .twoCheck ∧ w = 2)
      ∧ (¬ (set.romCount > 1 ∧ set.serveMode ≠ .addrOnAnyCs) → ¬ (set.romCount = 1 ∧ set.serveMode = .addrOnAnyCs) →
          m = set.serveMode ∧ w = 0)
      ∧ SameBytes s t

/-- R163: after RPR, `MODE` is `ADDR_ON_ANY_CS` exactly for a multi-ROM set, and a repair is logged. -/
def Obligations.RepairedModeFitsTheRomCount : Prop :=
  ∀ (s t : State) (set : RomSet) (n : Word), s.set = .holds n → romSetAt s.cfg s.store n.toNat = .ok set →
    exec .rpr s = .next t →
    (t.mode.value = .addrOnAnyCs ↔ set.romCount > 1)
      ∧ (set.romCount > 1 → set.serveMode ≠ .addrOnAnyCs → t.warn.getLsbD 0 = true)
      ∧ (set.romCount = 1 → set.serveMode = .addrOnAnyCs → t.warn.getLsbD 1 = true)

/-- R164 to R167, bit by bit: a bit of `CHK` is a select line of the set, and of `INV` one whose polarity is
active-high; the warning is for an unrecognised type of a single-ROM set. Where `PinMapOK` fails MSK still
runs and all else happens, but nothing is said of the two masks (U6, log 10). -/
def Obligations.MskDerivesTheMasks : Prop :=
  ∀ (s : State) (set : RomSet) (n : Word), s.set = .holds n → romSetAt s.cfg s.store n.toNat = .ok set →
    ∃ t chk inv, exec .msk s = .next t
      ∧ t = { s with chk := .holds chk, inv := .holds inv, warn := t.warn, freeCount := t.freeCount, upc := s.upc + 1 }
      ∧ (pinMapOK s.cfg.pm set = true → t.freeCount = s.freeCount
        ∧ (∀ p < 32, chk.getLsbD p = true ↔ ∃ l ∈ selectLines s.cfg.pm set, linePos l.line = p)
        ∧ (∀ p < 32, inv.getLsbD p = true ↔
            ∃ l ∈ selectLines s.cfg.pm set, linePos l.line = p ∧ l.pol = .activeHigh))
      ∧ t.warn = (if set.romCount = 1 ∧ ∃ d, set.roms[0]? = some d ∧ 3 ≤ d.typeCode.toNat then s.warn ||| 4 else s.warn)
      ∧ SameBytes s t

/-- R44, R165, R167: the select lines of a set, its check and invert polarity. -/
def Obligations.SelectLinesOfASet : Prop :=
  ∀ (pm : PinMap) (set : RomSet) (d : RomDesc), set.roms[0]? = some d →
    (set.romCount = 1 → d.effType = .r2364 → selectLines pm set = [⟨pm.cs2364[0], d.pol1⟩])
    ∧ (set.romCount = 1 → d.effType = .r2332 →
        selectLines pm set = [⟨pm.cs2332[0], d.pol1⟩, ⟨pm.cs2332[1], d.pol2⟩])
    ∧ (set.romCount = 1 → d.effType = .r2316 →
        selectLines pm set = [⟨pm.cs2316[0], d.pol1⟩, ⟨pm.cs2316[1], d.pol2⟩, ⟨pm.cs2316[2], d.pol3⟩])
    ∧ (set.romCount = 2 → ∃ cs1, (csLines pm d.effType)[0]? = some cs1
        ∧ selectLines pm set = [⟨cs1, set.multiPol⟩, ⟨pm.x1, set.multiPol⟩])
    ∧ (set.romCount = 3 → ∃ cs1, (csLines pm d.effType)[0]? = some cs1
        ∧ selectLines pm set = [⟨cs1, set.multiPol⟩, ⟨pm.x1, set.multiPol⟩, ⟨pm.x2, set.multiPol⟩])

/-- R240, R105: RTI writes the 24-byte record, little-endian (PRESUMED, log 16), and no other byte. A probe
inside it sees of each byte the old or the new (R71). -/
def Obligations.RtiWritesTheRecord : Prop :=
  ∀ (s : State) (set tbl tlen : Word), s.set = .holds set → s.tbl = .holds tbl → s.tlen = .holds tlen →
    ∃ t, exec .rti s = .next t ∧ t = { s with rti := t.rti, upc := s.upc + 1 }
      ∧ (∀ i : Fin 4, t.memRead .rti (s.cfg.rtiBase + BitVec.ofNat 32 i.val) = s.cfg.magic[i.val])
      ∧ t.memReadWord .rti (s.cfg.rtiBase + 4) = 24
      ∧ t.memReadWord .rti (s.cfg.rtiBase + 8) = set
      ∧ t.memReadWord .rti (s.cfg.rtiBase + 12) = 0
      ∧ t.memReadWord .rti (s.cfg.rtiBase + 16) = tbl
      ∧ t.memReadWord .rti (s.cfg.rtiBase + 20) = tlen
      ∧ (∀ (isNew : Nat → Bool) i, tornRecordByte s t isNew i
          = (if isNew i then t else s).memRead .rti (s.cfg.rtiBase + BitVec.ofNat 32 i))
      ∧ SameBytesBut .rti s.cfg.rtiBase 24 s t

/-- R241: ENT releases the pins, enters `SERVE` and goes to the program of `MODE`. -/
def Obligations.EntDispatchesOnTheMode : Prop :=
  ∀ (s : State) (m : ServeMode), s.mode = .holds m →
    ∃ t, exec .ent s = .next t
      ∧ t = { s with dir := 0x00, rs := .serve, trace := .writeDir 0x00 :: s.trace,
                     upc := match m with
                       | .twoCheck => 0x10
                       | .addrOnCs => 0x20
                       | .addrOnAnyCs => 0x30 }
      ∧ SameBytes s t

/-- R24, R261, R262: a micro-operation that reads a register holding no value raises `UnwrittenRead` with its
name, and has no other effect (the order of the reads is log 9, PLD's read of `SET` log 28). -/
def Obligations.ReadingAnUnwrittenRegisterRaises : Prop :=
  ∀ (s : State) (tgt : UAddr),
    let raised := fun r : RegName =>
      Host.Outcome.next (φ := Fault) (ρ := Refusal) { s with rs := .faulted, faultRec := some (.unwrittenRead r) }
    (s.raw.written = false → exec .tall s = raised .raw ∧ exec .tany s = raised .raw ∧ exec .lat s = raised .raw
      ∧ exec .lkp s = raised .raw ∧ exec (.bs tgt) s = raised .raw)
    ∧ (s.raw.written = true → s.inv.written = false → exec .tall s = raised .inv ∧ exec .tany s = raised .inv)
    ∧ (s.raw.written = true → s.inv.written = true → s.chk.written = false →
        exec .tall s = raised .chk ∧ exec .tany s = raised .chk)
    ∧ (s.raw.written = true → s.tlen.written = false → exec .lkp s = raised .tlen)
    ∧ (s.raw.written = true → s.tlen.written = true → s.raw.value < s.tlen.value → s.tbl.written = false →
        exec .lkp s = raised .tbl)
    ∧ (s.raw.written = true → s.prev.written = false → exec (.bs tgt) s = raised .prev)
    ∧ (s.act.written = false → exec (.ba tgt) s = raised .act ∧ exec (.bi tgt) s = raised .act)
    ∧ (s.dat.written = false → exec .drv s = raised .dat)
    ∧ (s.sel.written = false → exec .sset s = raised .sel)
    ∧ (s.set.written = false → exec .rmp s = raised .set ∧ exec .pck s = raised .set ∧ exec .rpr s = raised .set
        ∧ exec .msk s = raised .set ∧ exec .rti s = raised .set)
    ∧ (s.set.written = true → s.tbl.written = false → exec .rti s = raised .tbl)
    ∧ (s.set.written = true → s.tbl.written = true → s.tlen.written = false → exec .rti s = raised .tlen)
    ∧ (s.cfg.fastCopy = true → s.set.written = false → exec .pld s = raised .set)
    ∧ (s.cfg.fastCopy = true → s.set.written = true → s.tlen.written = false → exec .pld s = raised .tlen)
    ∧ (s.cfg.fastCopy = true → s.set.written = true → s.tlen.written = true → s.tbl.written = false →
        exec .pld s = raised .tbl)
    ∧ (s.mode.written = false → exec .ent s = raised .mode)

/-! ## Rules over all micro-operations -/

/-- R20, R26 to R30, R32, R34, R35, R262: every register is written by the micro-operations the spec names
for it and by no other; `RS` by ENT, by BCHK, and by `raise`, which alone writes the fault record. (`upc`, which
every micro-operation may write, is `OnlyTransfersLeaveTheNextAddress`.) -/
def Obligations.EachRegisterHasItsOwnWriters : Prop :=
  ∀ (i : Instr) (s t : State), exec i s = .next t →
    (i ∉ [.msk] → t.chk = s.chk ∧ t.inv = s.inv)
    ∧ (i ∉ [.rmp, .pld] → t.tbl = s.tbl)
    ∧ (i ∉ [.rmp] → t.tlen = s.tlen)
    ∧ (i ∉ [.smp] → t.raw = s.raw)
    ∧ (i ∉ [.tall, .tany] → t.eff = s.eff ∧ t.act = s.act)
    ∧ (i ∉ [.lkp] → t.dat = s.dat)
    ∧ (i ∉ [.lat] → t.prev = s.prev)
    ∧ (i ∉ [.rpr] → t.mode = s.mode)
    ∧ (i ∉ [.strap] → t.sel = s.sel)
    ∧ (i ∉ [.sset] → t.set = s.set)
    ∧ (i ∉ [.pck, .rpr, .msk] → t.warn = s.warn)
    ∧ (i ∉ [.drv] → t.odr = s.odr)
    ∧ (i ∉ [.oen, .ods, .ent] → t.dir = s.dir)
    ∧ (t.rs = s.rs ∨ (i = .ent ∧ t.rs = .serve) ∨ (i = .bchk ∧ t.rs = .bootloader)
        ∨ (t.rs = .faulted ∧ t.faultRec.isSome = true))
    ∧ (t.faultRec = s.faultRec ∨ t.rs = .faulted)

/-- R60 to R64, R79: the Image Store, the microcode ROM and the configuration are written by nothing; `FAST`
only by PLD with `FAST_COPY`, `WORK` only by RMP with `REMAP_AT_BOOT`, `RTI` only by RTI and CNT. -/
def Obligations.EachSpaceHasItsOwnWriters : Prop :=
  ∀ (i : Instr) (s t : State), exec i s = .next t →
    t.cfg = s.cfg ∧ t.urom = s.urom ∧ t.strap = s.strap
    ∧ (∀ a, t.memRead .store a = s.memRead .store a)
    ∧ (¬ (i = .pld ∧ s.cfg.fastCopy = true) → ∀ a, t.memRead .fast a = s.memRead .fast a)
    ∧ (¬ (i = .rmp ∧ s.cfg.remapAtBoot = true) → ∀ a, t.memRead .work a = s.memRead .work a)
    ∧ (¬ (i = .rti ∨ (i = .cnt ∧ s.cfg.countEn = true)) → ∀ a, t.memRead .rti a = s.memRead .rti a)

/-- R25, R27: apart from the jumps, ENT, BCHK entering the bootloader and a faulting micro-operation, every
micro-operation advances `upc` by one modulo 256 and keeps the run state. -/
def Obligations.OnlyTransfersLeaveTheNextAddress : Prop :=
  ∀ (i : Instr) (s t : State), exec i s = .next t → s.rs = .boot ∨ s.rs = .serve →
    (t.rs = .faulted ∧ t.upc = s.upc)
    ∨ (i = .ent ∧ t.rs = .serve)
    ∨ (i = .bchk ∧ t.rs = .bootloader ∧ t.upc = s.upc)
    ∨ ((∃ tgt, (i = .jmp tgt ∨ i = .ba tgt ∨ i = .bi tgt ∨ i = .bs tgt) ∧ t.upc ∈ [tgt, s.upc + 1]) ∧ t.rs = s.rs)
    ∨ (t.upc.toNat = (s.upc.toNat + 1) % 256 ∧ t.rs = s.rs)

/-- R262, R266: a model fault is precise: the faulting micro-operation changes the run state and the record,
and nothing else. -/
def Obligations.ModelFaultsArePrecise : Prop :=
  ∀ (i : Instr) (s t : State), exec i s = .next t → s.rs ≠ .faulted → t.rs = .faulted →
    ∃ f, t = { s with rs := .faulted, faultRec := some f }
      ∧ (f = .indexOutOfRange s.raw.value ∧ i = .lkp ∨ ∃ r, f = .unwrittenRead r)

/-- R70, R71: a step performs at most one port access or counter write, and none is taken back. -/
def Obligations.OneAccessAStep : Prop :=
  ∀ s t : State, step s = .next t → t.trace = s.trace ∨ ∃ a, t.trace = a :: s.trace

/-! ## Invariants -/

/-- 20_memory R60, log 7: every step keeps the canonical form of all memories. -/
def Obligations.StepKeepsTheMemoriesCanonical : Prop :=
  ∀ s t : State, MemoriesWf s → step s = .next t → MemoriesWf t

/-- R23, R32: every step keeps the reserved bits at 0. -/
def Obligations.StepKeepsReservedBitsZero : Prop :=
  ∀ s t : State, ReservedZero s → step s = .next t → ReservedZero t

/-- R32: warnings are sticky: only a reset clears a bit of `WARN`. -/
def Obligations.WarningsAreSticky : Prop :=
  ∀ s t : State, step s = .next t → s.resetNow = none → s.warn &&& t.warn = s.warn

/-- R24, R93, R210, R243: the invariant of the microcode ROM's four programs is kept by every step, resets and
faults included. -/
def Obligations.StepKeepsTheProgramInvariant : Prop :=
  ∀ s t : State, RunInv s → step s = .next t → RunInv t

/-- The program invariant, the canonical memories and the reserved bits hold at reset (tier 1). -/
def Obligations.ResetMeetsTheInvariants : Prop :=
  RunInv State.reset ∧ MemoriesWf State.reset ∧ ReservedZero State.reset

/-- R14, R161, R221: under the program invariant no step of a running, accepted block is refused or stops: it
answers a next state, and the only model fault it can raise is LKP's `IndexOutOfRange`. -/
def Obligations.TheBlockNeverHalts : Prop :=
  ∀ s : State, RunInv s → s.accepted → s.rs = .boot ∨ s.rs = .serve →
    ∃ t, step s = .next t ∧ (t.rs = .faulted →
      decode s.fetched = .ok .lkp ∧ s.tlen.value ≤ s.raw.value ∧ t.faultRec = some (.indexOutOfRange s.raw.value))

/-- R21, R22, R74, R210 (d), (e): while serving, a step that is no reset leaves the masks, the table pointer
and length, the mode, the set and every byte of the table as they are, and the run state but for a fault. -/
def Obligations.ServingChangesNoConfiguration : Prop :=
  ∀ s t : State, RunInv s → s.rs = .serve → s.resetNow = none → step s = .next t →
    t.chk = s.chk ∧ t.inv = s.inv ∧ t.tbl = s.tbl ∧ t.tlen = s.tlen ∧ t.mode = s.mode ∧ t.set = s.set
      ∧ t.sel = s.sel ∧ (∀ a, t.memRead (tableSpace t.cfg) a = s.memRead (tableSpace s.cfg) a)
      ∧ (t.rs = .serve ∨ t.rs = .faulted)

/-! ## The remapper and the selector (40_remapper, 41_selector) -/

/-- R136: under `PinMapOK` the byte permutation and its inverse undo each other, and a mangled address reads
back as the address, whatever the select lines are and whatever else stands at positions that are no address
positions of the type. -/
def Obligations.RemappingIsInvertible : Prop :=
  ∀ (pm : PinMap) (set : RomSet), pinMapOK pm set = true →
    (∀ b, demangleByte pm (remapByte pm b) = b) ∧ (∀ r, remapByte pm (demangleByte pm r) = r)
    ∧ ∀ k < set.romCount, ∀ a < (set.typeAt k).size,
        logicalAddress pm (set.typeAt k) (mangleAddr pm (set.typeAt k) a) = a
        ∧ ∀ lv dc, (∀ p ∈ addrPositions pm (set.typeAt k), dc.testBit p = false) →
            logicalAddress pm (set.typeAt k) (mangle pm set (set.typeAt k) a lv ||| dc) = a

/-- R138, R139, R141, R142: the reference construction is a correct table. -/
def Obligations.ReferenceTableIsCorrect : Prop :=
  ∀ (pm : PinMap) (set : RomSet) (img : Nat → Nat → Byte), pinMapOK pm set = true →
    TableOK pm set img (remapRef pm set img)

/-- R140: "accessing any don't-care combination of that bit yields the same byte": two indices that select
the same one ROM and agree on its address bits hold the same byte in a correct table. -/
def Obligations.DontCareBitsYieldTheSameByte : Prop :=
  ∀ (pm : PinMap) (set : RomSet) (img : Nat → Nat → Byte) (table : Nat → Byte) (idx jdx k : Nat),
    pinMapOK pm set = true → TableOK pm set img table → idx < 2 ^ set.indexWidth → jdx < 2 ^ set.indexWidth →
    selectedRoms pm set idx = [k] → selectedRoms pm set jdx = [k] →
    (∀ p ∈ addrPositions pm (set.typeAt k), idx.testBit p = jdx.testBit p) → table idx = table jdx

/-- R169: with the masks of R165 to R167, the bit of a select line in `(raw ^ INV) & CHK` is 0 exactly when the
line is at its active level; hence a sample is found active exactly when all select lines (single ROM, TALL) or
at least one (multi-ROM, TANY) are at their active level. -/
def Obligations.MasksNormaliseThePolarities : Prop :=
  ∀ (pm : PinMap) (set : RomSet) (raw : Word), pinMapOK pm set = true → set.romCount ≥ 1 →
    (∀ l ∈ selectLines pm set, (effective raw (invertMask pm set) (checkMask pm set)).getLsbD (linePos l.line) = false
        ↔ l.asserted raw.toNat = true)
    ∧ (set.romCount = 1 → (testActive .twoCheck raw (invertMask pm set) (checkMask pm set) = true
        ↔ ∀ l ∈ selectLines pm set, l.asserted raw.toNat = true))
    ∧ (set.romCount > 1 → (testActive .addrOnAnyCs raw (invertMask pm set) (checkMask pm set) = true
        ↔ ∃ l ∈ selectLines pm set, l.asserted raw.toNat = true))

/-- R144: with a correct table, an `LKP; DRV` on a sample that selects exactly one ROM puts that ROM's byte at
the sampled address on the logical data lines. -/
def Obligations.ServedByteIsTheRomsByte : Prop :=
  ∀ (s : State) (set : RomSet) (img : Nat → Nat → Byte) (n raw tbl : Word) (k : Nat),
    pinMapOK s.cfg.pm set = true → s.set = .holds n → romSetAt s.cfg s.store n.toNat = .ok set →
    s.raw = .holds raw → s.tbl = .holds tbl → s.tlen = .holds (BitVec.ofNat 32 (2 ^ set.indexWidth)) → set.indexWidth < 32 →
    TableOK s.cfg.pm set img (fun i => s.memRead (tableSpace s.cfg) (tbl + BitVec.ofNat 32 i)) →
    raw.toNat < 2 ^ set.indexWidth → selectedRoms s.cfg.pm set raw.toNat = [k] → s.dir = 0xFF →
    ∃ t u, exec .lkp s = .next t ∧ exec .drv t = .next u
      ∧ ∀ obs, u.hostByte obs = some (img k (logicalAddress s.cfg.pm (set.typeAt k) raw.toNat))

/-! ## The serve loop and the boot program, in steps (44_serve_control R208, R209, R219; 45_preload_boot R243) -/

/-- R243: from the reset address the boot program ends in `SERVE` after ten steps, unless it entered the
bootloader: the set of the straps, its mode and masks, a complete table where `TBL` points (that of the Image
Store, or, with `REMAP_AT_BOOT` and under `PinMapOK`, `remap_ref`), the whole record, no sample taken. -/
def Obligations.BootProgramReachesTheServeLoop : Prop :=
  ∀ s : State, RunInv s → s.accepted → s.noReset → s.rs = .boot → s.upc = 0x00 →
    ¬ (s.cfg.pm.boot ≠ [] ∧ ∀ p ∈ s.cfg.pm.boot, s.strap.getLsbD p.val = true) →
    ∃ (t : State) (set : RomSet), s.leadsTo 10 t ∧ t.rs = .serve ∧ t.dir = 0x00
      ∧ t.set.value.toNat = t.sel.value.toNat % s.cfg.numSets
      ∧ romSetAt s.cfg s.store t.set.value.toNat = .ok set
      ∧ t.mode = .holds (repairMode set).1 ∧ t.upc = entryOf (repairMode set).1
      ∧ t.tlen = .holds (BitVec.ofNat 32 (2 ^ set.indexWidth)) ∧ t.tbl = .holds t.tableBase
      ∧ (∀ idx < 2 ^ set.indexWidth,
          (s.cfg.remapAtBoot = false → t.memRead (tableSpace s.cfg) (t.tableBase + BitVec.ofNat 32 idx)
            = s.memRead .store (prebuiltTable s.cfg s.store t.set.value.toNat + BitVec.ofNat 32 idx))
          ∧ (s.cfg.remapAtBoot = true → pinMapOK s.cfg.pm set = true →
            t.memRead (tableSpace s.cfg) (t.tableBase + BitVec.ofNat 32 idx)
              = remapRef s.cfg.pm set (logicalImage s t.set.value.toNat) idx))
      ∧ t.masksOf set
      ∧ (∀ i : Fin 4, t.memRead .rti (s.cfg.rtiBase + BitVec.ofNat 32 i.val) = s.cfg.magic[i.val])
      ∧ t.memReadWord .rti (s.cfg.rtiBase + 4) = 24
      ∧ t.memReadWord .rti (s.cfg.rtiBase + 8) = t.set.value
      ∧ t.memReadWord .rti (s.cfg.rtiBase + 12) = 0
      ∧ t.memReadWord .rti (s.cfg.rtiBase + 16) = t.tableBase
      ∧ t.memReadWord .rti (s.cfg.rtiBase + 20) = BitVec.ofNat 32 (2 ^ set.indexWidth)
      ∧ t.warn = s.warn ||| (if pinMapOK s.cfg.pm set = true then 0 else 8) ||| (repairMode set).2 ||| romTypeWarning set
      ∧ t.raw.written = false ∧ t.eff.written = false ∧ t.dat.written = false ∧ t.prev.written = false
      ∧ t.act.written = false ∧ t.odr.written = false

/-- R206, R208, R219: in IDLE, at a sample found active the pins become outputs three micro-operations after
the SMP, the sample and the switch being the only accesses; at one found inactive the pins stay inputs and
the loop is back at its SMP, with `ODR` kept and the sample the only access. -/
def Obligations.IdleAnswersASample : Prop :=
  ∀ s : State, RunInv s → s.accepted → s.noReset → s.rs = .serve → s.offset = 0 →
    (s.activeSample s.inputNow = true →
      ∃ t, s.leadsTo 4 t ∧ t.dir = 0xFF ∧ t.odr = s.odr ∧ t.rs = .serve ∧ t.offset = 4
        ∧ t.trace = .writeDir 0xFF :: .readIn s.inputNow :: s.trace)
    ∧ (s.activeSample s.inputNow = false →
      ∃ t, s.leadsTo 3 t ∧ t.dir = 0x00 ∧ t.odr = s.odr ∧ t.rs = .serve ∧ t.upc = s.upc
        ∧ t.trace = .readIn s.inputNow :: s.trace)

/-- R209, R219: in SERVING, the first sample found inactive releases the pins within three micro-operations
after the SMP, with no other access between, in all three programs. -/
def Obligations.InactiveSampleReleasesThePins : Prop :=
  ∀ s : State, RunInv s → s.accepted → s.noReset → s.rs = .serve →
    s.offset ∈ (if s.mode.value = .twoCheck then [0x6, 0xA] else [0x8]) → s.activeSample s.inputNow = false →
    ∃ t, s.leadsTo 4 t ∧ t.dir = 0x00 ∧ t.odr = s.odr ∧ t.rs = .serve ∧ t.offset = 0xE
      ∧ t.trace = .writeDir 0x00 :: .readIn s.inputNow :: s.trace

/-- R212, R219: in programs B and C, six micro-operations after the SMP of a sample found active in IDLE the
table byte of that sample is driven. -/
def Obligations.ProgramsBAndCServeInSixMicroOperations : Prop :=
  ∀ s : State, RunInv s → s.accepted → s.noReset → s.rs = .serve → s.offset = 0 → s.mode.value ≠ .twoCheck →
    s.activeSample s.inputNow = true → s.inputNow < s.tlen.value →
    ∃ t, s.leadsTo 7 t ∧ t.rs = .serve ∧ t.offset = 7 ∧ t.dir = 0xFF ∧ t.odr = .holds (s.tableEntry s.inputNow)
      ∧ t.dat = .holds ((s.tableEntry s.inputNow).setWidth 32)

/-- R211, R214: in program A, the byte looked up is driven after one more sample, if that one is active too; if
it is not, the pins are released without a store. -/
def Obligations.ProgramAServesOrReleases : Prop :=
  ∀ s : State, RunInv s → s.accepted → s.noReset → s.rs = .serve → s.offset = 5 → s.mode.value = .twoCheck →
    s.raw.value < s.tlen.value →
    (s.activeSample s.inputNow = true →
      ∃ t, s.leadsTo 5 t ∧ t.rs = .serve ∧ t.offset = 0xA ∧ t.dir = 0xFF ∧ t.odr = .holds (s.tableEntry s.raw.value))
    ∧ (s.activeSample s.inputNow = false →
      ∃ t, s.leadsTo 5 t ∧ t.rs = .serve ∧ t.offset = 0xE ∧ t.dir = 0x00 ∧ t.odr = s.odr)

/-- R212, R215, R216: in programs B and C an unchanged active sample is held: four micro-operations lead back to
the poll with no lookup and no store; a changed one is served: its byte is stored six after the SMP. -/
def Obligations.HoldLoopServesOnlyChanges : Prop :=
  ∀ s : State, RunInv s → s.accepted → s.noReset → s.rs = .serve → s.offset = 8 → s.mode.value ≠ .twoCheck →
    s.activeSample s.inputNow = true →
    (s.inputNow = s.prev.value →
      ∃ t, s.leadsTo 4 t ∧ t.upc = s.upc ∧ t.dir = s.dir ∧ t.odr = s.odr ∧ t.dat = s.dat
        ∧ t.trace = .readIn s.inputNow :: s.trace)
    ∧ (s.inputNow ≠ s.prev.value → s.inputNow < s.tlen.value →
      ∃ t, s.leadsTo 7 t ∧ t.offset = 7 ∧ t.odr = .holds (s.tableEntry s.inputNow) ∧ t.dir = 0xFF
        ∧ t.trace = .writeOdr (s.tableEntry s.inputNow) :: .readIn s.inputNow :: s.trace)
end

