-- ==== Sys2Proof/Laws/Bits.lean ====
section
/-! SUPPORT. What the bit-position operations do, bit by bit (00_scope R10, 40_remapper R132 to R135). -/

namespace Sys2Proof.Machine

theorem bitWord_bit (n i : Nat) (hi : i < 32) : (bitWord n).getLsbD i = decide (n = i) := by
  rw [bitWord, BitVec.getLsbD_ofNat]
  simp [hi, Nat.testBit_two_pow]

/-- A bit of `Σ bit(p)` is set exactly when its position is in the list. -/
theorem bitsWord_bit (ps : List Nat) (i : Nat) (hi : i < 32) : (bitsWord ps).getLsbD i = decide (i ∈ ps) := by
  induction ps with
  | nil => simp [bitsWord]
  | cons p ps ih =>
    simp only [bitsWord, List.foldr_cons, BitVec.getLsbD_or] at ih ⊢
    rw [bitWord_bit _ _ hi, ih]
    simp [eq_comm]

theorem gather_cons (p : Nat) (ps : List Nat) (v : Nat) :
    gather (p :: ps) v = (v.testBit p).toNat + 2 * gather ps v := rfl

/-- Bit `i` of a gathered number is the bit at the `i`-th position. -/
theorem gather_testBit (ps : List Nat) (v i : Nat) :
    (gather ps v).testBit i = ((ps[i]?).map fun p => v.testBit p).getD false := by
  induction ps generalizing i with
  | nil => simp [gather]
  | cons p ps ih =>
    cases i with
    | zero =>
      simp only [gather, Nat.testBit_zero, List.getElem?_cons_zero, Option.map_some, Option.getD_some]
      cases v.testBit p <;> simp
    | succ i =>
      have h : gather (p :: ps) v / 2 = gather ps v := by
        simp only [gather]
        cases v.testBit p
        · simp
        · simp
          omega
      rw [Nat.testBit_succ, h, ih]
      simp

theorem gather_lt (ps : List Nat) (v : Nat) : gather ps v < 2 ^ ps.length := by
  induction ps with
  | nil => simp [gather]
  | cons p ps ih =>
    simp only [gather, List.length_cons, Nat.pow_succ]
    have : (v.testBit p).toNat ≤ 1 := by cases v.testBit p <;> simp
    omega

/-- A gathered number depends on the bits at its positions alone. -/
theorem gather_congr {ps : List Nat} {v w : Nat} (h : ∀ p ∈ ps, v.testBit p = w.testBit p) :
    gather ps v = gather ps w := by
  induction ps with
  | nil => rfl
  | cons p ps ih =>
    simp only [gather, h p List.mem_cons_self, ih fun q hq => h q (List.mem_cons_of_mem _ hq)]

/-- A scattered number has no bit outside its positions. -/
theorem scatter_testBit_not_mem {ps : List Nat} {i : Nat} (a : Nat) (h : i ∉ ps) :
    (scatter ps a).testBit i = false := by
  induction ps generalizing a with
  | nil => simp [scatter]
  | cons p ps ih =>
    simp only [List.mem_cons, not_or] at h
    simp only [scatter, Nat.testBit_or, ih _ h.2, Bool.or_false]
    split
    · rw [Nat.testBit_two_pow]
      simp [Ne.symm h.1]
    · simp

theorem allDistinct_cons {p : Nat} {ps : List Nat} : allDistinct (p :: ps) = true ↔ p ∉ ps ∧ allDistinct ps = true := by
  simp [allDistinct]

/-- At different positions, bit `j` of a scattered number stands at the `j`-th one. -/
theorem scatter_testBit_get {ps : List Nat} (hd : allDistinct ps = true) (a j p : Nat) (h : ps[j]? = some p) :
    (scatter ps a).testBit p = a.testBit j := by
  induction ps generalizing a j with
  | nil => simp at h
  | cons q ps ih =>
    obtain ⟨hq, hd⟩ := allDistinct_cons.mp hd
    cases j with
    | zero =>
      simp only [List.getElem?_cons_zero, Option.some.injEq] at h
      subst h
      simp only [scatter, Nat.testBit_or, scatter_testBit_not_mem _ hq, Bool.or_false]
      cases ha : a.testBit 0 <;> simp
    | succ j =>
      simp only [List.getElem?_cons_succ] at h
      have hne : q ≠ p := by
        rintro rfl
        exact hq (List.mem_of_getElem? h)
      simp only [scatter, Nat.testBit_or, ih hd _ j h, Nat.testBit_div_two]
      split
      · simp [hne]
      · simp

end Sys2Proof.Machine
end

