-- ==== Sys2Proof/Laws/Config.lean ====
section
/-! SUPPORT. What an Image Store header, and a configuration that the model runs, are known to be. -/

namespace Sys2Proof.Machine

theorem except_bind_ok {ε α β : Type} {x : Except ε α} {f : α → Except ε β} {b : β} (h : (x >>= f) = .ok b) :
    ∃ a, x = .ok a ∧ f a = .ok b := by
  cases x
  · cases h
  · exact ⟨_, rfl, h⟩

theorem require_ok {ok : Bool} {d : ConfigDefect} (h : require ok d = .ok ()) : ok = true := by
  cases ok
  · cases h
  · rfl

theorem forM_ok {f : Nat → Except ConfigDefect Unit} {l : List Nat} (h : l.forM f = .ok ()) :
    ∀ k ∈ l, f k = .ok () := by
  induction l with
  | nil => simp
  | cons a l ih =>
    obtain ⟨_, h1, h2⟩ := except_bind_ok (h : (f a >>= fun _ => l.forM f) = _)
    intro k hk
    rcases List.mem_cons.mp hk with rfl | hk
    · exact h1
    · exact ih h2 k hk

theorem romsInUse_ok {count : Byte} {d0 d1 d2 : RomDesc} {roms : List RomDesc}
    (h : romsInUse count d0 d1 d2 = .ok roms) :
    count.toNat = roms.length ∧ 1 ≤ roms.length ∧ roms.length ≤ 3 := by
  unfold romsInUse at h
  split at h <;> cases h <;> simp_all

theorem polarityOf_ok {code : Byte} {p : Polarity} (h : polarityOf code = .ok p) : code.toNat ≤ 2 := by
  unfold polarityOf at h
  split at h <;> first | omega | cases h

theorem serveModeOf_ok {code : Byte} {m : ServeMode} (h : serveModeOf code = .ok m) : code.toNat ≤ 2 := by
  unfold serveModeOf at h
  split at h <;> first | omega | cases h

theorem parseDesc_ok {t p1 p2 p3 : Byte} {d : RomDesc} (h : parseDesc t p1 p2 p3 = .ok d) :
    d.typeCode = t ∧ p1.toNat ≤ 2 ∧ p2.toNat ≤ 2 ∧ p3.toNat ≤ 2 := by
  obtain ⟨_, h1, h⟩ := except_bind_ok h
  obtain ⟨_, h2, h⟩ := except_bind_ok h
  obtain ⟨_, h3, h⟩ := except_bind_ok h
  cases h
  exact ⟨rfl, polarityOf_ok h1, polarityOf_ok h2, polarityOf_ok h3⟩

theorem indexWidthOf_ok {inW n : Nat} {code : Byte} (h : indexWidthOf inW code = .ok n) : 11 ≤ n ∧ n ≤ inW := by
  unfold indexWidthOf at h
  split at h
  · cases h
    assumption
  · cases h

/-- Bytes 1, 5 to 7, 9 to 11 and 13 to 15 of a header are `serve_mode` and the polarities of its three
descriptors (R101, R102): the codes that U9 refuses above 2 whichever set it is. -/
def codeOffsets : List Nat := [1, 5, 6, 7, 9, 10, 11, 13, 14, 15]

/-- What is known of the bytes of a header that is read as a RomSet: a legal count and index width and no
reserved code (R99 to R101, U8, U9). -/
structure HeaderSound (inW : Nat) (bytes : List Byte) (set : RomSet) : Prop where
  count : 1 ≤ set.romCount ∧ set.romCount ≤ 3 ∧ set.roms.length = set.romCount
  width : 11 ≤ set.indexWidth ∧ set.indexWidth ≤ inW
  countByte : ∃ c, bytes[0]? = some c ∧ c.toNat = set.romCount
  codes : ∀ i ∈ codeOffsets, ∃ b, bytes[i]? = some b ∧ b.toNat ≤ 2
  multi : set.romCount ≠ 1 → ∃ p, bytes[2]? = some p ∧ p.toNat ≤ 2

theorem parseHeader_ok {inW : Nat} {bytes : List Byte} {set : RomSet} (h : parseHeader inW bytes = some (.ok set)) :
    HeaderSound inW bytes set := by
  unfold parseHeader at h
  split at h
  · rename_i c m p w t0 a0 b0 c0 t1 a1 b1 c1 t2 a2 b2 c2
    simp only [Option.some.injEq] at h
    obtain ⟨d0, e0, h⟩ := except_bind_ok h
    obtain ⟨d1, e1, h⟩ := except_bind_ok h
    obtain ⟨d2, e2, h⟩ := except_bind_ok h
    obtain ⟨roms, hr, h⟩ := except_bind_ok h
    obtain ⟨mode, hm, h⟩ := except_bind_ok h
    obtain ⟨hc, h1, h3⟩ := romsInUse_ok hr
    have codes : ∀ i ∈ codeOffsets, ∃ b,
        [c, m, p, w, t0, a0, b0, c0, t1, a1, b1, c1, t2, a2, b2, c2][i]? = some b ∧ b.toNat ≤ 2 := by
      have := serveModeOf_ok hm
      have := parseDesc_ok e0
      have := parseDesc_ok e1
      have := parseDesc_ok e2
      simp_all [codeOffsets]
    by_cases h1c : c = 1
    · subst h1c
      rw [if_pos rfl] at h
      obtain ⟨_, _, h⟩ := except_bind_ok h
      obtain ⟨width, hw, h⟩ := except_bind_ok h
      cases h
      exact ⟨⟨h1, h3, rfl⟩, indexWidthOf_ok hw, ⟨_, rfl, hc⟩, codes, fun hn => absurd hc.symm hn⟩
    · rw [if_neg h1c] at h
      obtain ⟨_, hp, h⟩ := except_bind_ok h
      obtain ⟨width, hw, h⟩ := except_bind_ok h
      cases h
      exact ⟨⟨h1, h3, rfl⟩, indexWidthOf_ok hw, ⟨_, rfl, hc⟩, codes, fun _ => ⟨_, rfl, polarityOf_ok hp⟩⟩
  · cases h

theorem mapM_getElem {α β : Type} {f : α → Option β} {l : List α} {bs : List β} (h : l.mapM f = some bs) {i : Nat}
    {b : β} (hb : bs[i]? = some b) : ∃ x, l[i]? = some x ∧ f x = some b := by
  induction l generalizing bs i with
  | nil =>
    cases h
    simp at hb
  | cons a l ih =>
    rw [List.mapM_cons] at h
    obtain ⟨y, hy, h⟩ := Option.bind_eq_some_iff.mp h
    obtain ⟨ys, hys, h⟩ := Option.bind_eq_some_iff.mp h
    cases h
    cases i with
    | zero => exact ⟨a, rfl, by simpa using hy.trans hb⟩
    | succ i => exact ih hys (by simpa using hb)

/-- The bytes of a header are the cells that lie there. -/
theorem headerBytes_cell {store : Memory} {base i : Nat} {bytes : List Byte} {b : Byte}
    (h : headerBytes store base = some bytes) (hb : bytes[i]? = some b) : cellAt store (base + i) = some b := by
  obtain ⟨j, hj, hc⟩ := mapM_getElem h hb
  obtain ⟨_, rfl⟩ := List.getElem?_eq_some_iff.mp hj
  simpa using hc

/-- A block that is a RomSet: one of the `NUM_SETS`, at an address the chain of headers gives (R103, R263). -/
theorem romSetAt_ok {cfg : Config} {store : Memory} {n : Nat} {set : RomSet} (h : romSetAt cfg store n = .ok set) :
    n < cfg.numSets ∧ ∃ a bytes, setAddr cfg store n = some a ∧ headerBytes store a = some bytes
      ∧ HeaderSound cfg.inW bytes set := by
  unfold romSetAt at h
  split at h
  · rename_i hn
    split at h
    · rename_i r hr
      subst h
      obtain ⟨a, ha, hr⟩ := Option.bind_eq_some_iff.mp hr
      obtain ⟨bytes, hb, hr⟩ := Option.bind_eq_some_iff.mp hr
      exact ⟨hn, a, bytes, ha, hb, parseHeader_ok hr⟩
    · cases h
  · cases h

/-- What `checkConfig` has checked of a configuration that the model runs (R263). -/
theorem configDefect_none {cfg : Config} {store : Memory} {strap : Word} (h : configDefect cfg store strap = none) :
    14 ≤ cfg.inW ∧ cfg.inW ≤ 32 ∧ cfg.numSets ≠ 0 ∧ cfg.pm.sel.length ≤ 4
      ∧ ∃ set storeEnd, romSetAt cfg store (strappedSet cfg strap) = .ok set
        ∧ checkImages cfg (strappedSet cfg strap) set = .ok ()
        ∧ setAddr cfg store cfg.numSets = some storeEnd ∧ checkRanges cfg set storeEnd = .ok () := by
  unfold configDefect at h
  split at h
  · rename_i u hu
    unfold checkConfig at hu
    obtain ⟨_, h1, hu⟩ := except_bind_ok hu
    obtain ⟨_, h2, hu⟩ := except_bind_ok hu
    obtain ⟨_, h3, hu⟩ := except_bind_ok hu
    obtain ⟨set, h4, hu⟩ := except_bind_ok hu
    obtain ⟨_, h5, hu⟩ := except_bind_ok hu
    have h1 := require_ok h1
    have h2 := require_ok h2
    have h3 := require_ok h3
    simp only [Bool.and_eq_true, decide_eq_true_eq, bne_iff_ne, ne_eq] at h1 h2 h3
    split at hu
    · rename_i storeEnd he
      exact ⟨h1.1, h1.2, h2, h3, set, storeEnd, h4, h5, he, hu⟩
    · cases hu
  · cases h

/-- What `checkRanges` has checked of the memory ranges (R67, R75). -/
theorem checkRanges_ok {cfg : Config} {set : RomSet} {storeEnd : Nat} (h : checkRanges cfg set storeEnd = .ok ()) :
    cfg.rtiBase.toNat % 4 = 0
      ∧ (∀ r ∈ storeRanges cfg storeEnd ++ otherRanges cfg set, r.lo + r.len ≤ 2 ^ 32)
      ∧ pairwiseApart (otherRanges cfg set) = true
      ∧ ∀ r ∈ otherRanges cfg set, ∀ q ∈ storeRanges cfg storeEnd, r.apart q = true := by
  unfold checkRanges at h
  obtain ⟨_, h1, h⟩ := except_bind_ok h
  obtain ⟨_, h2, h3⟩ := except_bind_ok h
  have h1 := require_ok h1
  have h2 := require_ok h2
  have h3 := require_ok h3
  simp only [beq_iff_eq] at h1
  simp only [List.all_eq_true, Range.fits, decide_eq_true_eq] at h2
  simp only [Bool.and_eq_true, List.all_eq_true] at h3
  exact ⟨h1, h2, h3.1, h3.2⟩

end Sys2Proof.Machine
end

