-- ==== Sys2Proof/Laws/State.lean ====
section
/-! SUPPORT. One lemma per field per update of `State`, each by computation, so that no later proof unfolds
a record update. -/

namespace Sys2Proof.Machine

variable (s : State)


/-! ### `afterReadIn` -/

@[simp] theorem State.afterReadIn_cfg : (s.afterReadIn).cfg = s.cfg := rfl
@[simp] theorem State.afterReadIn_store : (s.afterReadIn).store = s.store := rfl
@[simp] theorem State.afterReadIn_fast : (s.afterReadIn).fast = s.fast := rfl
@[simp] theorem State.afterReadIn_work : (s.afterReadIn).work = s.work := rfl
@[simp] theorem State.afterReadIn_rti : (s.afterReadIn).rti = s.rti := rfl
@[simp] theorem State.afterReadIn_urom : (s.afterReadIn).urom = s.urom := rfl
@[simp] theorem State.afterReadIn_upc : (s.afterReadIn).upc = s.upc := rfl
@[simp] theorem State.afterReadIn_rs : (s.afterReadIn).rs = s.rs := rfl
@[simp] theorem State.afterReadIn_faultRec : (s.afterReadIn).faultRec = s.faultRec := rfl
@[simp] theorem State.afterReadIn_chk : (s.afterReadIn).chk = s.chk := rfl
@[simp] theorem State.afterReadIn_inv : (s.afterReadIn).inv = s.inv := rfl
@[simp] theorem State.afterReadIn_tbl : (s.afterReadIn).tbl = s.tbl := rfl
@[simp] theorem State.afterReadIn_tlen : (s.afterReadIn).tlen = s.tlen := rfl
@[simp] theorem State.afterReadIn_raw : (s.afterReadIn).raw = s.raw := rfl
@[simp] theorem State.afterReadIn_eff : (s.afterReadIn).eff = s.eff := rfl
@[simp] theorem State.afterReadIn_dat : (s.afterReadIn).dat = s.dat := rfl
@[simp] theorem State.afterReadIn_prev : (s.afterReadIn).prev = s.prev := rfl
@[simp] theorem State.afterReadIn_act : (s.afterReadIn).act = s.act := rfl
@[simp] theorem State.afterReadIn_mode : (s.afterReadIn).mode = s.mode := rfl
@[simp] theorem State.afterReadIn_sel : (s.afterReadIn).sel = s.sel := rfl
@[simp] theorem State.afterReadIn_set : (s.afterReadIn).set = s.set := rfl
@[simp] theorem State.afterReadIn_warn : (s.afterReadIn).warn = s.warn := rfl
@[simp] theorem State.afterReadIn_odr : (s.afterReadIn).odr = s.odr := rfl
@[simp] theorem State.afterReadIn_dir : (s.afterReadIn).dir = s.dir := rfl
@[simp] theorem State.afterReadIn_strap : (s.afterReadIn).strap = s.strap := rfl
@[simp] theorem State.afterReadIn_samples : (s.afterReadIn).samples = s.samples.tail := rfl
@[simp] theorem State.afterReadIn_sampleCount : (s.afterReadIn).sampleCount = s.sampleCount + 1 := rfl
@[simp] theorem State.afterReadIn_ticks : (s.afterReadIn).ticks = s.ticks := rfl
@[simp] theorem State.afterReadIn_freeCount : (s.afterReadIn).freeCount = s.freeCount := rfl
@[simp] theorem State.afterReadIn_boots : (s.afterReadIn).boots = s.boots := rfl
@[simp] theorem State.afterReadIn_trace : (s.afterReadIn).trace = .readIn s.inputNow :: s.trace := rfl

/-! ### `note` -/

@[simp] theorem State.note_cfg (a : Access) : (s.note a).cfg = s.cfg := rfl
@[simp] theorem State.note_store (a : Access) : (s.note a).store = s.store := rfl
@[simp] theorem State.note_fast (a : Access) : (s.note a).fast = s.fast := rfl
@[simp] theorem State.note_work (a : Access) : (s.note a).work = s.work := rfl
@[simp] theorem State.note_rti (a : Access) : (s.note a).rti = s.rti := rfl
@[simp] theorem State.note_urom (a : Access) : (s.note a).urom = s.urom := rfl
@[simp] theorem State.note_upc (a : Access) : (s.note a).upc = s.upc := rfl
@[simp] theorem State.note_rs (a : Access) : (s.note a).rs = s.rs := rfl
@[simp] theorem State.note_faultRec (a : Access) : (s.note a).faultRec = s.faultRec := rfl
@[simp] theorem State.note_chk (a : Access) : (s.note a).chk = s.chk := rfl
@[simp] theorem State.note_inv (a : Access) : (s.note a).inv = s.inv := rfl
@[simp] theorem State.note_tbl (a : Access) : (s.note a).tbl = s.tbl := rfl
@[simp] theorem State.note_tlen (a : Access) : (s.note a).tlen = s.tlen := rfl
@[simp] theorem State.note_raw (a : Access) : (s.note a).raw = s.raw := rfl
@[simp] theorem State.note_eff (a : Access) : (s.note a).eff = s.eff := rfl
@[simp] theorem State.note_dat (a : Access) : (s.note a).dat = s.dat := rfl
@[simp] theorem State.note_prev (a : Access) : (s.note a).prev = s.prev := rfl
@[simp] theorem State.note_act (a : Access) : (s.note a).act = s.act := rfl
@[simp] theorem State.note_mode (a : Access) : (s.note a).mode = s.mode := rfl
@[simp] theorem State.note_sel (a : Access) : (s.note a).sel = s.sel := rfl
@[simp] theorem State.note_set (a : Access) : (s.note a).set = s.set := rfl
@[simp] theorem State.note_warn (a : Access) : (s.note a).warn = s.warn := rfl
@[simp] theorem State.note_odr (a : Access) : (s.note a).odr = s.odr := rfl
@[simp] theorem State.note_dir (a : Access) : (s.note a).dir = s.dir := rfl
@[simp] theorem State.note_strap (a : Access) : (s.note a).strap = s.strap := rfl
@[simp] theorem State.note_samples (a : Access) : (s.note a).samples = s.samples := rfl
@[simp] theorem State.note_sampleCount (a : Access) : (s.note a).sampleCount = s.sampleCount := rfl
@[simp] theorem State.note_ticks (a : Access) : (s.note a).ticks = s.ticks := rfl
@[simp] theorem State.note_freeCount (a : Access) : (s.note a).freeCount = s.freeCount := rfl
@[simp] theorem State.note_boots (a : Access) : (s.note a).boots = s.boots := rfl
@[simp] theorem State.note_trace (a : Access) : (s.note a).trace = a :: s.trace := rfl

/-! ### `afterReadStrap` -/

@[simp] theorem State.afterReadStrap_cfg : (s.afterReadStrap).cfg = s.cfg := rfl
@[simp] theorem State.afterReadStrap_store : (s.afterReadStrap).store = s.store := rfl
@[simp] theorem State.afterReadStrap_fast : (s.afterReadStrap).fast = s.fast := rfl
@[simp] theorem State.afterReadStrap_work : (s.afterReadStrap).work = s.work := rfl
@[simp] theorem State.afterReadStrap_rti : (s.afterReadStrap).rti = s.rti := rfl
@[simp] theorem State.afterReadStrap_urom : (s.afterReadStrap).urom = s.urom := rfl
@[simp] theorem State.afterReadStrap_upc : (s.afterReadStrap).upc = s.upc := rfl
@[simp] theorem State.afterReadStrap_rs : (s.afterReadStrap).rs = s.rs := rfl
@[simp] theorem State.afterReadStrap_faultRec : (s.afterReadStrap).faultRec = s.faultRec := rfl
@[simp] theorem State.afterReadStrap_chk : (s.afterReadStrap).chk = s.chk := rfl
@[simp] theorem State.afterReadStrap_inv : (s.afterReadStrap).inv = s.inv := rfl
@[simp] theorem State.afterReadStrap_tbl : (s.afterReadStrap).tbl = s.tbl := rfl
@[simp] theorem State.afterReadStrap_tlen : (s.afterReadStrap).tlen = s.tlen := rfl
@[simp] theorem State.afterReadStrap_raw : (s.afterReadStrap).raw = s.raw := rfl
@[simp] theorem State.afterReadStrap_eff : (s.afterReadStrap).eff = s.eff := rfl
@[simp] theorem State.afterReadStrap_dat : (s.afterReadStrap).dat = s.dat := rfl
@[simp] theorem State.afterReadStrap_prev : (s.afterReadStrap).prev = s.prev := rfl
@[simp] theorem State.afterReadStrap_act : (s.afterReadStrap).act = s.act := rfl
@[simp] theorem State.afterReadStrap_mode : (s.afterReadStrap).mode = s.mode := rfl
@[simp] theorem State.afterReadStrap_sel : (s.afterReadStrap).sel = s.sel := rfl
@[simp] theorem State.afterReadStrap_set : (s.afterReadStrap).set = s.set := rfl
@[simp] theorem State.afterReadStrap_warn : (s.afterReadStrap).warn = s.warn := rfl
@[simp] theorem State.afterReadStrap_odr : (s.afterReadStrap).odr = s.odr := rfl
@[simp] theorem State.afterReadStrap_dir : (s.afterReadStrap).dir = s.dir := rfl
@[simp] theorem State.afterReadStrap_strap : (s.afterReadStrap).strap = s.strap := rfl
@[simp] theorem State.afterReadStrap_samples : (s.afterReadStrap).samples = s.samples := rfl
@[simp] theorem State.afterReadStrap_sampleCount : (s.afterReadStrap).sampleCount = s.sampleCount := rfl
@[simp] theorem State.afterReadStrap_ticks : (s.afterReadStrap).ticks = s.ticks := rfl
@[simp] theorem State.afterReadStrap_freeCount : (s.afterReadStrap).freeCount = s.freeCount := rfl
@[simp] theorem State.afterReadStrap_boots : (s.afterReadStrap).boots = s.boots := rfl
@[simp] theorem State.afterReadStrap_trace : (s.afterReadStrap).trace = .readStrap s.strap :: s.trace := rfl

/-! ### `writeOdr` -/

@[simp] theorem State.writeOdr_cfg (b : Byte) : (s.writeOdr b).cfg = s.cfg := rfl
@[simp] theorem State.writeOdr_store (b : Byte) : (s.writeOdr b).store = s.store := rfl
@[simp] theorem State.writeOdr_fast (b : Byte) : (s.writeOdr b).fast = s.fast := rfl
@[simp] theorem State.writeOdr_work (b : Byte) : (s.writeOdr b).work = s.work := rfl
@[simp] theorem State.writeOdr_rti (b : Byte) : (s.writeOdr b).rti = s.rti := rfl
@[simp] theorem State.writeOdr_urom (b : Byte) : (s.writeOdr b).urom = s.urom := rfl
@[simp] theorem State.writeOdr_upc (b : Byte) : (s.writeOdr b).upc = s.upc := rfl
@[simp] theorem State.writeOdr_rs (b : Byte) : (s.writeOdr b).rs = s.rs := rfl
@[simp] theorem State.writeOdr_faultRec (b : Byte) : (s.writeOdr b).faultRec = s.faultRec := rfl
@[simp] theorem State.writeOdr_chk (b : Byte) : (s.writeOdr b).chk = s.chk := rfl
@[simp] theorem State.writeOdr_inv (b : Byte) : (s.writeOdr b).inv = s.inv := rfl
@[simp] theorem State.writeOdr_tbl (b : Byte) : (s.writeOdr b).tbl = s.tbl := rfl
@[simp] theorem State.writeOdr_tlen (b : Byte) : (s.writeOdr b).tlen = s.tlen := rfl
@[simp] theorem State.writeOdr_raw (b : Byte) : (s.writeOdr b).raw = s.raw := rfl
@[simp] theorem State.writeOdr_eff (b : Byte) : (s.writeOdr b).eff = s.eff := rfl
@[simp] theorem State.writeOdr_dat (b : Byte) : (s.writeOdr b).dat = s.dat := rfl
@[simp] theorem State.writeOdr_prev (b : Byte) : (s.writeOdr b).prev = s.prev := rfl
@[simp] theorem State.writeOdr_act (b : Byte) : (s.writeOdr b).act = s.act := rfl
@[simp] theorem State.writeOdr_mode (b : Byte) : (s.writeOdr b).mode = s.mode := rfl
@[simp] theorem State.writeOdr_sel (b : Byte) : (s.writeOdr b).sel = s.sel := rfl
@[simp] theorem State.writeOdr_set (b : Byte) : (s.writeOdr b).set = s.set := rfl
@[simp] theorem State.writeOdr_warn (b : Byte) : (s.writeOdr b).warn = s.warn := rfl
@[simp] theorem State.writeOdr_odr (b : Byte) : (s.writeOdr b).odr = .holds b := rfl
@[simp] theorem State.writeOdr_dir (b : Byte) : (s.writeOdr b).dir = s.dir := rfl
@[simp] theorem State.writeOdr_strap (b : Byte) : (s.writeOdr b).strap = s.strap := rfl
@[simp] theorem State.writeOdr_samples (b : Byte) : (s.writeOdr b).samples = s.samples := rfl
@[simp] theorem State.writeOdr_sampleCount (b : Byte) : (s.writeOdr b).sampleCount = s.sampleCount := rfl
@[simp] theorem State.writeOdr_ticks (b : Byte) : (s.writeOdr b).ticks = s.ticks := rfl
@[simp] theorem State.writeOdr_freeCount (b : Byte) : (s.writeOdr b).freeCount = s.freeCount := rfl
@[simp] theorem State.writeOdr_boots (b : Byte) : (s.writeOdr b).boots = s.boots := rfl
@[simp] theorem State.writeOdr_trace (b : Byte) : (s.writeOdr b).trace = .writeOdr b :: s.trace := rfl

/-! ### `writeDir` -/

@[simp] theorem State.writeDir_cfg (d : Byte) : (s.writeDir d).cfg = s.cfg := rfl
@[simp] theorem State.writeDir_store (d : Byte) : (s.writeDir d).store = s.store := rfl
@[simp] theorem State.writeDir_fast (d : Byte) : (s.writeDir d).fast = s.fast := rfl
@[simp] theorem State.writeDir_work (d : Byte) : (s.writeDir d).work = s.work := rfl
@[simp] theorem State.writeDir_rti (d : Byte) : (s.writeDir d).rti = s.rti := rfl
@[simp] theorem State.writeDir_urom (d : Byte) : (s.writeDir d).urom = s.urom := rfl
@[simp] theorem State.writeDir_upc (d : Byte) : (s.writeDir d).upc = s.upc := rfl
@[simp] theorem State.writeDir_rs (d : Byte) : (s.writeDir d).rs = s.rs := rfl
@[simp] theorem State.writeDir_faultRec (d : Byte) : (s.writeDir d).faultRec = s.faultRec := rfl
@[simp] theorem State.writeDir_chk (d : Byte) : (s.writeDir d).chk = s.chk := rfl
@[simp] theorem State.writeDir_inv (d : Byte) : (s.writeDir d).inv = s.inv := rfl
@[simp] theorem State.writeDir_tbl (d : Byte) : (s.writeDir d).tbl = s.tbl := rfl
@[simp] theorem State.writeDir_tlen (d : Byte) : (s.writeDir d).tlen = s.tlen := rfl
@[simp] theorem State.writeDir_raw (d : Byte) : (s.writeDir d).raw = s.raw := rfl
@[simp] theorem State.writeDir_eff (d : Byte) : (s.writeDir d).eff = s.eff := rfl
@[simp] theorem State.writeDir_dat (d : Byte) : (s.writeDir d).dat = s.dat := rfl
@[simp] theorem State.writeDir_prev (d : Byte) : (s.writeDir d).prev = s.prev := rfl
@[simp] theorem State.writeDir_act (d : Byte) : (s.writeDir d).act = s.act := rfl
@[simp] theorem State.writeDir_mode (d : Byte) : (s.writeDir d).mode = s.mode := rfl
@[simp] theorem State.writeDir_sel (d : Byte) : (s.writeDir d).sel = s.sel := rfl
@[simp] theorem State.writeDir_set (d : Byte) : (s.writeDir d).set = s.set := rfl
@[simp] theorem State.writeDir_warn (d : Byte) : (s.writeDir d).warn = s.warn := rfl
@[simp] theorem State.writeDir_odr (d : Byte) : (s.writeDir d).odr = s.odr := rfl
@[simp] theorem State.writeDir_dir (d : Byte) : (s.writeDir d).dir = d := rfl
@[simp] theorem State.writeDir_strap (d : Byte) : (s.writeDir d).strap = s.strap := rfl
@[simp] theorem State.writeDir_samples (d : Byte) : (s.writeDir d).samples = s.samples := rfl
@[simp] theorem State.writeDir_sampleCount (d : Byte) : (s.writeDir d).sampleCount = s.sampleCount := rfl
@[simp] theorem State.writeDir_ticks (d : Byte) : (s.writeDir d).ticks = s.ticks := rfl
@[simp] theorem State.writeDir_freeCount (d : Byte) : (s.writeDir d).freeCount = s.freeCount := rfl
@[simp] theorem State.writeDir_boots (d : Byte) : (s.writeDir d).boots = s.boots := rfl
@[simp] theorem State.writeDir_trace (d : Byte) : (s.writeDir d).trace = .writeDir d :: s.trace := rfl

/-! ### `advance` -/

@[simp] theorem State.advance_cfg : (s.advance).cfg = s.cfg := rfl
@[simp] theorem State.advance_store : (s.advance).store = s.store := rfl
@[simp] theorem State.advance_fast : (s.advance).fast = s.fast := rfl
@[simp] theorem State.advance_work : (s.advance).work = s.work := rfl
@[simp] theorem State.advance_rti : (s.advance).rti = s.rti := rfl
@[simp] theorem State.advance_urom : (s.advance).urom = s.urom := rfl
@[simp] theorem State.advance_upc : (s.advance).upc = s.upc + 1 := rfl
@[simp] theorem State.advance_rs : (s.advance).rs = s.rs := rfl
@[simp] theorem State.advance_faultRec : (s.advance).faultRec = s.faultRec := rfl
@[simp] theorem State.advance_chk : (s.advance).chk = s.chk := rfl
@[simp] theorem State.advance_inv : (s.advance).inv = s.inv := rfl
@[simp] theorem State.advance_tbl : (s.advance).tbl = s.tbl := rfl
@[simp] theorem State.advance_tlen : (s.advance).tlen = s.tlen := rfl
@[simp] theorem State.advance_raw : (s.advance).raw = s.raw := rfl
@[simp] theorem State.advance_eff : (s.advance).eff = s.eff := rfl
@[simp] theorem State.advance_dat : (s.advance).dat = s.dat := rfl
@[simp] theorem State.advance_prev : (s.advance).prev = s.prev := rfl
@[simp] theorem State.advance_act : (s.advance).act = s.act := rfl
@[simp] theorem State.advance_mode : (s.advance).mode = s.mode := rfl
@[simp] theorem State.advance_sel : (s.advance).sel = s.sel := rfl
@[simp] theorem State.advance_set : (s.advance).set = s.set := rfl
@[simp] theorem State.advance_warn : (s.advance).warn = s.warn := rfl
@[simp] theorem State.advance_odr : (s.advance).odr = s.odr := rfl
@[simp] theorem State.advance_dir : (s.advance).dir = s.dir := rfl
@[simp] theorem State.advance_strap : (s.advance).strap = s.strap := rfl
@[simp] theorem State.advance_samples : (s.advance).samples = s.samples := rfl
@[simp] theorem State.advance_sampleCount : (s.advance).sampleCount = s.sampleCount := rfl
@[simp] theorem State.advance_ticks : (s.advance).ticks = s.ticks := rfl
@[simp] theorem State.advance_freeCount : (s.advance).freeCount = s.freeCount := rfl
@[simp] theorem State.advance_boots : (s.advance).boots = s.boots := rfl
@[simp] theorem State.advance_trace : (s.advance).trace = s.trace := rfl

/-! ### `jump` -/

@[simp] theorem State.jump_cfg (t : UAddr) : (s.jump t).cfg = s.cfg := rfl
@[simp] theorem State.jump_store (t : UAddr) : (s.jump t).store = s.store := rfl
@[simp] theorem State.jump_fast (t : UAddr) : (s.jump t).fast = s.fast := rfl
@[simp] theorem State.jump_work (t : UAddr) : (s.jump t).work = s.work := rfl
@[simp] theorem State.jump_rti (t : UAddr) : (s.jump t).rti = s.rti := rfl
@[simp] theorem State.jump_urom (t : UAddr) : (s.jump t).urom = s.urom := rfl
@[simp] theorem State.jump_upc (t : UAddr) : (s.jump t).upc = t := rfl
@[simp] theorem State.jump_rs (t : UAddr) : (s.jump t).rs = s.rs := rfl
@[simp] theorem State.jump_faultRec (t : UAddr) : (s.jump t).faultRec = s.faultRec := rfl
@[simp] theorem State.jump_chk (t : UAddr) : (s.jump t).chk = s.chk := rfl
@[simp] theorem State.jump_inv (t : UAddr) : (s.jump t).inv = s.inv := rfl
@[simp] theorem State.jump_tbl (t : UAddr) : (s.jump t).tbl = s.tbl := rfl
@[simp] theorem State.jump_tlen (t : UAddr) : (s.jump t).tlen = s.tlen := rfl
@[simp] theorem State.jump_raw (t : UAddr) : (s.jump t).raw = s.raw := rfl
@[simp] theorem State.jump_eff (t : UAddr) : (s.jump t).eff = s.eff := rfl
@[simp] theorem State.jump_dat (t : UAddr) : (s.jump t).dat = s.dat := rfl
@[simp] theorem State.jump_prev (t : UAddr) : (s.jump t).prev = s.prev := rfl
@[simp] theorem State.jump_act (t : UAddr) : (s.jump t).act = s.act := rfl
@[simp] theorem State.jump_mode (t : UAddr) : (s.jump t).mode = s.mode := rfl
@[simp] theorem State.jump_sel (t : UAddr) : (s.jump t).sel = s.sel := rfl
@[simp] theorem State.jump_set (t : UAddr) : (s.jump t).set = s.set := rfl
@[simp] theorem State.jump_warn (t : UAddr) : (s.jump t).warn = s.warn := rfl
@[simp] theorem State.jump_odr (t : UAddr) : (s.jump t).odr = s.odr := rfl
@[simp] theorem State.jump_dir (t : UAddr) : (s.jump t).dir = s.dir := rfl
@[simp] theorem State.jump_strap (t : UAddr) : (s.jump t).strap = s.strap := rfl
@[simp] theorem State.jump_samples (t : UAddr) : (s.jump t).samples = s.samples := rfl
@[simp] theorem State.jump_sampleCount (t : UAddr) : (s.jump t).sampleCount = s.sampleCount := rfl
@[simp] theorem State.jump_ticks (t : UAddr) : (s.jump t).ticks = s.ticks := rfl
@[simp] theorem State.jump_freeCount (t : UAddr) : (s.jump t).freeCount = s.freeCount := rfl
@[simp] theorem State.jump_boots (t : UAddr) : (s.jump t).boots = s.boots := rfl
@[simp] theorem State.jump_trace (t : UAddr) : (s.jump t).trace = s.trace := rfl

/-! ### `writeRaw` -/

@[simp] theorem State.writeRaw_cfg (v : Word) : (s.writeRaw v).cfg = s.cfg := rfl
@[simp] theorem State.writeRaw_store (v : Word) : (s.writeRaw v).store = s.store := rfl
@[simp] theorem State.writeRaw_fast (v : Word) : (s.writeRaw v).fast = s.fast := rfl
@[simp] theorem State.writeRaw_work (v : Word) : (s.writeRaw v).work = s.work := rfl
@[simp] theorem State.writeRaw_rti (v : Word) : (s.writeRaw v).rti = s.rti := rfl
@[simp] theorem State.writeRaw_urom (v : Word) : (s.writeRaw v).urom = s.urom := rfl
@[simp] theorem State.writeRaw_upc (v : Word) : (s.writeRaw v).upc = s.upc := rfl
@[simp] theorem State.writeRaw_rs (v : Word) : (s.writeRaw v).rs = s.rs := rfl
@[simp] theorem State.writeRaw_faultRec (v : Word) : (s.writeRaw v).faultRec = s.faultRec := rfl
@[simp] theorem State.writeRaw_chk (v : Word) : (s.writeRaw v).chk = s.chk := rfl
@[simp] theorem State.writeRaw_inv (v : Word) : (s.writeRaw v).inv = s.inv := rfl
@[simp] theorem State.writeRaw_tbl (v : Word) : (s.writeRaw v).tbl = s.tbl := rfl
@[simp] theorem State.writeRaw_tlen (v : Word) : (s.writeRaw v).tlen = s.tlen := rfl
@[simp] theorem State.writeRaw_raw (v : Word) : (s.writeRaw v).raw = .holds v := rfl
@[simp] theorem State.writeRaw_eff (v : Word) : (s.writeRaw v).eff = s.eff := rfl
@[simp] theorem State.writeRaw_dat (v : Word) : (s.writeRaw v).dat = s.dat := rfl
@[simp] theorem State.writeRaw_prev (v : Word) : (s.writeRaw v).prev = s.prev := rfl
@[simp] theorem State.writeRaw_act (v : Word) : (s.writeRaw v).act = s.act := rfl
@[simp] theorem State.writeRaw_mode (v : Word) : (s.writeRaw v).mode = s.mode := rfl
@[simp] theorem State.writeRaw_sel (v : Word) : (s.writeRaw v).sel = s.sel := rfl
@[simp] theorem State.writeRaw_set (v : Word) : (s.writeRaw v).set = s.set := rfl
@[simp] theorem State.writeRaw_warn (v : Word) : (s.writeRaw v).warn = s.warn := rfl
@[simp] theorem State.writeRaw_odr (v : Word) : (s.writeRaw v).odr = s.odr := rfl
@[simp] theorem State.writeRaw_dir (v : Word) : (s.writeRaw v).dir = s.dir := rfl
@[simp] theorem State.writeRaw_strap (v : Word) : (s.writeRaw v).strap = s.strap := rfl
@[simp] theorem State.writeRaw_samples (v : Word) : (s.writeRaw v).samples = s.samples := rfl
@[simp] theorem State.writeRaw_sampleCount (v : Word) : (s.writeRaw v).sampleCount = s.sampleCount := rfl
@[simp] theorem State.writeRaw_ticks (v : Word) : (s.writeRaw v).ticks = s.ticks := rfl
@[simp] theorem State.writeRaw_freeCount (v : Word) : (s.writeRaw v).freeCount = s.freeCount := rfl
@[simp] theorem State.writeRaw_boots (v : Word) : (s.writeRaw v).boots = s.boots := rfl
@[simp] theorem State.writeRaw_trace (v : Word) : (s.writeRaw v).trace = s.trace := rfl

/-! ### `writeTest` -/

@[simp] theorem State.writeTest_cfg (e : Word) (a : Bool) : (s.writeTest e a).cfg = s.cfg := rfl
@[simp] theorem State.writeTest_store (e : Word) (a : Bool) : (s.writeTest e a).store = s.store := rfl
@[simp] theorem State.writeTest_fast (e : Word) (a : Bool) : (s.writeTest e a).fast = s.fast := rfl
@[simp] theorem State.writeTest_work (e : Word) (a : Bool) : (s.writeTest e a).work = s.work := rfl
@[simp] theorem State.writeTest_rti (e : Word) (a : Bool) : (s.writeTest e a).rti = s.rti := rfl
@[simp] theorem State.writeTest_urom (e : Word) (a : Bool) : (s.writeTest e a).urom = s.urom := rfl
@[simp] theorem State.writeTest_upc (e : Word) (a : Bool) : (s.writeTest e a).upc = s.upc := rfl
@[simp] theorem State.writeTest_rs (e : Word) (a : Bool) : (s.writeTest e a).rs = s.rs := rfl
@[simp] theorem State.writeTest_faultRec (e : Word) (a : Bool) : (s.writeTest e a).faultRec = s.faultRec := rfl
@[simp] theorem State.writeTest_chk (e : Word) (a : Bool) : (s.writeTest e a).chk = s.chk := rfl
@[simp] theorem State.writeTest_inv (e : Word) (a : Bool) : (s.writeTest e a).inv = s.inv := rfl
@[simp] theorem State.writeTest_tbl (e : Word) (a : Bool) : (s.writeTest e a).tbl = s.tbl := rfl
@[simp] theorem State.writeTest_tlen (e : Word) (a : Bool) : (s.writeTest e a).tlen = s.tlen := rfl
@[simp] theorem State.writeTest_raw (e : Word) (a : Bool) : (s.writeTest e a).raw = s.raw := rfl
@[simp] theorem State.writeTest_eff (e : Word) (a : Bool) : (s.writeTest e a).eff = .holds e := rfl
@[simp] theorem State.writeTest_dat (e : Word) (a : Bool) : (s.writeTest e a).dat = s.dat := rfl
@[simp] theorem State.writeTest_prev (e : Word) (a : Bool) : (s.writeTest e a).prev = s.prev := rfl
@[simp] theorem State.writeTest_act (e : Word) (a : Bool) : (s.writeTest e a).act = .holds a := rfl
@[simp] theorem State.writeTest_mode (e : Word) (a : Bool) : (s.writeTest e a).mode = s.mode := rfl
@[simp] theorem State.writeTest_sel (e : Word) (a : Bool) : (s.writeTest e a).sel = s.sel := rfl
@[simp] theorem State.writeTest_set (e : Word) (a : Bool) : (s.writeTest e a).set = s.set := rfl
@[simp] theorem State.writeTest_warn (e : Word) (a : Bool) : (s.writeTest e a).warn = s.warn := rfl
@[simp] theorem State.writeTest_odr (e : Word) (a : Bool) : (s.writeTest e a).odr = s.odr := rfl
@[simp] theorem State.writeTest_dir (e : Word) (a : Bool) : (s.writeTest e a).dir = s.dir := rfl
@[simp] theorem State.writeTest_strap (e : Word) (a : Bool) : (s.writeTest e a).strap = s.strap := rfl
@[simp] theorem State.writeTest_samples (e : Word) (a : Bool) : (s.writeTest e a).samples = s.samples := rfl
@[simp] theorem State.writeTest_sampleCount (e : Word) (a : Bool) : (s.writeTest e a).sampleCount = s.sampleCount := rfl
@[simp] theorem State.writeTest_ticks (e : Word) (a : Bool) : (s.writeTest e a).ticks = s.ticks := rfl
@[simp] theorem State.writeTest_freeCount (e : Word) (a : Bool) : (s.writeTest e a).freeCount = s.freeCount := rfl
@[simp] theorem State.writeTest_boots (e : Word) (a : Bool) : (s.writeTest e a).boots = s.boots := rfl
@[simp] theorem State.writeTest_trace (e : Word) (a : Bool) : (s.writeTest e a).trace = s.trace := rfl

/-! ### `writePrev` -/

@[simp] theorem State.writePrev_cfg (v : Word) : (s.writePrev v).cfg = s.cfg := rfl
@[simp] theorem State.writePrev_store (v : Word) : (s.writePrev v).store = s.store := rfl
@[simp] theorem State.writePrev_fast (v : Word) : (s.writePrev v).fast = s.fast := rfl
@[simp] theorem State.writePrev_work (v : Word) : (s.writePrev v).work = s.work := rfl
@[simp] theorem State.writePrev_rti (v : Word) : (s.writePrev v).rti = s.rti := rfl
@[simp] theorem State.writePrev_urom (v : Word) : (s.writePrev v).urom = s.urom := rfl
@[simp] theorem State.writePrev_upc (v : Word) : (s.writePrev v).upc = s.upc := rfl
@[simp] theorem State.writePrev_rs (v : Word) : (s.writePrev v).rs = s.rs := rfl
@[simp] theorem State.writePrev_faultRec (v : Word) : (s.writePrev v).faultRec = s.faultRec := rfl
@[simp] theorem State.writePrev_chk (v : Word) : (s.writePrev v).chk = s.chk := rfl
@[simp] theorem State.writePrev_inv (v : Word) : (s.writePrev v).inv = s.inv := rfl
@[simp] theorem State.writePrev_tbl (v : Word) : (s.writePrev v).tbl = s.tbl := rfl
@[simp] theorem State.writePrev_tlen (v : Word) : (s.writePrev v).tlen = s.tlen := rfl
@[simp] theorem State.writePrev_raw (v : Word) : (s.writePrev v).raw = s.raw := rfl
@[simp] theorem State.writePrev_eff (v : Word) : (s.writePrev v).eff = s.eff := rfl
@[simp] theorem State.writePrev_dat (v : Word) : (s.writePrev v).dat = s.dat := rfl
@[simp] theorem State.writePrev_prev (v : Word) : (s.writePrev v).prev = .holds v := rfl
@[simp] theorem State.writePrev_act (v : Word) : (s.writePrev v).act = s.act := rfl
@[simp] theorem State.writePrev_mode (v : Word) : (s.writePrev v).mode = s.mode := rfl
@[simp] theorem State.writePrev_sel (v : Word) : (s.writePrev v).sel = s.sel := rfl
@[simp] theorem State.writePrev_set (v : Word) : (s.writePrev v).set = s.set := rfl
@[simp] theorem State.writePrev_warn (v : Word) : (s.writePrev v).warn = s.warn := rfl
@[simp] theorem State.writePrev_odr (v : Word) : (s.writePrev v).odr = s.odr := rfl
@[simp] theorem State.writePrev_dir (v : Word) : (s.writePrev v).dir = s.dir := rfl
@[simp] theorem State.writePrev_strap (v : Word) : (s.writePrev v).strap = s.strap := rfl
@[simp] theorem State.writePrev_samples (v : Word) : (s.writePrev v).samples = s.samples := rfl
@[simp] theorem State.writePrev_sampleCount (v : Word) : (s.writePrev v).sampleCount = s.sampleCount := rfl
@[simp] theorem State.writePrev_ticks (v : Word) : (s.writePrev v).ticks = s.ticks := rfl
@[simp] theorem State.writePrev_freeCount (v : Word) : (s.writePrev v).freeCount = s.freeCount := rfl
@[simp] theorem State.writePrev_boots (v : Word) : (s.writePrev v).boots = s.boots := rfl
@[simp] theorem State.writePrev_trace (v : Word) : (s.writePrev v).trace = s.trace := rfl

/-! ### `writeDat` -/

@[simp] theorem State.writeDat_cfg (v : Word) : (s.writeDat v).cfg = s.cfg := rfl
@[simp] theorem State.writeDat_store (v : Word) : (s.writeDat v).store = s.store := rfl
@[simp] theorem State.writeDat_fast (v : Word) : (s.writeDat v).fast = s.fast := rfl
@[simp] theorem State.writeDat_work (v : Word) : (s.writeDat v).work = s.work := rfl
@[simp] theorem State.writeDat_rti (v : Word) : (s.writeDat v).rti = s.rti := rfl
@[simp] theorem State.writeDat_urom (v : Word) : (s.writeDat v).urom = s.urom := rfl
@[simp] theorem State.writeDat_upc (v : Word) : (s.writeDat v).upc = s.upc := rfl
@[simp] theorem State.writeDat_rs (v : Word) : (s.writeDat v).rs = s.rs := rfl
@[simp] theorem State.writeDat_faultRec (v : Word) : (s.writeDat v).faultRec = s.faultRec := rfl
@[simp] theorem State.writeDat_chk (v : Word) : (s.writeDat v).chk = s.chk := rfl
@[simp] theorem State.writeDat_inv (v : Word) : (s.writeDat v).inv = s.inv := rfl
@[simp] theorem State.writeDat_tbl (v : Word) : (s.writeDat v).tbl = s.tbl := rfl
@[simp] theorem State.writeDat_tlen (v : Word) : (s.writeDat v).tlen = s.tlen := rfl
@[simp] theorem State.writeDat_raw (v : Word) : (s.writeDat v).raw = s.raw := rfl
@[simp] theorem State.writeDat_eff (v : Word) : (s.writeDat v).eff = s.eff := rfl
@[simp] theorem State.writeDat_dat (v : Word) : (s.writeDat v).dat = .holds v := rfl
@[simp] theorem State.writeDat_prev (v : Word) : (s.writeDat v).prev = s.prev := rfl
@[simp] theorem State.writeDat_act (v : Word) : (s.writeDat v).act = s.act := rfl
@[simp] theorem State.writeDat_mode (v : Word) : (s.writeDat v).mode = s.mode := rfl
@[simp] theorem State.writeDat_sel (v : Word) : (s.writeDat v).sel = s.sel := rfl
@[simp] theorem State.writeDat_set (v : Word) : (s.writeDat v).set = s.set := rfl
@[simp] theorem State.writeDat_warn (v : Word) : (s.writeDat v).warn = s.warn := rfl
@[simp] theorem State.writeDat_odr (v : Word) : (s.writeDat v).odr = s.odr := rfl
@[simp] theorem State.writeDat_dir (v : Word) : (s.writeDat v).dir = s.dir := rfl
@[simp] theorem State.writeDat_strap (v : Word) : (s.writeDat v).strap = s.strap := rfl
@[simp] theorem State.writeDat_samples (v : Word) : (s.writeDat v).samples = s.samples := rfl
@[simp] theorem State.writeDat_sampleCount (v : Word) : (s.writeDat v).sampleCount = s.sampleCount := rfl
@[simp] theorem State.writeDat_ticks (v : Word) : (s.writeDat v).ticks = s.ticks := rfl
@[simp] theorem State.writeDat_freeCount (v : Word) : (s.writeDat v).freeCount = s.freeCount := rfl
@[simp] theorem State.writeDat_boots (v : Word) : (s.writeDat v).boots = s.boots := rfl
@[simp] theorem State.writeDat_trace (v : Word) : (s.writeDat v).trace = s.trace := rfl

/-! ### `writeTbl` -/

@[simp] theorem State.writeTbl_cfg (v : Word) : (s.writeTbl v).cfg = s.cfg := rfl
@[simp] theorem State.writeTbl_store (v : Word) : (s.writeTbl v).store = s.store := rfl
@[simp] theorem State.writeTbl_fast (v : Word) : (s.writeTbl v).fast = s.fast := rfl
@[simp] theorem State.writeTbl_work (v : Word) : (s.writeTbl v).work = s.work := rfl
@[simp] theorem State.writeTbl_rti (v : Word) : (s.writeTbl v).rti = s.rti := rfl
@[simp] theorem State.writeTbl_urom (v : Word) : (s.writeTbl v).urom = s.urom := rfl
@[simp] theorem State.writeTbl_upc (v : Word) : (s.writeTbl v).upc = s.upc := rfl
@[simp] theorem State.writeTbl_rs (v : Word) : (s.writeTbl v).rs = s.rs := rfl
@[simp] theorem State.writeTbl_faultRec (v : Word) : (s.writeTbl v).faultRec = s.faultRec := rfl
@[simp] theorem State.writeTbl_chk (v : Word) : (s.writeTbl v).chk = s.chk := rfl
@[simp] theorem State.writeTbl_inv (v : Word) : (s.writeTbl v).inv = s.inv := rfl
@[simp] theorem State.writeTbl_tbl (v : Word) : (s.writeTbl v).tbl = .holds v := rfl
@[simp] theorem State.writeTbl_tlen (v : Word) : (s.writeTbl v).tlen = s.tlen := rfl
@[simp] theorem State.writeTbl_raw (v : Word) : (s.writeTbl v).raw = s.raw := rfl
@[simp] theorem State.writeTbl_eff (v : Word) : (s.writeTbl v).eff = s.eff := rfl
@[simp] theorem State.writeTbl_dat (v : Word) : (s.writeTbl v).dat = s.dat := rfl
@[simp] theorem State.writeTbl_prev (v : Word) : (s.writeTbl v).prev = s.prev := rfl
@[simp] theorem State.writeTbl_act (v : Word) : (s.writeTbl v).act = s.act := rfl
@[simp] theorem State.writeTbl_mode (v : Word) : (s.writeTbl v).mode = s.mode := rfl
@[simp] theorem State.writeTbl_sel (v : Word) : (s.writeTbl v).sel = s.sel := rfl
@[simp] theorem State.writeTbl_set (v : Word) : (s.writeTbl v).set = s.set := rfl
@[simp] theorem State.writeTbl_warn (v : Word) : (s.writeTbl v).warn = s.warn := rfl
@[simp] theorem State.writeTbl_odr (v : Word) : (s.writeTbl v).odr = s.odr := rfl
@[simp] theorem State.writeTbl_dir (v : Word) : (s.writeTbl v).dir = s.dir := rfl
@[simp] theorem State.writeTbl_strap (v : Word) : (s.writeTbl v).strap = s.strap := rfl
@[simp] theorem State.writeTbl_samples (v : Word) : (s.writeTbl v).samples = s.samples := rfl
@[simp] theorem State.writeTbl_sampleCount (v : Word) : (s.writeTbl v).sampleCount = s.sampleCount := rfl
@[simp] theorem State.writeTbl_ticks (v : Word) : (s.writeTbl v).ticks = s.ticks := rfl
@[simp] theorem State.writeTbl_freeCount (v : Word) : (s.writeTbl v).freeCount = s.freeCount := rfl
@[simp] theorem State.writeTbl_boots (v : Word) : (s.writeTbl v).boots = s.boots := rfl
@[simp] theorem State.writeTbl_trace (v : Word) : (s.writeTbl v).trace = s.trace := rfl

/-! ### `writeTlen` -/

@[simp] theorem State.writeTlen_cfg (v : Word) : (s.writeTlen v).cfg = s.cfg := rfl
@[simp] theorem State.writeTlen_store (v : Word) : (s.writeTlen v).store = s.store := rfl
@[simp] theorem State.writeTlen_fast (v : Word) : (s.writeTlen v).fast = s.fast := rfl
@[simp] theorem State.writeTlen_work (v : Word) : (s.writeTlen v).work = s.work := rfl
@[simp] theorem State.writeTlen_rti (v : Word) : (s.writeTlen v).rti = s.rti := rfl
@[simp] theorem State.writeTlen_urom (v : Word) : (s.writeTlen v).urom = s.urom := rfl
@[simp] theorem State.writeTlen_upc (v : Word) : (s.writeTlen v).upc = s.upc := rfl
@[simp] theorem State.writeTlen_rs (v : Word) : (s.writeTlen v).rs = s.rs := rfl
@[simp] theorem State.writeTlen_faultRec (v : Word) : (s.writeTlen v).faultRec = s.faultRec := rfl
@[simp] theorem State.writeTlen_chk (v : Word) : (s.writeTlen v).chk = s.chk := rfl
@[simp] theorem State.writeTlen_inv (v : Word) : (s.writeTlen v).inv = s.inv := rfl
@[simp] theorem State.writeTlen_tbl (v : Word) : (s.writeTlen v).tbl = s.tbl := rfl
@[simp] theorem State.writeTlen_tlen (v : Word) : (s.writeTlen v).tlen = .holds v := rfl
@[simp] theorem State.writeTlen_raw (v : Word) : (s.writeTlen v).raw = s.raw := rfl
@[simp] theorem State.writeTlen_eff (v : Word) : (s.writeTlen v).eff = s.eff := rfl
@[simp] theorem State.writeTlen_dat (v : Word) : (s.writeTlen v).dat = s.dat := rfl
@[simp] theorem State.writeTlen_prev (v : Word) : (s.writeTlen v).prev = s.prev := rfl
@[simp] theorem State.writeTlen_act (v : Word) : (s.writeTlen v).act = s.act := rfl
@[simp] theorem State.writeTlen_mode (v : Word) : (s.writeTlen v).mode = s.mode := rfl
@[simp] theorem State.writeTlen_sel (v : Word) : (s.writeTlen v).sel = s.sel := rfl
@[simp] theorem State.writeTlen_set (v : Word) : (s.writeTlen v).set = s.set := rfl
@[simp] theorem State.writeTlen_warn (v : Word) : (s.writeTlen v).warn = s.warn := rfl
@[simp] theorem State.writeTlen_odr (v : Word) : (s.writeTlen v).odr = s.odr := rfl
@[simp] theorem State.writeTlen_dir (v : Word) : (s.writeTlen v).dir = s.dir := rfl
@[simp] theorem State.writeTlen_strap (v : Word) : (s.writeTlen v).strap = s.strap := rfl
@[simp] theorem State.writeTlen_samples (v : Word) : (s.writeTlen v).samples = s.samples := rfl
@[simp] theorem State.writeTlen_sampleCount (v : Word) : (s.writeTlen v).sampleCount = s.sampleCount := rfl
@[simp] theorem State.writeTlen_ticks (v : Word) : (s.writeTlen v).ticks = s.ticks := rfl
@[simp] theorem State.writeTlen_freeCount (v : Word) : (s.writeTlen v).freeCount = s.freeCount := rfl
@[simp] theorem State.writeTlen_boots (v : Word) : (s.writeTlen v).boots = s.boots := rfl
@[simp] theorem State.writeTlen_trace (v : Word) : (s.writeTlen v).trace = s.trace := rfl

/-! ### `writeSel` -/

@[simp] theorem State.writeSel_cfg (v : Word) : (s.writeSel v).cfg = s.cfg := rfl
@[simp] theorem State.writeSel_store (v : Word) : (s.writeSel v).store = s.store := rfl
@[simp] theorem State.writeSel_fast (v : Word) : (s.writeSel v).fast = s.fast := rfl
@[simp] theorem State.writeSel_work (v : Word) : (s.writeSel v).work = s.work := rfl
@[simp] theorem State.writeSel_rti (v : Word) : (s.writeSel v).rti = s.rti := rfl
@[simp] theorem State.writeSel_urom (v : Word) : (s.writeSel v).urom = s.urom := rfl
@[simp] theorem State.writeSel_upc (v : Word) : (s.writeSel v).upc = s.upc := rfl
@[simp] theorem State.writeSel_rs (v : Word) : (s.writeSel v).rs = s.rs := rfl
@[simp] theorem State.writeSel_faultRec (v : Word) : (s.writeSel v).faultRec = s.faultRec := rfl
@[simp] theorem State.writeSel_chk (v : Word) : (s.writeSel v).chk = s.chk := rfl
@[simp] theorem State.writeSel_inv (v : Word) : (s.writeSel v).inv = s.inv := rfl
@[simp] theorem State.writeSel_tbl (v : Word) : (s.writeSel v).tbl = s.tbl := rfl
@[simp] theorem State.writeSel_tlen (v : Word) : (s.writeSel v).tlen = s.tlen := rfl
@[simp] theorem State.writeSel_raw (v : Word) : (s.writeSel v).raw = s.raw := rfl
@[simp] theorem State.writeSel_eff (v : Word) : (s.writeSel v).eff = s.eff := rfl
@[simp] theorem State.writeSel_dat (v : Word) : (s.writeSel v).dat = s.dat := rfl
@[simp] theorem State.writeSel_prev (v : Word) : (s.writeSel v).prev = s.prev := rfl
@[simp] theorem State.writeSel_act (v : Word) : (s.writeSel v).act = s.act := rfl
@[simp] theorem State.writeSel_mode (v : Word) : (s.writeSel v).mode = s.mode := rfl
@[simp] theorem State.writeSel_sel (v : Word) : (s.writeSel v).sel = .holds v := rfl
@[simp] theorem State.writeSel_set (v : Word) : (s.writeSel v).set = s.set := rfl
@[simp] theorem State.writeSel_warn (v : Word) : (s.writeSel v).warn = s.warn := rfl
@[simp] theorem State.writeSel_odr (v : Word) : (s.writeSel v).odr = s.odr := rfl
@[simp] theorem State.writeSel_dir (v : Word) : (s.writeSel v).dir = s.dir := rfl
@[simp] theorem State.writeSel_strap (v : Word) : (s.writeSel v).strap = s.strap := rfl
@[simp] theorem State.writeSel_samples (v : Word) : (s.writeSel v).samples = s.samples := rfl
@[simp] theorem State.writeSel_sampleCount (v : Word) : (s.writeSel v).sampleCount = s.sampleCount := rfl
@[simp] theorem State.writeSel_ticks (v : Word) : (s.writeSel v).ticks = s.ticks := rfl
@[simp] theorem State.writeSel_freeCount (v : Word) : (s.writeSel v).freeCount = s.freeCount := rfl
@[simp] theorem State.writeSel_boots (v : Word) : (s.writeSel v).boots = s.boots := rfl
@[simp] theorem State.writeSel_trace (v : Word) : (s.writeSel v).trace = s.trace := rfl

/-! ### `writeSet` -/

@[simp] theorem State.writeSet_cfg (v : Word) : (s.writeSet v).cfg = s.cfg := rfl
@[simp] theorem State.writeSet_store (v : Word) : (s.writeSet v).store = s.store := rfl
@[simp] theorem State.writeSet_fast (v : Word) : (s.writeSet v).fast = s.fast := rfl
@[simp] theorem State.writeSet_work (v : Word) : (s.writeSet v).work = s.work := rfl
@[simp] theorem State.writeSet_rti (v : Word) : (s.writeSet v).rti = s.rti := rfl
@[simp] theorem State.writeSet_urom (v : Word) : (s.writeSet v).urom = s.urom := rfl
@[simp] theorem State.writeSet_upc (v : Word) : (s.writeSet v).upc = s.upc := rfl
@[simp] theorem State.writeSet_rs (v : Word) : (s.writeSet v).rs = s.rs := rfl
@[simp] theorem State.writeSet_faultRec (v : Word) : (s.writeSet v).faultRec = s.faultRec := rfl
@[simp] theorem State.writeSet_chk (v : Word) : (s.writeSet v).chk = s.chk := rfl
@[simp] theorem State.writeSet_inv (v : Word) : (s.writeSet v).inv = s.inv := rfl
@[simp] theorem State.writeSet_tbl (v : Word) : (s.writeSet v).tbl = s.tbl := rfl
@[simp] theorem State.writeSet_tlen (v : Word) : (s.writeSet v).tlen = s.tlen := rfl
@[simp] theorem State.writeSet_raw (v : Word) : (s.writeSet v).raw = s.raw := rfl
@[simp] theorem State.writeSet_eff (v : Word) : (s.writeSet v).eff = s.eff := rfl
@[simp] theorem State.writeSet_dat (v : Word) : (s.writeSet v).dat = s.dat := rfl
@[simp] theorem State.writeSet_prev (v : Word) : (s.writeSet v).prev = s.prev := rfl
@[simp] theorem State.writeSet_act (v : Word) : (s.writeSet v).act = s.act := rfl
@[simp] theorem State.writeSet_mode (v : Word) : (s.writeSet v).mode = s.mode := rfl
@[simp] theorem State.writeSet_sel (v : Word) : (s.writeSet v).sel = s.sel := rfl
@[simp] theorem State.writeSet_set (v : Word) : (s.writeSet v).set = .holds v := rfl
@[simp] theorem State.writeSet_warn (v : Word) : (s.writeSet v).warn = s.warn := rfl
@[simp] theorem State.writeSet_odr (v : Word) : (s.writeSet v).odr = s.odr := rfl
@[simp] theorem State.writeSet_dir (v : Word) : (s.writeSet v).dir = s.dir := rfl
@[simp] theorem State.writeSet_strap (v : Word) : (s.writeSet v).strap = s.strap := rfl
@[simp] theorem State.writeSet_samples (v : Word) : (s.writeSet v).samples = s.samples := rfl
@[simp] theorem State.writeSet_sampleCount (v : Word) : (s.writeSet v).sampleCount = s.sampleCount := rfl
@[simp] theorem State.writeSet_ticks (v : Word) : (s.writeSet v).ticks = s.ticks := rfl
@[simp] theorem State.writeSet_freeCount (v : Word) : (s.writeSet v).freeCount = s.freeCount := rfl
@[simp] theorem State.writeSet_boots (v : Word) : (s.writeSet v).boots = s.boots := rfl
@[simp] theorem State.writeSet_trace (v : Word) : (s.writeSet v).trace = s.trace := rfl

/-! ### `writeMode` -/

@[simp] theorem State.writeMode_cfg (m : ServeMode) : (s.writeMode m).cfg = s.cfg := rfl
@[simp] theorem State.writeMode_store (m : ServeMode) : (s.writeMode m).store = s.store := rfl
@[simp] theorem State.writeMode_fast (m : ServeMode) : (s.writeMode m).fast = s.fast := rfl
@[simp] theorem State.writeMode_work (m : ServeMode) : (s.writeMode m).work = s.work := rfl
@[simp] theorem State.writeMode_rti (m : ServeMode) : (s.writeMode m).rti = s.rti := rfl
@[simp] theorem State.writeMode_urom (m : ServeMode) : (s.writeMode m).urom = s.urom := rfl
@[simp] theorem State.writeMode_upc (m : ServeMode) : (s.writeMode m).upc = s.upc := rfl
@[simp] theorem State.writeMode_rs (m : ServeMode) : (s.writeMode m).rs = s.rs := rfl
@[simp] theorem State.writeMode_faultRec (m : ServeMode) : (s.writeMode m).faultRec = s.faultRec := rfl
@[simp] theorem State.writeMode_chk (m : ServeMode) : (s.writeMode m).chk = s.chk := rfl
@[simp] theorem State.writeMode_inv (m : ServeMode) : (s.writeMode m).inv = s.inv := rfl
@[simp] theorem State.writeMode_tbl (m : ServeMode) : (s.writeMode m).tbl = s.tbl := rfl
@[simp] theorem State.writeMode_tlen (m : ServeMode) : (s.writeMode m).tlen = s.tlen := rfl
@[simp] theorem State.writeMode_raw (m : ServeMode) : (s.writeMode m).raw = s.raw := rfl
@[simp] theorem State.writeMode_eff (m : ServeMode) : (s.writeMode m).eff = s.eff := rfl
@[simp] theorem State.writeMode_dat (m : ServeMode) : (s.writeMode m).dat = s.dat := rfl
@[simp] theorem State.writeMode_prev (m : ServeMode) : (s.writeMode m).prev = s.prev := rfl
@[simp] theorem State.writeMode_act (m : ServeMode) : (s.writeMode m).act = s.act := rfl
@[simp] theorem State.writeMode_mode (m : ServeMode) : (s.writeMode m).mode = .holds m := rfl
@[simp] theorem State.writeMode_sel (m : ServeMode) : (s.writeMode m).sel = s.sel := rfl
@[simp] theorem State.writeMode_set (m : ServeMode) : (s.writeMode m).set = s.set := rfl
@[simp] theorem State.writeMode_warn (m : ServeMode) : (s.writeMode m).warn = s.warn := rfl
@[simp] theorem State.writeMode_odr (m : ServeMode) : (s.writeMode m).odr = s.odr := rfl
@[simp] theorem State.writeMode_dir (m : ServeMode) : (s.writeMode m).dir = s.dir := rfl
@[simp] theorem State.writeMode_strap (m : ServeMode) : (s.writeMode m).strap = s.strap := rfl
@[simp] theorem State.writeMode_samples (m : ServeMode) : (s.writeMode m).samples = s.samples := rfl
@[simp] theorem State.writeMode_sampleCount (m : ServeMode) : (s.writeMode m).sampleCount = s.sampleCount := rfl
@[simp] theorem State.writeMode_ticks (m : ServeMode) : (s.writeMode m).ticks = s.ticks := rfl
@[simp] theorem State.writeMode_freeCount (m : ServeMode) : (s.writeMode m).freeCount = s.freeCount := rfl
@[simp] theorem State.writeMode_boots (m : ServeMode) : (s.writeMode m).boots = s.boots := rfl
@[simp] theorem State.writeMode_trace (m : ServeMode) : (s.writeMode m).trace = s.trace := rfl

/-! ### `writeMasks` -/

@[simp] theorem State.writeMasks_cfg (c i : Word) : (s.writeMasks c i).cfg = s.cfg := rfl
@[simp] theorem State.writeMasks_store (c i : Word) : (s.writeMasks c i).store = s.store := rfl
@[simp] theorem State.writeMasks_fast (c i : Word) : (s.writeMasks c i).fast = s.fast := rfl
@[simp] theorem State.writeMasks_work (c i : Word) : (s.writeMasks c i).work = s.work := rfl
@[simp] theorem State.writeMasks_rti (c i : Word) : (s.writeMasks c i).rti = s.rti := rfl
@[simp] theorem State.writeMasks_urom (c i : Word) : (s.writeMasks c i).urom = s.urom := rfl
@[simp] theorem State.writeMasks_upc (c i : Word) : (s.writeMasks c i).upc = s.upc := rfl
@[simp] theorem State.writeMasks_rs (c i : Word) : (s.writeMasks c i).rs = s.rs := rfl
@[simp] theorem State.writeMasks_faultRec (c i : Word) : (s.writeMasks c i).faultRec = s.faultRec := rfl
@[simp] theorem State.writeMasks_chk (c i : Word) : (s.writeMasks c i).chk = .holds c := rfl
@[simp] theorem State.writeMasks_inv (c i : Word) : (s.writeMasks c i).inv = .holds i := rfl
@[simp] theorem State.writeMasks_tbl (c i : Word) : (s.writeMasks c i).tbl = s.tbl := rfl
@[simp] theorem State.writeMasks_tlen (c i : Word) : (s.writeMasks c i).tlen = s.tlen := rfl
@[simp] theorem State.writeMasks_raw (c i : Word) : (s.writeMasks c i).raw = s.raw := rfl
@[simp] theorem State.writeMasks_eff (c i : Word) : (s.writeMasks c i).eff = s.eff := rfl
@[simp] theorem State.writeMasks_dat (c i : Word) : (s.writeMasks c i).dat = s.dat := rfl
@[simp] theorem State.writeMasks_prev (c i : Word) : (s.writeMasks c i).prev = s.prev := rfl
@[simp] theorem State.writeMasks_act (c i : Word) : (s.writeMasks c i).act = s.act := rfl
@[simp] theorem State.writeMasks_mode (c i : Word) : (s.writeMasks c i).mode = s.mode := rfl
@[simp] theorem State.writeMasks_sel (c i : Word) : (s.writeMasks c i).sel = s.sel := rfl
@[simp] theorem State.writeMasks_set (c i : Word) : (s.writeMasks c i).set = s.set := rfl
@[simp] theorem State.writeMasks_warn (c i : Word) : (s.writeMasks c i).warn = s.warn := rfl
@[simp] theorem State.writeMasks_odr (c i : Word) : (s.writeMasks c i).odr = s.odr := rfl
@[simp] theorem State.writeMasks_dir (c i : Word) : (s.writeMasks c i).dir = s.dir := rfl
@[simp] theorem State.writeMasks_strap (c i : Word) : (s.writeMasks c i).strap = s.strap := rfl
@[simp] theorem State.writeMasks_samples (c i : Word) : (s.writeMasks c i).samples = s.samples := rfl
@[simp] theorem State.writeMasks_sampleCount (c i : Word) : (s.writeMasks c i).sampleCount = s.sampleCount := rfl
@[simp] theorem State.writeMasks_ticks (c i : Word) : (s.writeMasks c i).ticks = s.ticks := rfl
@[simp] theorem State.writeMasks_freeCount (c i : Word) : (s.writeMasks c i).freeCount = s.freeCount := rfl
@[simp] theorem State.writeMasks_boots (c i : Word) : (s.writeMasks c i).boots = s.boots := rfl
@[simp] theorem State.writeMasks_trace (c i : Word) : (s.writeMasks c i).trace = s.trace := rfl

/-! ### `writeRs` -/

@[simp] theorem State.writeRs_cfg (r : RunState) : (s.writeRs r).cfg = s.cfg := rfl
@[simp] theorem State.writeRs_store (r : RunState) : (s.writeRs r).store = s.store := rfl
@[simp] theorem State.writeRs_fast (r : RunState) : (s.writeRs r).fast = s.fast := rfl
@[simp] theorem State.writeRs_work (r : RunState) : (s.writeRs r).work = s.work := rfl
@[simp] theorem State.writeRs_rti (r : RunState) : (s.writeRs r).rti = s.rti := rfl
@[simp] theorem State.writeRs_urom (r : RunState) : (s.writeRs r).urom = s.urom := rfl
@[simp] theorem State.writeRs_upc (r : RunState) : (s.writeRs r).upc = s.upc := rfl
@[simp] theorem State.writeRs_rs (r : RunState) : (s.writeRs r).rs = r := rfl
@[simp] theorem State.writeRs_faultRec (r : RunState) : (s.writeRs r).faultRec = s.faultRec := rfl
@[simp] theorem State.writeRs_chk (r : RunState) : (s.writeRs r).chk = s.chk := rfl
@[simp] theorem State.writeRs_inv (r : RunState) : (s.writeRs r).inv = s.inv := rfl
@[simp] theorem State.writeRs_tbl (r : RunState) : (s.writeRs r).tbl = s.tbl := rfl
@[simp] theorem State.writeRs_tlen (r : RunState) : (s.writeRs r).tlen = s.tlen := rfl
@[simp] theorem State.writeRs_raw (r : RunState) : (s.writeRs r).raw = s.raw := rfl
@[simp] theorem State.writeRs_eff (r : RunState) : (s.writeRs r).eff = s.eff := rfl
@[simp] theorem State.writeRs_dat (r : RunState) : (s.writeRs r).dat = s.dat := rfl
@[simp] theorem State.writeRs_prev (r : RunState) : (s.writeRs r).prev = s.prev := rfl
@[simp] theorem State.writeRs_act (r : RunState) : (s.writeRs r).act = s.act := rfl
@[simp] theorem State.writeRs_mode (r : RunState) : (s.writeRs r).mode = s.mode := rfl
@[simp] theorem State.writeRs_sel (r : RunState) : (s.writeRs r).sel = s.sel := rfl
@[simp] theorem State.writeRs_set (r : RunState) : (s.writeRs r).set = s.set := rfl
@[simp] theorem State.writeRs_warn (r : RunState) : (s.writeRs r).warn = s.warn := rfl
@[simp] theorem State.writeRs_odr (r : RunState) : (s.writeRs r).odr = s.odr := rfl
@[simp] theorem State.writeRs_dir (r : RunState) : (s.writeRs r).dir = s.dir := rfl
@[simp] theorem State.writeRs_strap (r : RunState) : (s.writeRs r).strap = s.strap := rfl
@[simp] theorem State.writeRs_samples (r : RunState) : (s.writeRs r).samples = s.samples := rfl
@[simp] theorem State.writeRs_sampleCount (r : RunState) : (s.writeRs r).sampleCount = s.sampleCount := rfl
@[simp] theorem State.writeRs_ticks (r : RunState) : (s.writeRs r).ticks = s.ticks := rfl
@[simp] theorem State.writeRs_freeCount (r : RunState) : (s.writeRs r).freeCount = s.freeCount := rfl
@[simp] theorem State.writeRs_boots (r : RunState) : (s.writeRs r).boots = s.boots := rfl
@[simp] theorem State.writeRs_trace (r : RunState) : (s.writeRs r).trace = s.trace := rfl

/-! ### `warned` -/

@[simp] theorem State.warned_cfg (bits : Word) : (s.warned bits).cfg = s.cfg := rfl
@[simp] theorem State.warned_store (bits : Word) : (s.warned bits).store = s.store := rfl
@[simp] theorem State.warned_fast (bits : Word) : (s.warned bits).fast = s.fast := rfl
@[simp] theorem State.warned_work (bits : Word) : (s.warned bits).work = s.work := rfl
@[simp] theorem State.warned_rti (bits : Word) : (s.warned bits).rti = s.rti := rfl
@[simp] theorem State.warned_urom (bits : Word) : (s.warned bits).urom = s.urom := rfl
@[simp] theorem State.warned_upc (bits : Word) : (s.warned bits).upc = s.upc := rfl
@[simp] theorem State.warned_rs (bits : Word) : (s.warned bits).rs = s.rs := rfl
@[simp] theorem State.warned_faultRec (bits : Word) : (s.warned bits).faultRec = s.faultRec := rfl
@[simp] theorem State.warned_chk (bits : Word) : (s.warned bits).chk = s.chk := rfl
@[simp] theorem State.warned_inv (bits : Word) : (s.warned bits).inv = s.inv := rfl
@[simp] theorem State.warned_tbl (bits : Word) : (s.warned bits).tbl = s.tbl := rfl
@[simp] theorem State.warned_tlen (bits : Word) : (s.warned bits).tlen = s.tlen := rfl
@[simp] theorem State.warned_raw (bits : Word) : (s.warned bits).raw = s.raw := rfl
@[simp] theorem State.warned_eff (bits : Word) : (s.warned bits).eff = s.eff := rfl
@[simp] theorem State.warned_dat (bits : Word) : (s.warned bits).dat = s.dat := rfl
@[simp] theorem State.warned_prev (bits : Word) : (s.warned bits).prev = s.prev := rfl
@[simp] theorem State.warned_act (bits : Word) : (s.warned bits).act = s.act := rfl
@[simp] theorem State.warned_mode (bits : Word) : (s.warned bits).mode = s.mode := rfl
@[simp] theorem State.warned_sel (bits : Word) : (s.warned bits).sel = s.sel := rfl
@[simp] theorem State.warned_set (bits : Word) : (s.warned bits).set = s.set := rfl
@[simp] theorem State.warned_warn (bits : Word) : (s.warned bits).warn = s.warn ||| bits := rfl
@[simp] theorem State.warned_odr (bits : Word) : (s.warned bits).odr = s.odr := rfl
@[simp] theorem State.warned_dir (bits : Word) : (s.warned bits).dir = s.dir := rfl
@[simp] theorem State.warned_strap (bits : Word) : (s.warned bits).strap = s.strap := rfl
@[simp] theorem State.warned_samples (bits : Word) : (s.warned bits).samples = s.samples := rfl
@[simp] theorem State.warned_sampleCount (bits : Word) : (s.warned bits).sampleCount = s.sampleCount := rfl
@[simp] theorem State.warned_ticks (bits : Word) : (s.warned bits).ticks = s.ticks := rfl
@[simp] theorem State.warned_freeCount (bits : Word) : (s.warned bits).freeCount = s.freeCount := rfl
@[simp] theorem State.warned_boots (bits : Word) : (s.warned bits).boots = s.boots := rfl
@[simp] theorem State.warned_trace (bits : Word) : (s.warned bits).trace = s.trace := rfl

/-! ### `tookFree` -/

@[simp] theorem State.tookFree_cfg (n : Nat) : (s.tookFree n).cfg = s.cfg := rfl
@[simp] theorem State.tookFree_store (n : Nat) : (s.tookFree n).store = s.store := rfl
@[simp] theorem State.tookFree_fast (n : Nat) : (s.tookFree n).fast = s.fast := rfl
@[simp] theorem State.tookFree_work (n : Nat) : (s.tookFree n).work = s.work := rfl
@[simp] theorem State.tookFree_rti (n : Nat) : (s.tookFree n).rti = s.rti := rfl
@[simp] theorem State.tookFree_urom (n : Nat) : (s.tookFree n).urom = s.urom := rfl
@[simp] theorem State.tookFree_upc (n : Nat) : (s.tookFree n).upc = s.upc := rfl
@[simp] theorem State.tookFree_rs (n : Nat) : (s.tookFree n).rs = s.rs := rfl
@[simp] theorem State.tookFree_faultRec (n : Nat) : (s.tookFree n).faultRec = s.faultRec := rfl
@[simp] theorem State.tookFree_chk (n : Nat) : (s.tookFree n).chk = s.chk := rfl
@[simp] theorem State.tookFree_inv (n : Nat) : (s.tookFree n).inv = s.inv := rfl
@[simp] theorem State.tookFree_tbl (n : Nat) : (s.tookFree n).tbl = s.tbl := rfl
@[simp] theorem State.tookFree_tlen (n : Nat) : (s.tookFree n).tlen = s.tlen := rfl
@[simp] theorem State.tookFree_raw (n : Nat) : (s.tookFree n).raw = s.raw := rfl
@[simp] theorem State.tookFree_eff (n : Nat) : (s.tookFree n).eff = s.eff := rfl
@[simp] theorem State.tookFree_dat (n : Nat) : (s.tookFree n).dat = s.dat := rfl
@[simp] theorem State.tookFree_prev (n : Nat) : (s.tookFree n).prev = s.prev := rfl
@[simp] theorem State.tookFree_act (n : Nat) : (s.tookFree n).act = s.act := rfl
@[simp] theorem State.tookFree_mode (n : Nat) : (s.tookFree n).mode = s.mode := rfl
@[simp] theorem State.tookFree_sel (n : Nat) : (s.tookFree n).sel = s.sel := rfl
@[simp] theorem State.tookFree_set (n : Nat) : (s.tookFree n).set = s.set := rfl
@[simp] theorem State.tookFree_warn (n : Nat) : (s.tookFree n).warn = s.warn := rfl
@[simp] theorem State.tookFree_odr (n : Nat) : (s.tookFree n).odr = s.odr := rfl
@[simp] theorem State.tookFree_dir (n : Nat) : (s.tookFree n).dir = s.dir := rfl
@[simp] theorem State.tookFree_strap (n : Nat) : (s.tookFree n).strap = s.strap := rfl
@[simp] theorem State.tookFree_samples (n : Nat) : (s.tookFree n).samples = s.samples := rfl
@[simp] theorem State.tookFree_sampleCount (n : Nat) : (s.tookFree n).sampleCount = s.sampleCount := rfl
@[simp] theorem State.tookFree_ticks (n : Nat) : (s.tookFree n).ticks = s.ticks := rfl
@[simp] theorem State.tookFree_freeCount (n : Nat) : (s.tookFree n).freeCount = s.freeCount + n := rfl
@[simp] theorem State.tookFree_boots (n : Nat) : (s.tookFree n).boots = s.boots := rfl
@[simp] theorem State.tookFree_trace (n : Nat) : (s.tookFree n).trace = s.trace := rfl

/-! ### `raised` -/

@[simp] theorem State.raised_cfg (f : FaultRecord) : (s.raised f).cfg = s.cfg := rfl
@[simp] theorem State.raised_store (f : FaultRecord) : (s.raised f).store = s.store := rfl
@[simp] theorem State.raised_fast (f : FaultRecord) : (s.raised f).fast = s.fast := rfl
@[simp] theorem State.raised_work (f : FaultRecord) : (s.raised f).work = s.work := rfl
@[simp] theorem State.raised_rti (f : FaultRecord) : (s.raised f).rti = s.rti := rfl
@[simp] theorem State.raised_urom (f : FaultRecord) : (s.raised f).urom = s.urom := rfl
@[simp] theorem State.raised_upc (f : FaultRecord) : (s.raised f).upc = s.upc := rfl
@[simp] theorem State.raised_rs (f : FaultRecord) : (s.raised f).rs = .faulted := rfl
@[simp] theorem State.raised_faultRec (f : FaultRecord) : (s.raised f).faultRec = some f := rfl
@[simp] theorem State.raised_chk (f : FaultRecord) : (s.raised f).chk = s.chk := rfl
@[simp] theorem State.raised_inv (f : FaultRecord) : (s.raised f).inv = s.inv := rfl
@[simp] theorem State.raised_tbl (f : FaultRecord) : (s.raised f).tbl = s.tbl := rfl
@[simp] theorem State.raised_tlen (f : FaultRecord) : (s.raised f).tlen = s.tlen := rfl
@[simp] theorem State.raised_raw (f : FaultRecord) : (s.raised f).raw = s.raw := rfl
@[simp] theorem State.raised_eff (f : FaultRecord) : (s.raised f).eff = s.eff := rfl
@[simp] theorem State.raised_dat (f : FaultRecord) : (s.raised f).dat = s.dat := rfl
@[simp] theorem State.raised_prev (f : FaultRecord) : (s.raised f).prev = s.prev := rfl
@[simp] theorem State.raised_act (f : FaultRecord) : (s.raised f).act = s.act := rfl
@[simp] theorem State.raised_mode (f : FaultRecord) : (s.raised f).mode = s.mode := rfl
@[simp] theorem State.raised_sel (f : FaultRecord) : (s.raised f).sel = s.sel := rfl
@[simp] theorem State.raised_set (f : FaultRecord) : (s.raised f).set = s.set := rfl
@[simp] theorem State.raised_warn (f : FaultRecord) : (s.raised f).warn = s.warn := rfl
@[simp] theorem State.raised_odr (f : FaultRecord) : (s.raised f).odr = s.odr := rfl
@[simp] theorem State.raised_dir (f : FaultRecord) : (s.raised f).dir = s.dir := rfl
@[simp] theorem State.raised_strap (f : FaultRecord) : (s.raised f).strap = s.strap := rfl
@[simp] theorem State.raised_samples (f : FaultRecord) : (s.raised f).samples = s.samples := rfl
@[simp] theorem State.raised_sampleCount (f : FaultRecord) : (s.raised f).sampleCount = s.sampleCount := rfl
@[simp] theorem State.raised_ticks (f : FaultRecord) : (s.raised f).ticks = s.ticks := rfl
@[simp] theorem State.raised_freeCount (f : FaultRecord) : (s.raised f).freeCount = s.freeCount := rfl
@[simp] theorem State.raised_boots (f : FaultRecord) : (s.raised f).boots = s.boots := rfl
@[simp] theorem State.raised_trace (f : FaultRecord) : (s.raised f).trace = s.trace := rfl

/-! ### `tickPassed` -/

@[simp] theorem State.tickPassed_cfg : (s.tickPassed).cfg = s.cfg := rfl
@[simp] theorem State.tickPassed_store : (s.tickPassed).store = s.store := rfl
@[simp] theorem State.tickPassed_fast : (s.tickPassed).fast = s.fast := rfl
@[simp] theorem State.tickPassed_work : (s.tickPassed).work = s.work := rfl
@[simp] theorem State.tickPassed_rti : (s.tickPassed).rti = s.rti := rfl
@[simp] theorem State.tickPassed_urom : (s.tickPassed).urom = s.urom := rfl
@[simp] theorem State.tickPassed_upc : (s.tickPassed).upc = s.upc := rfl
@[simp] theorem State.tickPassed_rs : (s.tickPassed).rs = s.rs := rfl
@[simp] theorem State.tickPassed_faultRec : (s.tickPassed).faultRec = s.faultRec := rfl
@[simp] theorem State.tickPassed_chk : (s.tickPassed).chk = s.chk := rfl
@[simp] theorem State.tickPassed_inv : (s.tickPassed).inv = s.inv := rfl
@[simp] theorem State.tickPassed_tbl : (s.tickPassed).tbl = s.tbl := rfl
@[simp] theorem State.tickPassed_tlen : (s.tickPassed).tlen = s.tlen := rfl
@[simp] theorem State.tickPassed_raw : (s.tickPassed).raw = s.raw := rfl
@[simp] theorem State.tickPassed_eff : (s.tickPassed).eff = s.eff := rfl
@[simp] theorem State.tickPassed_dat : (s.tickPassed).dat = s.dat := rfl
@[simp] theorem State.tickPassed_prev : (s.tickPassed).prev = s.prev := rfl
@[simp] theorem State.tickPassed_act : (s.tickPassed).act = s.act := rfl
@[simp] theorem State.tickPassed_mode : (s.tickPassed).mode = s.mode := rfl
@[simp] theorem State.tickPassed_sel : (s.tickPassed).sel = s.sel := rfl
@[simp] theorem State.tickPassed_set : (s.tickPassed).set = s.set := rfl
@[simp] theorem State.tickPassed_warn : (s.tickPassed).warn = s.warn := rfl
@[simp] theorem State.tickPassed_odr : (s.tickPassed).odr = s.odr := rfl
@[simp] theorem State.tickPassed_dir : (s.tickPassed).dir = s.dir := rfl
@[simp] theorem State.tickPassed_strap : (s.tickPassed).strap = s.strap := rfl
@[simp] theorem State.tickPassed_samples : (s.tickPassed).samples = s.samples := rfl
@[simp] theorem State.tickPassed_sampleCount : (s.tickPassed).sampleCount = s.sampleCount := rfl
@[simp] theorem State.tickPassed_ticks : (s.tickPassed).ticks = s.ticks.tail := rfl
@[simp] theorem State.tickPassed_freeCount : (s.tickPassed).freeCount = s.freeCount := rfl
@[simp] theorem State.tickPassed_boots : (s.tickPassed).boots = s.boots := rfl
@[simp] theorem State.tickPassed_trace : (s.tickPassed).trace = s.trace := rfl

/-! ### `countOne` -/

@[simp] theorem State.countOne_cfg : (s.countOne).cfg = s.cfg := rfl
@[simp] theorem State.countOne_store : (s.countOne).store = s.store := rfl
@[simp] theorem State.countOne_fast : (s.countOne).fast = s.fast := rfl
@[simp] theorem State.countOne_work : (s.countOne).work = s.work := rfl
@[simp] theorem State.countOne_rti : (s.countOne).rti = putBytes s.rti (countAddress s.cfg) (wordBytes (s.accessCount + 1)) := rfl
@[simp] theorem State.countOne_urom : (s.countOne).urom = s.urom := rfl
@[simp] theorem State.countOne_upc : (s.countOne).upc = s.upc := rfl
@[simp] theorem State.countOne_rs : (s.countOne).rs = s.rs := rfl
@[simp] theorem State.countOne_faultRec : (s.countOne).faultRec = s.faultRec := rfl
@[simp] theorem State.countOne_chk : (s.countOne).chk = s.chk := rfl
@[simp] theorem State.countOne_inv : (s.countOne).inv = s.inv := rfl
@[simp] theorem State.countOne_tbl : (s.countOne).tbl = s.tbl := rfl
@[simp] theorem State.countOne_tlen : (s.countOne).tlen = s.tlen := rfl
@[simp] theorem State.countOne_raw : (s.countOne).raw = s.raw := rfl
@[simp] theorem State.countOne_eff : (s.countOne).eff = s.eff := rfl
@[simp] theorem State.countOne_dat : (s.countOne).dat = s.dat := rfl
@[simp] theorem State.countOne_prev : (s.countOne).prev = s.prev := rfl
@[simp] theorem State.countOne_act : (s.countOne).act = s.act := rfl
@[simp] theorem State.countOne_mode : (s.countOne).mode = s.mode := rfl
@[simp] theorem State.countOne_sel : (s.countOne).sel = s.sel := rfl
@[simp] theorem State.countOne_set : (s.countOne).set = s.set := rfl
@[simp] theorem State.countOne_warn : (s.countOne).warn = s.warn := rfl
@[simp] theorem State.countOne_odr : (s.countOne).odr = s.odr := rfl
@[simp] theorem State.countOne_dir : (s.countOne).dir = s.dir := rfl
@[simp] theorem State.countOne_strap : (s.countOne).strap = s.strap := rfl
@[simp] theorem State.countOne_samples : (s.countOne).samples = s.samples := rfl
@[simp] theorem State.countOne_sampleCount : (s.countOne).sampleCount = s.sampleCount := rfl
@[simp] theorem State.countOne_ticks : (s.countOne).ticks = s.ticks := rfl
@[simp] theorem State.countOne_freeCount : (s.countOne).freeCount = s.freeCount := rfl
@[simp] theorem State.countOne_boots : (s.countOne).boots = s.boots := rfl
@[simp] theorem State.countOne_trace : (s.countOne).trace = .writeCount (s.accessCount + 1) :: s.trace := rfl

/-! ### `branch` -/

@[simp] theorem State.branch_cfg (taken : Bool) (t : UAddr) : (s.branch taken t).cfg = s.cfg := by cases taken <;> rfl
@[simp] theorem State.branch_store (taken : Bool) (t : UAddr) : (s.branch taken t).store = s.store := by cases taken <;> rfl
@[simp] theorem State.branch_fast (taken : Bool) (t : UAddr) : (s.branch taken t).fast = s.fast := by cases taken <;> rfl
@[simp] theorem State.branch_work (taken : Bool) (t : UAddr) : (s.branch taken t).work = s.work := by cases taken <;> rfl
@[simp] theorem State.branch_rti (taken : Bool) (t : UAddr) : (s.branch taken t).rti = s.rti := by cases taken <;> rfl
@[simp] theorem State.branch_urom (taken : Bool) (t : UAddr) : (s.branch taken t).urom = s.urom := by cases taken <;> rfl
@[simp] theorem State.branch_upc (taken : Bool) (t : UAddr) : (s.branch taken t).upc = if taken then t else s.upc + 1 := by cases taken <;> rfl
@[simp] theorem State.branch_rs (taken : Bool) (t : UAddr) : (s.branch taken t).rs = s.rs := by cases taken <;> rfl
@[simp] theorem State.branch_faultRec (taken : Bool) (t : UAddr) : (s.branch taken t).faultRec = s.faultRec := by cases taken <;> rfl
@[simp] theorem State.branch_chk (taken : Bool) (t : UAddr) : (s.branch taken t).chk = s.chk := by cases taken <;> rfl
@[simp] theorem State.branch_inv (taken : Bool) (t : UAddr) : (s.branch taken t).inv = s.inv := by cases taken <;> rfl
@[simp] theorem State.branch_tbl (taken : Bool) (t : UAddr) : (s.branch taken t).tbl = s.tbl := by cases taken <;> rfl
@[simp] theorem State.branch_tlen (taken : Bool) (t : UAddr) : (s.branch taken t).tlen = s.tlen := by cases taken <;> rfl
@[simp] theorem State.branch_raw (taken : Bool) (t : UAddr) : (s.branch taken t).raw = s.raw := by cases taken <;> rfl
@[simp] theorem State.branch_eff (taken : Bool) (t : UAddr) : (s.branch taken t).eff = s.eff := by cases taken <;> rfl
@[simp] theorem State.branch_dat (taken : Bool) (t : UAddr) : (s.branch taken t).dat = s.dat := by cases taken <;> rfl
@[simp] theorem State.branch_prev (taken : Bool) (t : UAddr) : (s.branch taken t).prev = s.prev := by cases taken <;> rfl
@[simp] theorem State.branch_act (taken : Bool) (t : UAddr) : (s.branch taken t).act = s.act := by cases taken <;> rfl
@[simp] theorem State.branch_mode (taken : Bool) (t : UAddr) : (s.branch taken t).mode = s.mode := by cases taken <;> rfl
@[simp] theorem State.branch_sel (taken : Bool) (t : UAddr) : (s.branch taken t).sel = s.sel := by cases taken <;> rfl
@[simp] theorem State.branch_set (taken : Bool) (t : UAddr) : (s.branch taken t).set = s.set := by cases taken <;> rfl
@[simp] theorem State.branch_warn (taken : Bool) (t : UAddr) : (s.branch taken t).warn = s.warn := by cases taken <;> rfl
@[simp] theorem State.branch_odr (taken : Bool) (t : UAddr) : (s.branch taken t).odr = s.odr := by cases taken <;> rfl
@[simp] theorem State.branch_dir (taken : Bool) (t : UAddr) : (s.branch taken t).dir = s.dir := by cases taken <;> rfl
@[simp] theorem State.branch_strap (taken : Bool) (t : UAddr) : (s.branch taken t).strap = s.strap := by cases taken <;> rfl
@[simp] theorem State.branch_samples (taken : Bool) (t : UAddr) : (s.branch taken t).samples = s.samples := by cases taken <;> rfl
@[simp] theorem State.branch_sampleCount (taken : Bool) (t : UAddr) : (s.branch taken t).sampleCount = s.sampleCount := by cases taken <;> rfl
@[simp] theorem State.branch_ticks (taken : Bool) (t : UAddr) : (s.branch taken t).ticks = s.ticks := by cases taken <;> rfl
@[simp] theorem State.branch_freeCount (taken : Bool) (t : UAddr) : (s.branch taken t).freeCount = s.freeCount := by cases taken <;> rfl
@[simp] theorem State.branch_boots (taken : Bool) (t : UAddr) : (s.branch taken t).boots = s.boots := by cases taken <;> rfl
@[simp] theorem State.branch_trace (taken : Bool) (t : UAddr) : (s.branch taken t).trace = s.trace := by cases taken <;> rfl

/-! ### `memWrite` -/

@[simp] theorem State.memWrite_cfg (space : Space) (a : Word) (bs : List Byte) : (s.memWrite space a bs).cfg = s.cfg := by cases space <;> rfl
@[simp] theorem State.memWrite_store (space : Space) (a : Word) (bs : List Byte) : (s.memWrite space a bs).store = s.store := by cases space <;> rfl
@[simp] theorem State.memWrite_fast (space : Space) (a : Word) (bs : List Byte) : (s.memWrite space a bs).fast = if space = .fast then putBytes s.fast a bs else s.fast := by cases space <;> rfl
@[simp] theorem State.memWrite_work (space : Space) (a : Word) (bs : List Byte) : (s.memWrite space a bs).work = if space = .work then putBytes s.work a bs else s.work := by cases space <;> rfl
@[simp] theorem State.memWrite_rti (space : Space) (a : Word) (bs : List Byte) : (s.memWrite space a bs).rti = if space = .rti then putBytes s.rti a bs else s.rti := by cases space <;> rfl
@[simp] theorem State.memWrite_urom (space : Space) (a : Word) (bs : List Byte) : (s.memWrite space a bs).urom = s.urom := by cases space <;> rfl
@[simp] theorem State.memWrite_upc (space : Space) (a : Word) (bs : List Byte) : (s.memWrite space a bs).upc = s.upc := by cases space <;> rfl
@[simp] theorem State.memWrite_rs (space : Space) (a : Word) (bs : List Byte) : (s.memWrite space a bs).rs = s.rs := by cases space <;> rfl
@[simp] theorem State.memWrite_faultRec (space : Space) (a : Word) (bs : List Byte) : (s.memWrite space a bs).faultRec = s.faultRec := by cases space <;> rfl
@[simp] theorem State.memWrite_chk (space : Space) (a : Word) (bs : List Byte) : (s.memWrite space a bs).chk = s.chk := by cases space <;> rfl
@[simp] theorem State.memWrite_inv (space : Space) (a : Word) (bs : List Byte) : (s.memWrite space a bs).inv = s.inv := by cases space <;> rfl
@[simp] theorem State.memWrite_tbl (space : Space) (a : Word) (bs : List Byte) : (s.memWrite space a bs).tbl = s.tbl := by cases space <;> rfl
@[simp] theorem State.memWrite_tlen (space : Space) (a : Word) (bs : List Byte) : (s.memWrite space a bs).tlen = s.tlen := by cases space <;> rfl
@[simp] theorem State.memWrite_raw (space : Space) (a : Word) (bs : List Byte) : (s.memWrite space a bs).raw = s.raw := by cases space <;> rfl
@[simp] theorem State.memWrite_eff (space : Space) (a : Word) (bs : List Byte) : (s.memWrite space a bs).eff = s.eff := by cases space <;> rfl
@[simp] theorem State.memWrite_dat (space : Space) (a : Word) (bs : List Byte) : (s.memWrite space a bs).dat = s.dat := by cases space <;> rfl
@[simp] theorem State.memWrite_prev (space : Space) (a : Word) (bs : List Byte) : (s.memWrite space a bs).prev = s.prev := by cases space <;> rfl
@[simp] theorem State.memWrite_act (space : Space) (a : Word) (bs : List Byte) : (s.memWrite space a bs).act = s.act := by cases space <;> rfl
@[simp] theorem State.memWrite_mode (space : Space) (a : Word) (bs : List Byte) : (s.memWrite space a bs).mode = s.mode := by cases space <;> rfl
@[simp] theorem State.memWrite_sel (space : Space) (a : Word) (bs : List Byte) : (s.memWrite space a bs).sel = s.sel := by cases space <;> rfl
@[simp] theorem State.memWrite_set (space : Space) (a : Word) (bs : List Byte) : (s.memWrite space a bs).set = s.set := by cases space <;> rfl
@[simp] theorem State.memWrite_warn (space : Space) (a : Word) (bs : List Byte) : (s.memWrite space a bs).warn = s.warn := by cases space <;> rfl
@[simp] theorem State.memWrite_odr (space : Space) (a : Word) (bs : List Byte) : (s.memWrite space a bs).odr = s.odr := by cases space <;> rfl
@[simp] theorem State.memWrite_dir (space : Space) (a : Word) (bs : List Byte) : (s.memWrite space a bs).dir = s.dir := by cases space <;> rfl
@[simp] theorem State.memWrite_strap (space : Space) (a : Word) (bs : List Byte) : (s.memWrite space a bs).strap = s.strap := by cases space <;> rfl
@[simp] theorem State.memWrite_samples (space : Space) (a : Word) (bs : List Byte) : (s.memWrite space a bs).samples = s.samples := by cases space <;> rfl
@[simp] theorem State.memWrite_sampleCount (space : Space) (a : Word) (bs : List Byte) : (s.memWrite space a bs).sampleCount = s.sampleCount := by cases space <;> rfl
@[simp] theorem State.memWrite_ticks (space : Space) (a : Word) (bs : List Byte) : (s.memWrite space a bs).ticks = s.ticks := by cases space <;> rfl
@[simp] theorem State.memWrite_freeCount (space : Space) (a : Word) (bs : List Byte) : (s.memWrite space a bs).freeCount = s.freeCount := by cases space <;> rfl
@[simp] theorem State.memWrite_boots (space : Space) (a : Word) (bs : List Byte) : (s.memWrite space a bs).boots = s.boots := by cases space <;> rfl
@[simp] theorem State.memWrite_trace (space : Space) (a : Word) (bs : List Byte) : (s.memWrite space a bs).trace = s.trace := by cases space <;> rfl

/-! ### `performReset` -/

@[simp] theorem State.performReset_cfg (v : Word) : (s.performReset v).cfg = s.cfg := rfl
@[simp] theorem State.performReset_store (v : Word) : (s.performReset v).store = s.store := rfl
@[simp] theorem State.performReset_fast (v : Word) : (s.performReset v).fast = [] := rfl
@[simp] theorem State.performReset_work (v : Word) : (s.performReset v).work = [] := rfl
@[simp] theorem State.performReset_rti (v : Word) : (s.performReset v).rti = [] := rfl
@[simp] theorem State.performReset_urom (v : Word) : (s.performReset v).urom = s.urom := rfl
@[simp] theorem State.performReset_upc (v : Word) : (s.performReset v).upc = 0x00 := rfl
@[simp] theorem State.performReset_rs (v : Word) : (s.performReset v).rs = .boot := rfl
@[simp] theorem State.performReset_faultRec (v : Word) : (s.performReset v).faultRec = none := rfl
@[simp] theorem State.performReset_chk (v : Word) : (s.performReset v).chk = .unwritten 0 := rfl
@[simp] theorem State.performReset_inv (v : Word) : (s.performReset v).inv = .unwritten 0 := rfl
@[simp] theorem State.performReset_tbl (v : Word) : (s.performReset v).tbl = .unwritten 0 := rfl
@[simp] theorem State.performReset_tlen (v : Word) : (s.performReset v).tlen = .unwritten 0 := rfl
@[simp] theorem State.performReset_raw (v : Word) : (s.performReset v).raw = .unwritten 0 := rfl
@[simp] theorem State.performReset_eff (v : Word) : (s.performReset v).eff = .unwritten 0 := rfl
@[simp] theorem State.performReset_dat (v : Word) : (s.performReset v).dat = .unwritten 0 := rfl
@[simp] theorem State.performReset_prev (v : Word) : (s.performReset v).prev = .unwritten 0 := rfl
@[simp] theorem State.performReset_act (v : Word) : (s.performReset v).act = .unwritten false := rfl
@[simp] theorem State.performReset_mode (v : Word) : (s.performReset v).mode = .unwritten .twoCheck := rfl
@[simp] theorem State.performReset_sel (v : Word) : (s.performReset v).sel = .unwritten 0 := rfl
@[simp] theorem State.performReset_set (v : Word) : (s.performReset v).set = .unwritten 0 := rfl
@[simp] theorem State.performReset_warn (v : Word) : (s.performReset v).warn = 0x00000000 := rfl
@[simp] theorem State.performReset_odr (v : Word) : (s.performReset v).odr = .unwritten 0 := rfl
@[simp] theorem State.performReset_dir (v : Word) : (s.performReset v).dir = 0x00 := rfl
@[simp] theorem State.performReset_strap (v : Word) : (s.performReset v).strap = v := rfl
@[simp] theorem State.performReset_samples (v : Word) : (s.performReset v).samples = s.samples := rfl
@[simp] theorem State.performReset_sampleCount (v : Word) : (s.performReset v).sampleCount = s.sampleCount := rfl
@[simp] theorem State.performReset_ticks (v : Word) : (s.performReset v).ticks = s.ticks := rfl
@[simp] theorem State.performReset_freeCount (v : Word) : (s.performReset v).freeCount = s.freeCount := rfl
@[simp] theorem State.performReset_boots (v : Word) : (s.performReset v).boots = s.boots + 1 := rfl
@[simp] theorem State.performReset_trace (v : Word) : (s.performReset v).trace = s.trace := rfl

end Sys2Proof.Machine
end

