-- ==== Sys2Proof/Laws/Memory.lean ====
section
/-! SUPPORT. Reading after writing, and that every memory operation keeps the canonical form. -/

namespace Sys2Proof.Machine

/-! ## Cells -/

section Cells
variable {α : Type}

@[simp] theorem cellAt_nil (a : Nat) : cellAt ([] : List (Nat × α)) a = none := rfl

theorem cellAt_putCell_same (m : List (Nat × α)) (a : Nat) (v : α) : cellAt (putCell m a v) a = some v := by
  induction m with
  | nil => simp [putCell, cellAt]
  | cons c rest ih =>
    obtain ⟨b, w⟩ := c
    unfold putCell
    split
    · simp [cellAt]
    · split
      · simp [cellAt]
      · have : b ≠ a := by omega
        simp [cellAt, this, ih]

theorem cellAt_putCell_ne (m : List (Nat × α)) {a b : Nat} (v : α) (h : b ≠ a) :
    cellAt (putCell m a v) b = cellAt m b := by
  induction m with
  | nil => simp [putCell, cellAt, Ne.symm h]
  | cons c rest ih =>
    obtain ⟨k, w⟩ := c
    unfold putCell
    split
    · simp [cellAt, Ne.symm h]
    · split
      · have : k ≠ b := by omega
        simp [cellAt, Ne.symm h, this]
      · simp only [cellAt, ih]

theorem cellAt_dropCell_ne (m : List (Nat × α)) {a b : Nat} (h : b ≠ a) :
    cellAt (dropCell m a) b = cellAt m b := by
  induction m with
  | nil => rfl
  | cons c rest ih =>
    obtain ⟨k, w⟩ := c
    unfold dropCell
    split
    · have : k ≠ b := by omega
      simp [cellAt, this]
    · simp only [cellAt, ih]

/-- Below the first address nothing is listed. -/
theorem cellAt_below {bound lo a : Nat} (m : List (Nat × α)) (h : cellsRise bound lo m = true) (ha : a < lo) :
    cellAt m a = none := by
  induction m generalizing lo with
  | nil => rfl
  | cons c rest ih =>
    obtain ⟨k, w⟩ := c
    simp only [cellsRise, Bool.and_eq_true, decide_eq_true_eq] at h
    obtain ⟨⟨h1, _⟩, h3⟩ := h
    have : k ≠ a := by omega
    simp only [cellAt, this, if_false]
    exact ih h3 (by omega)

theorem cellAt_dropCell_same {bound lo : Nat} (m : List (Nat × α)) (a : Nat) (h : cellsRise bound lo m = true) :
    cellAt (dropCell m a) a = none := by
  induction m generalizing lo with
  | nil => rfl
  | cons c rest ih =>
    obtain ⟨k, w⟩ := c
    simp only [cellsRise, Bool.and_eq_true, decide_eq_true_eq] at h
    unfold dropCell
    split
    · rename_i hk
      exact cellAt_below rest h.2 (by omega)
    · rename_i hk
      simp only [cellAt, hk, if_false]
      exact ih h.2

theorem cellsRise_mono {bound lo lo' : Nat} (m : List (Nat × α)) (hl : lo' ≤ lo) (h : cellsRise bound lo m = true) :
    cellsRise bound lo' m = true := by
  cases m with
  | nil => rfl
  | cons c rest =>
    obtain ⟨k, w⟩ := c
    simp only [cellsRise, Bool.and_eq_true, decide_eq_true_eq] at h ⊢
    exact ⟨⟨by omega, h.1.2⟩, h.2⟩

theorem cellsRise_putCell {bound lo a : Nat} (m : List (Nat × α)) (v : α) (h : cellsRise bound lo m = true)
    (hlo : lo ≤ a) (ha : a < bound) : cellsRise bound lo (putCell m a v) = true := by
  induction m generalizing lo with
  | nil => simp [putCell, cellsRise, hlo, ha]
  | cons c rest ih =>
    obtain ⟨k, w⟩ := c
    simp only [cellsRise, Bool.and_eq_true, decide_eq_true_eq] at h
    unfold putCell
    split
    · simp only [cellsRise, Bool.and_eq_true, decide_eq_true_eq]
      exact ⟨⟨hlo, ha⟩, ⟨by omega, h.1.2⟩, h.2⟩
    · split
      · rename_i hk
        subst hk
        simp only [cellsRise, Bool.and_eq_true, decide_eq_true_eq]
        exact ⟨⟨hlo, ha⟩, h.2⟩
      · simp only [cellsRise, Bool.and_eq_true, decide_eq_true_eq]
        exact ⟨h.1, ih h.2 (by omega)⟩

theorem cellsRise_dropCell {bound lo : Nat} (m : List (Nat × α)) (a : Nat) (h : cellsRise bound lo m = true) :
    cellsRise bound lo (dropCell m a) = true := by
  induction m generalizing lo with
  | nil => rfl
  | cons c rest ih =>
    obtain ⟨k, w⟩ := c
    simp only [cellsRise, Bool.and_eq_true, decide_eq_true_eq] at h
    unfold dropCell
    split
    · exact cellsRise_mono rest (by omega) h.2
    · simp only [cellsRise, Bool.and_eq_true, decide_eq_true_eq]
      exact ⟨h.1, ih h.2⟩

theorem mem_putCell {m : List (Nat × α)} {a : Nat} {v : α} {c : Nat × α} (h : c ∈ putCell m a v) :
    c = (a, v) ∨ c ∈ m := by
  induction m with
  | nil => simpa [putCell] using h
  | cons d rest ih =>
    obtain ⟨k, w⟩ := d
    unfold putCell at h
    split at h
    · simpa using h
    · split at h
      · rcases List.mem_cons.mp h with h | h
        · exact .inl h
        · exact .inr (List.mem_cons_of_mem _ h)
      · rcases List.mem_cons.mp h with h | h
        · exact .inr (h ▸ List.mem_cons_self)
        · exact (ih h).imp id (List.mem_cons_of_mem _)

theorem mem_dropCell {m : List (Nat × α)} {a : Nat} {c : Nat × α} (h : c ∈ dropCell m a) : c ∈ m := by
  induction m with
  | nil => simp [dropCell] at h
  | cons d rest ih =>
    obtain ⟨k, w⟩ := d
    unfold dropCell at h
    split at h
    · exact List.mem_cons_of_mem _ h
    · rcases List.mem_cons.mp h with h | h
      · exact h ▸ List.mem_cons_self
      · exact List.mem_cons_of_mem _ (ih h)

end Cells

/-! ## Byte runs -/

@[simp] theorem wordBytes_length (v : Word) : (wordBytes v).length = 4 := rfl

theorem putBytes_wf (m : Memory) (base : Word) (bs : List Byte) (h : Memory.wf m = true) :
    Memory.wf (putBytes m base bs) = true := by
  induction bs generalizing m base with
  | nil => exact h
  | cons b bs ih => exact ih _ _ (cellsRise_putCell m b h (Nat.zero_le _) base.isLt)

/-- A run of bytes leaves every other address alone. -/
theorem cellAt_putBytes_other (m : Memory) (base : Word) (bs : List Byte) (a : Word)
    (h : ∀ i < bs.length, a ≠ base + BitVec.ofNat 32 i) :
    cellAt (putBytes m base bs) a.toNat = cellAt m a.toNat := by
  induction bs generalizing m base with
  | nil => rfl
  | cons b bs ih =>
    have h0 : a.toNat ≠ base.toNat := fun e => h 0 (by simp) (by simpa using BitVec.eq_of_toNat_eq e)
    rw [putBytes, ih, cellAt_putCell_ne _ _ h0]
    intro i hi e
    refine h (i + 1) (by simpa using hi) (e.trans ?_)
    apply BitVec.eq_of_toNat_eq
    simp [BitVec.toNat_add]
    omega

/-- Byte `i` of a run reads back at `base + i`. -/
theorem cellAt_putBytes_run (m : Memory) (base : Word) (bs : List Byte) (hn : bs.length ≤ 2 ^ 32) (i : Nat)
    (hi : i < bs.length) : cellAt (putBytes m base bs) (base + BitVec.ofNat 32 i).toNat = some bs[i] := by
  induction bs generalizing m base i with
  | nil => simp at hi
  | cons b bs ih =>
    simp only [List.length_cons] at hn hi
    cases i with
    | zero =>
      rw [putBytes, cellAt_putBytes_other]
      · simpa using cellAt_putCell_same m base.toNat b
      · intro j hj e
        have := congrArg BitVec.toNat e
        simp [BitVec.toNat_add] at this
        omega
    | succ i =>
      have := ih (putCell m base.toNat b) (base + 1) (by omega) i (by omega)
      have e : base + BitVec.ofNat 32 (i + 1) = base + 1 + BitVec.ofNat 32 i := by
        apply BitVec.eq_of_toNat_eq
        simp [BitVec.toNat_add]
        omega
      rw [putBytes, e, this]
      rfl

/-! ## Spaces -/

@[simp] theorem State.memWrite_memory (s : State) (space sp : Space) (a : Word) (bs : List Byte) :
    (s.memWrite space a bs).memory sp
      = if sp = space ∧ space ≠ .store then putBytes (s.memory sp) a bs else s.memory sp := by
  cases space <;> cases sp <;> rfl

@[simp] theorem State.memWrite_contentsOf (s : State) (space sp : Space) (a : Word) (bs : List Byte) :
    (s.memWrite space a bs).contentsOf sp = s.contentsOf sp := by
  cases space <;> cases sp <;> rfl

/-- What a state reads depends on the memories and the number of resets alone. -/
theorem State.memRead_congr {s t : State} (hs : t.store = s.store) (hf : t.fast = s.fast) (hw : t.work = s.work)
    (hr : t.rti = s.rti) (hb : t.boots = s.boots) : ∀ sp a, t.memRead sp a = s.memRead sp a := by
  intro sp a
  cases sp <;> simp [State.memRead, State.memory, State.contentsOf, *]

/-- A run of bytes leaves every byte outside it alone, in every space. -/
theorem State.memWrite_other (s : State) (space : Space) (base : Word) (bs : List Byte) (sp : Space) (a : Word)
    (h : sp ≠ space ∨ ∀ i < bs.length, a ≠ base + BitVec.ofNat 32 i) :
    (s.memWrite space base bs).memRead sp a = s.memRead sp a := by
  simp only [State.memRead, State.memWrite_memory, State.memWrite_contentsOf]
  split
  · rename_i hc
    rw [cellAt_putBytes_other _ _ _ _ (h.resolve_left (fun hn => hn hc.1))]
  · rfl

/-- A run of bytes reads back, in a space that can be written. -/
theorem State.memWrite_run (s : State) {space : Space} (hsp : space ≠ .store) (base : Word) (bs : List Byte)
    (hn : bs.length ≤ 2 ^ 32) (i : Nat) (hi : i < bs.length) :
    (s.memWrite space base bs).memRead space (base + BitVec.ofNat 32 i) = bs[i] := by
  rw [State.memRead, State.memWrite_memory, if_pos ⟨rfl, hsp⟩, cellAt_putBytes_run _ _ _ hn i hi, Option.getD_some]

/-! ## Updates that touch no memory leave every byte alone -/

@[simp] theorem State.note_memRead (s : State) (x : Access) (sp : Space) (a : Word) :
    (s.note x).memRead sp a = s.memRead sp a := by cases sp <;> rfl
@[simp] theorem State.afterReadIn_memRead (s : State) (sp : Space) (a : Word) :
    (s.afterReadIn).memRead sp a = s.memRead sp a := by cases sp <;> rfl
@[simp] theorem State.afterReadStrap_memRead (s : State) (sp : Space) (a : Word) :
    (s.afterReadStrap).memRead sp a = s.memRead sp a := by cases sp <;> rfl
@[simp] theorem State.writeOdr_memRead (s : State) (x : Byte) (sp : Space) (a : Word) :
    (s.writeOdr x).memRead sp a = s.memRead sp a := by cases sp <;> rfl
@[simp] theorem State.writeDir_memRead (s : State) (x : Byte) (sp : Space) (a : Word) :
    (s.writeDir x).memRead sp a = s.memRead sp a := by cases sp <;> rfl
@[simp] theorem State.advance_memRead (s : State) (sp : Space) (a : Word) :
    (s.advance).memRead sp a = s.memRead sp a := by cases sp <;> rfl
@[simp] theorem State.jump_memRead (s : State) (x : UAddr) (sp : Space) (a : Word) :
    (s.jump x).memRead sp a = s.memRead sp a := by cases sp <;> rfl
@[simp] theorem State.writeRaw_memRead (s : State) (x : Word) (sp : Space) (a : Word) :
    (s.writeRaw x).memRead sp a = s.memRead sp a := by cases sp <;> rfl
@[simp] theorem State.writeTest_memRead (s : State) (x : Word) (y : Bool) (sp : Space) (a : Word) :
    (s.writeTest x y).memRead sp a = s.memRead sp a := by cases sp <;> rfl
@[simp] theorem State.writePrev_memRead (s : State) (x : Word) (sp : Space) (a : Word) :
    (s.writePrev x).memRead sp a = s.memRead sp a := by cases sp <;> rfl
@[simp] theorem State.writeDat_memRead (s : State) (x : Word) (sp : Space) (a : Word) :
    (s.writeDat x).memRead sp a = s.memRead sp a := by cases sp <;> rfl
@[simp] theorem State.writeTbl_memRead (s : State) (x : Word) (sp : Space) (a : Word) :
    (s.writeTbl x).memRead sp a = s.memRead sp a := by cases sp <;> rfl
@[simp] theorem State.writeTlen_memRead (s : State) (x : Word) (sp : Space) (a : Word) :
    (s.writeTlen x).memRead sp a = s.memRead sp a := by cases sp <;> rfl
@[simp] theorem State.writeSel_memRead (s : State) (x : Word) (sp : Space) (a : Word) :
    (s.writeSel x).memRead sp a = s.memRead sp a := by cases sp <;> rfl
@[simp] theorem State.writeSet_memRead (s : State) (x : Word) (sp : Space) (a : Word) :
    (s.writeSet x).memRead sp a = s.memRead sp a := by cases sp <;> rfl
@[simp] theorem State.writeMode_memRead (s : State) (x : ServeMode) (sp : Space) (a : Word) :
    (s.writeMode x).memRead sp a = s.memRead sp a := by cases sp <;> rfl
@[simp] theorem State.writeMasks_memRead (s : State) (x y : Word) (sp : Space) (a : Word) :
    (s.writeMasks x y).memRead sp a = s.memRead sp a := by cases sp <;> rfl
@[simp] theorem State.writeRs_memRead (s : State) (x : RunState) (sp : Space) (a : Word) :
    (s.writeRs x).memRead sp a = s.memRead sp a := by cases sp <;> rfl
@[simp] theorem State.warned_memRead (s : State) (x : Word) (sp : Space) (a : Word) :
    (s.warned x).memRead sp a = s.memRead sp a := by cases sp <;> rfl
@[simp] theorem State.tookFree_memRead (s : State) (x : Nat) (sp : Space) (a : Word) :
    (s.tookFree x).memRead sp a = s.memRead sp a := by cases sp <;> rfl
@[simp] theorem State.raised_memRead (s : State) (x : FaultRecord) (sp : Space) (a : Word) :
    (s.raised x).memRead sp a = s.memRead sp a := by cases sp <;> rfl

@[simp] theorem State.branch_memRead (s : State) (taken : Bool) (x : UAddr) (sp : Space) (a : Word) :
    (s.branch taken x).memRead sp a = s.memRead sp a := by cases taken <;> simp [State.branch]

/-- A store to one space leaves the others alone. -/
@[simp] theorem State.memWrite_memRead_other (s : State) (space : Space) (base : Word) (bs : List Byte) {sp : Space}
    (a : Word) (h : sp ≠ space) : (s.memWrite space base bs).memRead sp a = s.memRead sp a :=
  State.memWrite_other s space base bs sp a (.inl h)

/-- Little-endian: the four bytes of a word read back as the word (R66). -/
theorem wordBytes_join (v : Word) :
    v.extractLsb' 24 8 ++ v.extractLsb' 16 8 ++ v.extractLsb' 8 8 ++ v.extractLsb' 0 8 = v := by
  apply BitVec.eq_of_getLsbD_eq
  intro i hi
  simp only [BitVec.getLsbD_append, BitVec.getLsbD_extractLsb']
  by_cases h1 : i < 8
  · simp [h1]
  by_cases h2 : i < 16
  · simp [h1, show i - 8 < 8 by omega, show 8 + (i - 8) = i by omega]
  by_cases h3 : i < 24
  · simp [h1, show ¬ i - 8 < 8 by omega, show i - 8 - 8 < 8 by omega, show 16 + (i - 8 - 8) = i by omega]
  · simp [h1, show ¬ i - 8 < 8 by omega, show ¬ i - 8 - 8 < 8 by omega, show i - 8 - 8 - 8 < 8 by omega,
      show 24 + (i - 8 - 8 - 8) = i by omega]

/-! ## The microcode ROM -/

theorem uromPlace_wf (m : List (Nat × MicroWord)) (a : UAddr) (w : MicroWord) (h : Urom.wf m = true) :
    Urom.wf (uromPlace m a w) = true := by
  simp only [Urom.wf, Bool.and_eq_true, List.all_eq_true, decide_eq_true_eq] at h ⊢
  unfold uromPlace
  split
  · exact ⟨cellsRise_dropCell _ _ h.1, fun c hc => h.2 c (mem_dropCell hc)⟩
  · rename_i hw
    refine ⟨cellsRise_putCell _ _ h.1 (Nat.zero_le _) a.isLt, fun c hc => ?_⟩
    rcases mem_putCell hc with rfl | hc
    · exact hw
    · exact h.2 c hc

/-- The word placed is the word fetched. -/
theorem uromWord_uromPlace_same (m : List (Nat × MicroWord)) (a : UAddr) (w : MicroWord) (h : Urom.wf m = true) :
    uromWord (uromPlace m a w) a = w := by
  simp only [Urom.wf, Bool.and_eq_true] at h
  unfold uromPlace uromWord
  split
  · rename_i hw
    rw [cellAt_dropCell_same _ _ h.1, hw]
    rfl
  · rw [cellAt_putCell_same]
    rfl

/-! ## Reset -/

theorem reset_memories_wf : Memory.wf State.reset.store = true ∧ Memory.wf State.reset.fast = true
    ∧ Memory.wf State.reset.work = true ∧ Memory.wf State.reset.rti = true
    ∧ Urom.wf State.reset.urom = true := by decide

end Sys2Proof.Machine
end

