-- ==== Sys2Proof/Laws/Ops.lean ====
section
/-! SUPPORT. What each shared operation, each micro-operation and one step can answer, said once. -/

namespace Sys2Proof.Machine

/-! ## Registers -/

@[simp] theorem Latch.unwritten_written {α : Type} (b : α) : (Latch.unwritten b).written = false := rfl
@[simp] theorem Latch.holds_written {α : Type} (v : α) : (Latch.holds v).written = true := rfl
@[simp] theorem Latch.holds_value {α : Type} (v : α) : (Latch.holds v).value = v := rfl

theorem Latch.eq_holds {α : Type} {r : Latch α} (h : r.written = true) : r = .holds r.value := by
  cases r
  simp_all [Latch.holds]

/-- A register that holds a value is read. -/
@[simp] theorem readLatch_holds {α : Type} (name : RegName) (v : α) (s : State) (go : α → StepResult) :
    readLatch name (.holds v) s go = go v := rfl

theorem readLatch_written {α : Type} {name : RegName} {r : Latch α} (s : State) (go : α → StepResult)
    (h : r.written = true) : readLatch name r s go = go r.value := by simp [readLatch, h]

/-- One that holds none raises `UnwrittenRead`. -/
theorem readLatch_unwritten {α : Type} {name : RegName} {r : Latch α} (s : State) (go : α → StepResult)
    (h : r.written = false) : readLatch name r s go = .next (s.raised (.unwrittenRead name)) := by
  simp [readLatch, h, raise]

/-- Reading a register, whatever it holds. -/
theorem readLatch_next {α : Type} {name : RegName} {r : Latch α} {s t : State} {go : α → StepResult}
    (h : readLatch name r s go = .next t) :
    (r.written = true ∧ go r.value = .next t) ∨ (r.written = false ∧ t = s.raised (.unwrittenRead name)) := by
  cases hr : r.written
  · rw [readLatch_unwritten s go hr] at h
    exact .inr ⟨rfl, by cases h; rfl⟩
  · rw [readLatch_written s go hr] at h
    exact .inl ⟨rfl, h⟩

/-- Reading `SET` and the selected set's configuration. -/
theorem withSet_next {s t : State} {go : Nat → RomSet → StepResult} (h : withSet s go = .next t) :
    (∃ set, s.set.written = true ∧ romSetAt s.cfg s.store s.set.value.toNat = .ok set
        ∧ go s.set.value.toNat set = .next t)
    ∨ (s.set.written = false ∧ t = s.raised (.unwrittenRead .set)) := by
  rcases readLatch_next h with ⟨hw, h⟩ | h
  · left
    revert h
    cases hr : romSetAt s.cfg s.store s.set.value.toNat with
    | ok set => exact fun h => ⟨set, hw, rfl, h⟩
    | error d => exact fun h => by cases h
  · exact .inr h

theorem withSet_ok {s : State} {set : RomSet} (go : Nat → RomSet → StepResult) (hw : s.set.written = true)
    (hr : romSetAt s.cfg s.store s.set.value.toNat = .ok set) : withSet s go = go s.set.value.toNat set := by
  simp [withSet, readLatch, hw, hr]

theorem withSet_holds {s : State} {set : RomSet} {n : Word} (go : Nat → RomSet → StepResult) (h : s.set = .holds n)
    (hr : romSetAt s.cfg s.store n.toNat = .ok set) : withSet s go = go n.toNat set := by
  simp [withSet, h, hr]

/-! ## Where `PinMapOK` fails (U6) -/

/-- It does not fail for a selected set that it holds of. -/
theorem pinMapFails_of_ok {s : State} {set : RomSet} {n : Word} (h : s.set = .holds n)
    (hr : romSetAt s.cfg s.store n.toNat = .ok set) (hp : pinMapOK s.cfg.pm set = true) : s.pinMapFails = false := by
  have ha : pinsClauseA s.cfg.pm = true := by
    simp only [pinMapOK, Bool.and_eq_true] at hp
    exact hp.1.1.1.1
  simp [State.pinMapFails, h, hr, hp, ha]

/-- It fails for a selected set that it does not hold of. -/
theorem pinMapFails_of_not_ok {s : State} {set : RomSet} {n : Word} (h : s.set = .holds n)
    (hr : romSetAt s.cfg s.store n.toNat = .ok set) (hp : pinMapOK s.cfg.pm set = false) : s.pinMapFails = true := by
  simp [State.pinMapFails, h, hr, hp]

/-- It depends on the configuration, the Image Store and `SET` alone. -/
theorem pinMapFails_congr {s t : State} (hc : t.cfg = s.cfg) (hs : t.store = s.store) (he : t.set = s.set) :
    t.pinMapFails = s.pinMapFails := by simp [State.pinMapFails, hc, hs, he]

theorem servedByte_ok {s : State} (h : s.pinMapFails = false) (tbl raw : Word) :
    servedByte s tbl raw = s.memRead (tableSpace s.cfg) (tableAddress tbl raw) := by simp [servedByte, h]

/-- What LKP finds depends on nothing but the configuration, the Image Store, `SET`, the number of resets and the
bytes of the table's space. -/
theorem servedByte_congr {s t : State} (hc : t.cfg = s.cfg) (hs : t.store = s.store) (he : t.set = s.set)
    (hb : t.boots = s.boots) (hm : ∀ a, t.memRead (tableSpace s.cfg) a = s.memRead (tableSpace s.cfg) a)
    (tbl raw : Word) : servedByte t tbl raw = servedByte s tbl raw := by
  simp [servedByte, pinMapFails_congr hc hs he, hc, hb, hm]

/-! ## Logical images (R103) -/

/-- A placed image's bytes are those of `STORE`. -/
theorem logicalImage_placed {s : State} {n k : Nat} {image : ImageLoc}
    (h : (s.cfg.images[n]?).bind (·[k]?) = some image) {a : Nat} (ha : a < image.len) :
    logicalImage s n k a = s.memRead .store (image.addr + BitVec.ofNat 32 a) := by simp [logicalImage, h, ha]

/-- An image depends on the configuration and the bytes of `STORE` alone. -/
theorem logicalImage_congr {s t : State} (hc : t.cfg = s.cfg) (hm : ∀ a, t.memRead .store a = s.memRead .store a)
    (n k a : Nat) : logicalImage t n k a = logicalImage s n k a := by simp only [logicalImage, hc, hm]

/-! ## Micro-operations: if the meaning answers a next state, it is one of these -/

theorem execSmp_next {s t : State} (h : execSmp s = .next t) :
    t = (s.afterReadIn.writeRaw s.inputNow).advance := by cases h; rfl

theorem execTall_next {s t : State} (h : execTall s = .next t) :
    (t = (s.writeTest (effective s.raw.value s.inv.value s.chk.value)
        (allActive (effective s.raw.value s.inv.value s.chk.value))).advance
      ∧ s.raw.written = true ∧ s.inv.written = true ∧ s.chk.written = true)
    ∨ ∃ r ∈ [RegName.raw, .inv, .chk], t = s.raised (.unwrittenRead r) := by
  rcases readLatch_next h with ⟨h1, h⟩ | ⟨_, h⟩
  · rcases readLatch_next h with ⟨h2, h⟩ | ⟨_, h⟩
    · rcases readLatch_next h with ⟨h3, h⟩ | ⟨_, h⟩
      · exact .inl ⟨by cases h; rfl, h1, h2, h3⟩
      · exact .inr ⟨.chk, by simp, h⟩
    · exact .inr ⟨.inv, by simp, h⟩
  · exact .inr ⟨.raw, by simp, h⟩

theorem execTany_next {s t : State} (h : execTany s = .next t) :
    (t = (s.writeTest (effective s.raw.value s.inv.value s.chk.value)
        (anyActive (effective s.raw.value s.inv.value s.chk.value) s.chk.value)).advance
      ∧ s.raw.written = true ∧ s.inv.written = true ∧ s.chk.written = true)
    ∨ ∃ r ∈ [RegName.raw, .inv, .chk], t = s.raised (.unwrittenRead r) := by
  rcases readLatch_next h with ⟨h1, h⟩ | ⟨_, h⟩
  · rcases readLatch_next h with ⟨h2, h⟩ | ⟨_, h⟩
    · rcases readLatch_next h with ⟨h3, h⟩ | ⟨_, h⟩
      · exact .inl ⟨by cases h; rfl, h1, h2, h3⟩
      · exact .inr ⟨.chk, by simp, h⟩
    · exact .inr ⟨.inv, by simp, h⟩
  · exact .inr ⟨.raw, by simp, h⟩

theorem execLat_next {s t : State} (h : execLat s = .next t) :
    (t = (s.writePrev s.raw.value).advance ∧ s.raw.written = true) ∨ t = s.raised (.unwrittenRead .raw) := by
  rcases readLatch_next h with ⟨h1, h⟩ | ⟨_, h⟩
  · exact .inl ⟨by cases h; rfl, h1⟩
  · exact .inr h

theorem execLkp_next {s t : State} (h : execLkp s = .next t) :
    (t = (s.writeDat ((servedByte s s.tbl.value s.raw.value).setWidth 32)).advance
      ∧ s.raw.written = true ∧ s.tlen.written = true ∧ s.tbl.written = true ∧ s.raw.value < s.tlen.value)
    ∨ (t = s.raised (.indexOutOfRange s.raw.value) ∧ s.raw.written = true ∧ s.tlen.written = true
      ∧ s.tlen.value ≤ s.raw.value)
    ∨ ∃ r ∈ [RegName.raw, .tlen, .tbl], t = s.raised (.unwrittenRead r) := by
  rcases readLatch_next h with ⟨h1, h⟩ | ⟨_, h⟩
  · rcases readLatch_next h with ⟨h2, h⟩ | ⟨_, h⟩
    · split at h
      · rename_i hc
        exact .inr (.inl ⟨by cases h; rfl, h1, h2, hc⟩)
      · rename_i hc
        rcases readLatch_next h with ⟨h3, h⟩ | ⟨_, h⟩
        · exact .inl ⟨by cases h; rfl, h1, h2, h3, by
            simp only [ge_iff_le, BitVec.not_le] at hc
            exact hc⟩
        · exact .inr (.inr ⟨.tbl, by simp, h⟩)
    · exact .inr (.inr ⟨.tlen, by simp, h⟩)
  · exact .inr (.inr ⟨.raw, by simp, h⟩)

theorem execDrv_next {s t : State} (h : execDrv s = .next t) :
    (t = (s.writeOdr (s.dat.value.extractLsb' 0 8)).advance ∧ s.dat.written = true)
    ∨ t = s.raised (.unwrittenRead .dat) := by
  rcases readLatch_next h with ⟨h1, h⟩ | ⟨_, h⟩
  · exact .inl ⟨by cases h; rfl, h1⟩
  · exact .inr h

theorem execOen_next {s t : State} (h : execOen s = .next t) : t = (s.writeDir 0xFF).advance := by cases h; rfl

theorem execOds_next {s t : State} (h : execOds s = .next t) : t = (s.writeDir 0x00).advance := by cases h; rfl

theorem execCnt_next {s t : State} (h : execCnt s = .next t) :
    (s.cfg.countEn = true ∧ t = s.countOne.advance) ∨ (s.cfg.countEn = false ∧ t = s.advance) := by
  cases h
  cases s.cfg.countEn <;> simp

theorem execJmp_next {tgt : UAddr} {s t : State} (h : execJmp tgt s = .next t) : t = s.jump tgt := by cases h; rfl

theorem execBa_next {tgt : UAddr} {s t : State} (h : execBa tgt s = .next t) :
    (t = s.branch s.act.value tgt ∧ s.act.written = true) ∨ t = s.raised (.unwrittenRead .act) := by
  rcases readLatch_next h with ⟨h1, h⟩ | ⟨_, h⟩
  · exact .inl ⟨by cases h; rfl, h1⟩
  · exact .inr h

theorem execBi_next {tgt : UAddr} {s t : State} (h : execBi tgt s = .next t) :
    (t = s.branch (!s.act.value) tgt ∧ s.act.written = true) ∨ t = s.raised (.unwrittenRead .act) := by
  rcases readLatch_next h with ⟨h1, h⟩ | ⟨_, h⟩
  · exact .inl ⟨by cases h; rfl, h1⟩
  · exact .inr h

theorem execBs_next {tgt : UAddr} {s t : State} (h : execBs tgt s = .next t) :
    (t = s.branch (s.raw.value == s.prev.value) tgt ∧ s.raw.written = true ∧ s.prev.written = true)
    ∨ ∃ r ∈ [RegName.raw, .prev], t = s.raised (.unwrittenRead r) := by
  rcases readLatch_next h with ⟨h1, h⟩ | ⟨_, h⟩
  · rcases readLatch_next h with ⟨h2, h⟩ | ⟨_, h⟩
    · exact .inl ⟨by cases h; rfl, h1, h2⟩
    · exact .inr ⟨.prev, by simp, h⟩
  · exact .inr ⟨.raw, by simp, h⟩

theorem execBchk_next {s t : State} (h : execBchk s = .next t) :
    (bootPinsHigh s.cfg.pm.boot s.strap = true ∧ t = s.afterReadStrap.writeRs .bootloader)
    ∨ (bootPinsHigh s.cfg.pm.boot s.strap = false ∧ t = s.afterReadStrap.advance) := by
  unfold execBchk at h
  split at h
  · rename_i hc
    exact .inl ⟨hc, by cases h; rfl⟩
  · rename_i hc
    exact .inr ⟨by simpa using hc, by cases h; rfl⟩

theorem execStrap_next {s t : State} (h : execStrap s = .next t) :
    t = (s.afterReadStrap.writeSel (strapSelector s.cfg.pm.sel s.strap)).advance := by cases h; rfl

theorem execSset_next {s t : State} (h : execSset s = .next t) :
    (t = (s.writeSet (selectedSet s.cfg s.sel.value)).advance ∧ s.sel.written = true)
    ∨ t = s.raised (.unwrittenRead .sel) := by
  rcases readLatch_next h with ⟨h1, h⟩ | ⟨_, h⟩
  · split at h
    · cases h
    · exact .inl ⟨by cases h; rfl, h1⟩
  · exact .inr h

theorem execRmp_next {s t : State} (h : execRmp s = .next t) :
    (∃ set, s.set.written = true ∧ romSetAt s.cfg s.store s.set.value.toNat = .ok set
      ∧ ((s.cfg.remapAtBoot = true
          ∧ t = ((((s.writeTlen set.tableLength).memWrite .work s.cfg.workBase
              (builtTable s s.set.value.toNat set)).writeTbl s.cfg.workBase).tookFree
              (if pinMapOK s.cfg.pm set then 0 else 1)).advance)
        ∨ (s.cfg.remapAtBoot = false
          ∧ t = ((s.writeTlen set.tableLength).writeTbl (prebuiltTable s.cfg s.store s.set.value.toNat)).advance)))
    ∨ t = s.raised (.unwrittenRead .set) := by
  rcases withSet_next h with ⟨set, hw, hr, h⟩ | ⟨_, h⟩
  · refine .inl ⟨set, hw, hr, ?_⟩
    cases hb : s.cfg.remapAtBoot <;> simp only [hb] at h <;> cases h <;> simp
  · exact .inr h

theorem execPld_next {s t : State} (h : execPld s = .next t) :
    (s.cfg.fastCopy = true ∧ s.set.written = true ∧ s.tlen.written = true ∧ s.tbl.written = true
      ∧ t = ((s.memWrite .fast s.cfg.fastBase (sourceTable s s.tbl.value s.tlen.value)).writeTbl s.cfg.fastBase).advance)
    ∨ (s.cfg.fastCopy = false ∧ t = s.advance)
    ∨ ∃ r ∈ [RegName.set, .tlen, .tbl], t = s.raised (.unwrittenRead r) := by
  unfold execPld at h
  split at h
  · rename_i hc
    rcases readLatch_next h with ⟨h1, h⟩ | ⟨_, h⟩
    · rcases readLatch_next h with ⟨h2, h⟩ | ⟨_, h⟩
      · rcases readLatch_next h with ⟨h3, h⟩ | ⟨_, h⟩
        · exact .inl ⟨hc, h1, h2, h3, by cases h; rfl⟩
        · exact .inr (.inr ⟨.tbl, by simp, h⟩)
      · exact .inr (.inr ⟨.tlen, by simp, h⟩)
    · exact .inr (.inr ⟨.set, by simp, h⟩)
  · rename_i hc
    exact .inr (.inl ⟨by simpa using hc, by cases h; rfl⟩)

theorem execPck_next {s t : State} (h : execPck s = .next t) :
    (∃ set, s.set.written = true ∧ romSetAt s.cfg s.store s.set.value.toNat = .ok set
      ∧ t = (if pinMapOK s.cfg.pm set then s else s.warned warnPinMap).advance)
    ∨ t = s.raised (.unwrittenRead .set) := by
  rcases withSet_next h with ⟨set, hw, hr, h⟩ | ⟨_, h⟩
  · exact .inl ⟨set, hw, hr, by cases h; rfl⟩
  · exact .inr h

theorem execRpr_next {s t : State} (h : execRpr s = .next t) :
    (∃ set, s.set.written = true ∧ romSetAt s.cfg s.store s.set.value.toNat = .ok set
      ∧ t = ((s.warned (repairMode set).2).writeMode (repairMode set).1).advance)
    ∨ t = s.raised (.unwrittenRead .set) := by
  rcases withSet_next h with ⟨set, hw, hr, h⟩ | ⟨_, h⟩
  · exact .inl ⟨set, hw, hr, by cases h; rfl⟩
  · exact .inr h

theorem execMsk_next {s t : State} (h : execMsk s = .next t) :
    (∃ set, s.set.written = true ∧ romSetAt s.cfg s.store s.set.value.toNat = .ok set
      ∧ ((pinMapOK s.cfg.pm set = true
          ∧ t = ((s.warned (romTypeWarning set)).writeMasks (checkMask s.cfg.pm set) (invertMask s.cfg.pm set)).advance)
        ∨ (pinMapOK s.cfg.pm set = false
          ∧ t = (((s.warned (romTypeWarning set)).writeMasks (Config.freeWord s.freeCount)
              (Config.freeWord (s.freeCount + 1))).tookFree 2).advance)))
    ∨ t = s.raised (.unwrittenRead .set) := by
  rcases withSet_next h with ⟨set, hw, hr, h⟩ | ⟨_, h⟩
  · refine .inl ⟨set, hw, hr, ?_⟩
    cases hb : pinMapOK s.cfg.pm set <;> simp only [hb] at h <;> cases h <;> simp
  · exact .inr h

theorem execRti_next {s t : State} (h : execRti s = .next t) :
    (t = (s.memWrite .rti s.cfg.rtiBase (rtiRecord s.cfg.magic s.set.value s.tbl.value s.tlen.value)).advance
      ∧ s.set.written = true ∧ s.tbl.written = true ∧ s.tlen.written = true)
    ∨ ∃ r ∈ [RegName.set, .tbl, .tlen], t = s.raised (.unwrittenRead r) := by
  rcases readLatch_next h with ⟨h1, h⟩ | ⟨_, h⟩
  · rcases readLatch_next h with ⟨h2, h⟩ | ⟨_, h⟩
    · rcases readLatch_next h with ⟨h3, h⟩ | ⟨_, h⟩
      · exact .inl ⟨by cases h; rfl, h1, h2, h3⟩
      · exact .inr ⟨.tlen, by simp, h⟩
    · exact .inr ⟨.tbl, by simp, h⟩
  · exact .inr ⟨.set, by simp, h⟩

theorem execEnt_next {s t : State} (h : execEnt s = .next t) :
    (t = ((s.writeDir 0x00).writeRs .serve).jump (entryOf s.mode.value) ∧ s.mode.written = true)
    ∨ t = s.raised (.unwrittenRead .mode) := by
  rcases readLatch_next h with ⟨h1, h⟩ | ⟨_, h⟩
  · exact .inl ⟨by cases h; rfl, h1⟩
  · exact .inr h

/-! ## One step -/

/-- What a step that answers a next state has done: a reset, one micro-operation, an illegal fetch, or the
passing of time in a stopped run state. -/
theorem step_next {s t : State} (h : step s = .next t) :
    s.accepted ∧
    ((∃ v, s.resetNow = some v ∧ t = s.tickPassed.performReset v)
    ∨ (s.resetNow = none ∧ s.rs.running = true
        ∧ ((∃ i, decode s.fetched = .ok i ∧ exec i s.tickPassed = .next t)
          ∨ ((∃ e, decode s.fetched = .error e) ∧ t = s.tickPassed.raised (.illegalMicroOp s.upc s.fetched))))
    ∨ (s.resetNow = none ∧ s.rs.running = false ∧ s.ticks ≠ [] ∧ t = s.tickPassed)) := by
  unfold step at h
  split at h
  · cases h
  · rename_i hc
    refine ⟨hc, ?_⟩
    split at h
    · rename_i v hv
      exact .inl ⟨v, hv, by cases h; rfl⟩
    · rename_i hv
      right
      split at h
      · rename_i hr
        refine .inl ⟨hv, hr, ?_⟩
        unfold runOne at h
        split at h
        · rename_i i hd
          exact .inl ⟨i, hd, h⟩
        · rename_i e hd
          exact .inr ⟨⟨e, hd⟩, by cases h; rfl⟩
      · rename_i hr
        unfold State.stopped at h
        split at h
        · cases h
        · rename_i ht
          exact .inr ⟨hv, by simpa using hr, by simpa using ht, by cases h; rfl⟩

end Sys2Proof.Machine
end

