-- ==== Sys2Proof/Laws/PerInstr.lean ====
section
/-! SUPPORT. Facts about each micro-operation as syntax: the fields of its encoding are its opcode and its
operand (30_encoding R90, R92). -/

namespace Sys2Proof.Laws.EncodedFields

/-- Bits 15:8 of the encoding are the opcode, bits 7:0 the operand. -/
def Statement (i : Instr) : Prop := opField (encode i) = i.opcode ∧ lowField (encode i) = i.operand

theorem of_parts (a b : BitVec 8) : (a ++ b).extractLsb' 8 8 = a ∧ (a ++ b).extractLsb' 0 8 = b := by
  constructor <;> apply BitVec.eq_of_getLsbD_eq <;> intro k hk
  · rw [BitVec.getLsbD_extractLsb', BitVec.getLsbD_append, if_neg (by omega), Nat.add_sub_cancel_left,
      decide_eq_true hk, Bool.true_and]
  · rw [BitVec.getLsbD_extractLsb', BitVec.getLsbD_append, if_pos (by omega), Nat.zero_add,
      decide_eq_true hk, Bool.true_and]

theorem smp : Statement .smp := of_parts _ _
theorem tall : Statement .tall := of_parts _ _
theorem tany : Statement .tany := of_parts _ _
theorem lat : Statement .lat := of_parts _ _
theorem lkp : Statement .lkp := of_parts _ _
theorem drv : Statement .drv := of_parts _ _
theorem oen : Statement .oen := of_parts _ _
theorem ods : Statement .ods := of_parts _ _
theorem cnt : Statement .cnt := of_parts _ _
theorem jmp (t : UAddr) : Statement (.jmp t) := of_parts _ _
theorem ba (t : UAddr) : Statement (.ba t) := of_parts _ _
theorem bi (t : UAddr) : Statement (.bi t) := of_parts _ _
theorem bs (t : UAddr) : Statement (.bs t) := of_parts _ _
theorem bchk : Statement .bchk := of_parts _ _
theorem strap : Statement .strap := of_parts _ _
theorem sset : Statement .sset := of_parts _ _
theorem rmp : Statement .rmp := of_parts _ _
theorem pld : Statement .pld := of_parts _ _
theorem pck : Statement .pck := of_parts _ _
theorem rpr : Statement .rpr := of_parts _ _
theorem msk : Statement .msk := of_parts _ _
theorem rti : Statement .rti := of_parts _ _
theorem ent : Statement .ent := of_parts _ _

end Sys2Proof.Laws.EncodedFields
end

