-- ==== Sys2Proof/Machine/Listing.lean ====
section
/-! DEFINITION. The listing syntax (30_encoding R95). -/

namespace Sys2Proof.Machine

/-- The mnemonic of a micro-operation (R92). -/
def mnemonic : Instr → String
  | .smp => "SMP"
  | .tall => "TALL"
  | .tany => "TANY"
  | .lat => "LAT"
  | .lkp => "LKP"
  | .drv => "DRV"
  | .oen => "OEN"
  | .ods => "ODS"
  | .cnt => "CNT"
  | .jmp _ => "JMP"
  | .ba _ => "BA"
  | .bi _ => "BI"
  | .bs _ => "BS"
  | .bchk => "BCHK"
  | .strap => "STRAP"
  | .sset => "SSET"
  | .rmp => "RMP"
  | .pld => "PLD"
  | .pck => "PCK"
  | .rpr => "RPR"
  | .msk => "MSK"
  | .rti => "RTI"
  | .ent => "ENT"

/-- An upper-case hexadecimal digit. -/
def hexDigit (n : Nat) : Char := if n < 10 then Char.ofNat (48 + n) else Char.ofNat (55 + n)

/-- `n` in `width` hexadecimal digits. -/
def hex : Nat → Nat → List Char
  | 0, _ => []
  | width + 1, n => hex width (n / 16) ++ [hexDigit (n % 16)]

/-- `[<target>]`: present for format `T` only, two hexadecimal digits. -/
def listedTarget : Instr → List Char
  | .jmp t | .ba t | .bi t | .bs t => ' ' :: hex 2 t.toNat
  | .smp | .tall | .tany | .lat | .lkp | .drv | .oen | .ods | .cnt => []
  | .bchk | .strap | .sset | .rmp | .pld | .pck | .rpr | .msk | .rti | .ent => []

/-- One line of a listing, `<address>: <word>  <MNEMONIC> [<target>]` (R95). -/
def listingLine (a : UAddr) (i : Instr) : List Char :=
  hex 2 a.toNat ++ [':', ' '] ++ hex 4 (encode i).toNat ++ [' ', ' '] ++ (mnemonic i).toList ++ listedTarget i

end Sys2Proof.Machine
end

