-- ==== Sys2Proof/Tests/Slice0.lean ====
section
/-! SUPPORT. The model's own tests. Every expected value is taken from 95_test_vectors (the section is named)
or written out from the encoding tables of 30_encoding; the witnesses at the end show, for every statement
with hypotheses, a concrete state that meets them. -/

namespace Sys2Proof.Machine.Tests

set_option maxRecDepth 8000

/-! ## Helpers -/

/-- What `f` finds in the next state, if there is one. -/
def after {α : Type} (f : State → α) : StepResult → Option α
  | .next t => some (f t)
  | .fault _ => none
  | .refused _ => none

/-- `s` with the three registers a chip-select test reads. -/
def sampled (raw inv chk : Word) : State :=
  { State.reset with raw := .holds raw, inv := .holds inv, chk := .holds chk }

/-- `PM_REV` (95 §0.1). -/
def pinMapRev : PinMap where
  data := #v[onData 7, onData 6, onData 5, onData 4, onData 3, onData 2, onData 1, onData 0]
  addr := #v[onInput 13, onInput 12, onInput 11, onInput 9, onInput 8, onInput 7, onInput 6, onInput 5,
    onInput 4, onInput 3, onInput 2, onInput 1, onInput 0, none, none, none]
  cs2364 := #v[onInput 10]
  cs2332 := #v[onInput 10, onInput 0]
  cs2316 := #v[onInput 10, onInput 1, onInput 0]
  x1 := onInput 14
  x2 := onInput 15
  sel := []
  boot := []
  led := none
  skip := []

/-- `PM_SKIP` (95 §0.1). -/
def pinMapSkip : PinMap where
  data := fixturePinMap.data
  addr := #v[onInput 0, onInput 1, onInput 2, onInput 3, onInput 4, onInput 5, onInput 7, onInput 8,
    onInput 9, onInput 10, onInput 12, onInput 13, onInput 14, none, none, none]
  cs2364 := #v[onInput 11]
  cs2332 := #v[onInput 11, onInput 14]
  cs2316 := #v[onInput 11, onInput 13, onInput 14]
  x1 := onInput 15
  x2 := none
  sel := []
  boot := []
  led := none
  skip := [6]

/-- A descriptor of a 2364, CS1 active-low (95 §0.3). -/
def desc2364 : RomDesc := ⟨2, .activeLow, .notUsed, .notUsed⟩

/-- A single-ROM set. -/
def oneRom (width : Nat) (d : RomDesc) : RomSet := ⟨1, .twoCheck, .notUsed, width, [d]⟩

/-- `SET_C` (95 §0.3). -/
def setC : RomSet := ⟨2, .addrOnAnyCs, .activeHigh, 15, [desc2364, desc2364]⟩

/-- `SET_M3` (95 §0.3). -/
def setM3 : RomSet :=
  ⟨3, .addrOnAnyCs, .activeLow, 16,
    [desc2364, ⟨1, .activeLow, .activeLow, .notUsed⟩, ⟨0, .activeLow, .activeLow, .activeLow⟩]⟩

/-- `IMG_k` (95 §0.2). -/
def img (k a : Nat) : Byte := BitVec.ofNat 8 (a % 256 + a / 256 + 0x40 * k)

/-- A block header at an address (R101). -/
def header (base : Nat) (bytes : List Byte) : Memory := bytes.zipIdx.map fun (b, i) => (base + i, b)

/-- The Image Store of program P1 (95 §3): SET_X, SET_C0, SET_316. -/
def storeP1 : Memory :=
  header 0x08010000 [1, 2, 0, 0x0E, 7, 1, 2, 2, 0, 0, 0, 0, 0, 0, 0, 0]
    ++ header 0x08014010 [2, 0, 1, 0x0F, 2, 0, 2, 2, 2, 0, 2, 2, 0, 0, 0, 0]
    ++ header 0x0801C020 [1, 1, 0, 0x0E, 0, 0, 1, 0, 0, 0, 0, 0, 0, 0, 0, 0]

/-- A reset state of program P1's configuration, without the copy. -/
def resetP1 (straps : Word) : State :=
  .atReset { fixtureConfig with numSets := 3 } storeP1 microcodeRom straps [] []

/-- `s` with the strap pins of a board. -/
def withStraps (sel boot : List (Fin 32)) (strap : Word) : State :=
  { State.reset with cfg := { fixtureConfig with pm := { fixturePinMap with sel := sel, boot := boot } },
                     strap := strap }

/-! ## Well-formedness: what the checks refuse -/

theorem test_wf_unsorted_cells : Memory.wf [(8, 1), (4, 2)] = false := by decide
theorem test_wf_repeated_cell : Memory.wf [(4, 1), (4, 2)] = false := by decide
theorem test_wf_address_too_high : Memory.wf [(2 ^ 32, 1)] = false := by decide
theorem test_wf_last_address : Memory.wf [(0, 7), (2 ^ 32 - 1, 1)] = true := by decide
theorem test_wf_urom_filler_listed : Urom.wf [(3, 0x0000)] = false := by decide
theorem test_wf_urom_too_high : Urom.wf [(256, 0x1000)] = false := by decide
theorem test_wf_urom_of_the_spec : Urom.wf microcodeRom = true := by decide
theorem test_wf_every_target : ([0x00, 0xFF].map fun t => (Instr.jmp t).wellFormed) = [true, true] := by decide

/-! ## Decoding: words written out from R90 and R92 (95 §2.1) -/

/-- A word from its two fields, bits 15:8 and 7:0 (R90). -/
def word (op lo : Nat) : MicroWord := BitVec.ofNat 16 (op * 256 + lo)

theorem test_decode_serve_rows :
    [0x10, 0x11, 0x12, 0x13, 0x14, 0x15, 0x16, 0x17, 0x18].map (fun op => decode (word op 0)) =
      [.ok .smp, .ok .tall, .ok .tany, .ok .lat, .ok .lkp, .ok .drv, .ok .oen, .ok .ods, .ok .cnt] := by rfl

theorem test_decode_boot_rows :
    [0x40, 0x41, 0x42, 0x43, 0x44, 0x45, 0x46, 0x47, 0x48, 0x49].map (fun op => decode (word op 0)) =
      [.ok .bchk, .ok .strap, .ok .sset, .ok .rmp, .ok .pld, .ok .pck, .ok .rpr, .ok .msk, .ok .rti, .ok .ent] := by
  rfl

theorem test_decode_transfers :
    [decode (word 0x20 0x10), decode (word 0x21 0x15), decode (word 0x22 0x1D), decode (word 0x23 0x28)] =
      [.ok (.jmp 0x10), .ok (.ba 0x15), .ok (.bi 0x1D), .ok (.bs 0x28)] := by rfl

theorem test_decode_bit_by_bit : decode 0b0010001000011101 = .ok (.bi 0b00011101) := by rfl

theorem test_decode_illegal :
    [0x0000, 0x1001, 0x49FF, 0x1900, 0x2400, 0x2FFF, 0x4A00, 0xFFFF].map (fun w : MicroWord => decode w) =
      [.error (.unknownOp 0), .error (.operandNotZero 0x10 1), .error (.operandNotZero 0x49 0xFF),
       .error (.unknownOp 0x19), .error (.unknownOp 0x24), .error (.unknownOp 0x2F), .error (.unknownOp 0x4A),
       .error (.unknownOp 0xFF)] := by rfl

theorem test_table_word : decodeTableWord 16 0x221D = some (.bi 0x1D) ∧ decodeTableWord 16 0x1001 = none := by
  exact ⟨rfl, rfl⟩

theorem test_encode : [encode .smp, encode (.bs 0x38), encode .ent] = [0x1000, 0x2338, 0x4900] := by decide

/-- R214's listing of program A, its last line (R95). -/
theorem test_listing : listingLine 0x1E (.jmp 0x10) = "1E: 2010  JMP 10".toList := by rfl

/-! ## Remapper (95 §2.2) -/

theorem test_mangle_s1 : [0x0123, 0x0400, 0x07FF, 0x1234, 0x1FFF].map (mangleAddr fixturePinMap .r2364) =
    [0x0123, 0x0800, 0x0BFF, 0x2234, 0x3BFF] := by decide
theorem test_mangle_rev : [0x0001, 0x0100, 0x0123, 0x1234].map (mangleAddr pinMapRev .r2364) =
    [0x2000, 0x0010, 0x3090, 0x0989] := by decide
theorem test_logical_address : [logicalAddress fixturePinMap .r2364 0x3FFF, logicalAddress fixturePinMap .r2332 0x2000,
    logicalAddress fixturePinMap .r2316 0x3C00, logicalAddress pinMapSkip .r2364 0x0263] =
    [0x1FFF, 0x0000, 0x0400, 0x0123] := by decide
theorem test_remap_byte : [remapByte fixturePinMap 0xC5, remapByte pinMapRev 0xC5, remapByte pinMapRev 0x46,
    demangleByte pinMapRev 0xA3] = [0xC5, 0xA3, 0x62, 0xC5] := by decide
theorem test_remap_ref_single : [remapRef fixturePinMap (oneRom 14 desc2364) img 0x0523,
    remapRef pinMapRev (oneRom 14 desc2364) img 0x0989, remapRef pinMapSkip (oneRom 15 desc2364) img 0x77FF] =
    [0x24, 0x62, 0x1E] := by decide
theorem test_remap_ref_set_c : [0x0005, 0x0405, 0x4005, 0x7BFF, 0x4405].map (remapRef fixturePinMap setC img) =
    [0x05, 0x05, 0x45, 0x5E, 0x05] := by decide
theorem test_remap_ref_set_m3 : [0xE005, 0x9405, 0xA405, 0x6C05, 0xC405].map (remapRef fixturePinMap setM3 img) =
    [0x15, 0x4D, 0x45, 0x89, 0x05] := by decide
theorem test_selected_roms : [0x0000, 0x0400, 0x4000, 0x4400].map (selectedRoms fixturePinMap setC) =
    [[], [0], [1], [0, 1]] := by decide

/-! ## PinMap and selector (95 §2.3) -/

theorem test_masks_2316 : (checkMask fixturePinMap (oneRom 14 ⟨0, .activeLow, .activeHigh, .activeLow⟩),
    invertMask fixturePinMap (oneRom 14 ⟨0, .activeLow, .activeHigh, .activeLow⟩)) = (0x3400, 0x1000) := by decide
theorem test_masks_not_used : (checkMask fixturePinMap (oneRom 14 ⟨1, .activeLow, .notUsed, .notUsed⟩),
    invertMask fixturePinMap (oneRom 14 ⟨1, .activeLow, .notUsed, .notUsed⟩)) = (0x2400, 0x0000) := by decide
theorem test_masks_multi : [checkMask fixturePinMap setC, invertMask fixturePinMap setC,
    checkMask fixturePinMap setM3, invertMask fixturePinMap setM3] = [0x4400, 0x4400, 0xC400, 0x0000] := by decide
theorem test_pin_map_ok : [pinMapOK fixturePinMap (oneRom 14 desc2364), pinMapOK fixturePinMap setC,
    pinMapOK fixturePinMap setM3, pinMapOK pinMapRev (oneRom 14 desc2364), pinMapOK pinMapSkip (oneRom 15 desc2364)] =
    [true, true, true, true, true] := by decide
theorem test_pin_map_faults : [pinMapOK pinMapSkip (oneRom 14 desc2364), pinMapOK pinMapSkip setM3,
    pinMapOK { fixturePinMap with x1 := onInput 10 } setC,
    pinMapOK { fixturePinMap with data := fixturePinMap.data.set 7 (onData 8) } (oneRom 14 desc2364)] =
    [false, false, false, false] := by decide

/-- `PM_S1` as a record of R104, with two select pins, one boot pin and no LED. -/
def recordS1 : List Byte :=
  [1, 0, 1, 1, 1, 2, 1, 3, 1, 4, 1, 5, 1, 6, 1, 7]
    ++ [0, 0, 0, 1, 0, 2, 0, 3, 0, 4, 0, 5, 0, 6, 0, 7, 0, 8, 0, 9, 0, 11, 0, 12, 0, 13, 0xFF, 0, 0xFF, 0, 0xFF, 0]
    ++ [0, 10, 0, 10, 0, 13, 0, 10, 0, 12, 0, 13, 0, 14, 0, 15]
    ++ [2, 0, 2, 1, 0xFF, 0, 0xFF, 0, 2, 2, 0xFF, 0, 0]

theorem test_pin_map_record : parsePinMap 2 1 recordS1 = some fixturePinMap := by rfl
/-- Only the LED may be on another port (R104). -/
theorem test_pin_map_other_port : parsePinMap 2 1 (recordS1.set 0 3) = none
    ∧ parsePinMap 2 1 (recordS1.set 74 3) = some { fixturePinMap with led := some ⟨.other, 0⟩ } := by
  exact ⟨rfl, rfl⟩
theorem test_cs2_shares_cs3 : cs2SharesCs3 fixturePinMap = true := by decide

/-! ## The Image Store and the configuration (95 §3 P1, 93 U8 to U10) -/

theorem test_set_addresses : [0, 1, 2].map (setAddr fixtureConfig storeP1) =
    [some 0x08010000, some 0x08014010, some 0x0801C020] := by decide
theorem test_set_of_store : romSetAt { fixtureConfig with numSets := 3 } storeP1 1 =
    .ok { setC with serveMode := .twoCheck } := by rfl
theorem test_accepts_p1 : [0, 1, 2, 3].map (fun v => configDefect { fixtureConfig with numSets := 3 } storeP1 v) =
    [none, none, none, none] := by decide
theorem test_refuses_no_sets : configDefect { fixtureConfig with numSets := 0 } fixtureStore 0 = some .noSets := by
  decide
theorem test_refuses_rti_base : configDefect { fixtureConfig with rtiBase := 0x20008002 } fixtureStore 0 =
    some .rtiMisaligned := by decide
theorem test_refuses_overlap :
    configDefect { fixtureConfig with fastCopy := true, fastBase := 0x20007000 } fixtureStore 0 =
      some .rangesOverlap := by decide
theorem test_refuses_reserved_mode :
    configDefect fixtureConfig (header 0x08010000 [1, 3, 0, 0x0E, 2, 0, 2, 2, 0, 0, 0, 0, 0, 0, 0, 0]) 0 =
      some (.serveMode 3) := by decide
theorem test_refuses_reserved_polarity :
    configDefect fixtureConfig (header 0x08010000 [1, 0, 9, 0x0E, 2, 0, 2, 2, 0, 0, 3, 0, 0, 0, 0, 0]) 0 =
      some (.polarity 3) := by decide
theorem test_refuses_rom_count :
    configDefect fixtureConfig (header 0x08010000 [4, 0, 0, 0x0E, 2, 0, 2, 2, 0, 0, 0, 0, 0, 0, 0, 0]) 0 =
      some (.romCount 4) := by decide

/-! ## Serve micro-operations (95 §2.4, §2.5) -/

theorem test_smp : after (fun t => (t.raw, t.samples, t.upc)) (exec .smp { State.reset with samples := [0x0401, 7] }) =
    some (.holds 0x0401, [7], 1) := by decide
theorem test_smp_width : after (·.raw) (exec .smp { State.reset with samples := [0x1FFFF] }) =
    some (.holds 0xFFFF) := by decide
theorem test_tall : [(0xFBFF, 0, 0x0400), (0x1123, 0x1000, 0x3400), (0x0400, 0x0400, 0x0400), (5, 0, 0)].map
    (fun (r, i, c) => after (fun t => (t.eff.value, t.act.value)) (exec .tall (sampled r i c))) =
    [some (0, true), some (0, true), some (0, true), some (0, true)] := by decide
theorem test_tall_inactive : [(0x0400, 0, 0x0400), (0x0000, 0x0400, 0x0400), (0x0123, 0x1000, 0x3400)].map
    (fun (r, i, c) => after (fun t => (t.eff.value, t.act.value)) (exec .tall (sampled r i c))) =
    [some (0x0400, false), some (0x0400, false), some (0x1000, false)] := by decide
theorem test_tany : [(0x4000, 0x4400, 0x4400), (0x4400, 0x4400, 0x4400), (0x8400, 0, 0xC400)].map
    (fun (r, i, c) => after (fun t => (t.eff.value, t.act.value)) (exec .tany (sampled r i c))) =
    [some (0x0400, true), some (0, true), some (0x8400, true)] := by decide
theorem test_tany_inactive : [(0x0000, 0x4400, 0x4400), (0x4400, 0, 0x4400), (5, 0, 0)].map
    (fun (r, i, c) => after (fun t => (t.eff.value, t.act.value)) (exec .tany (sampled r i c))) =
    [some (0x4400, false), some (0x4400, false), some (0, false)] := by decide
theorem test_lat : after (fun t => (t.prev, t.upc)) (exec .lat { sampled 0x4005 0 0 with prev := .holds 0x0123 }) =
    some (.holds 0x4005, 1) := by decide

/-- `SET_A` served from the prebuilt table; the byte of address 0x123 is 0x24 (95 §2.5). -/
def lookup (raw : Word) : State :=
  { sampled raw 0 0x0400 with tlen := .holds 0x4000, tbl := .holds 0x08010010,
                              store := fixtureStore ++ [(0x08010133, 0x24)] }

theorem test_lkp : after (fun t => (t.dat, t.rs)) (exec .lkp (lookup 0x0123)) = some (.holds 0x24, .boot) := by decide
theorem test_lkp_out_of_range : after (fun t => (t.dat.written, t.upc, t.rs, t.faultRec)) (exec .lkp (lookup 0x4000)) =
    some (false, 0, .faulted, some (.indexOutOfRange 0x4000)) := by decide
theorem test_drv : after (fun t => (t.odr, t.dir)) (exec .drv { State.reset with dat := .holds 0x1A3 }) =
    some (.holds 0xA3, 0x00) := by decide
theorem test_oen : after (fun t => (t.dir, t.pin 0 0, t.pin 0 7)) (exec .oen { State.reset with odr := .holds 0x5A }) =
    some (0xFF, .driven false, .driven false) := by decide
/-- D7 to D0 as the host reads them, through a board that crosses the data lines (95 §0.1, R135). -/
theorem test_host_byte : [0xFF, 0x00].map (fun d : Byte => State.hostByte
    { State.reset with cfg := { fixtureConfig with pm := pinMapRev }, odr := .holds 0xA3, dir := d } 0) =
    [some 0xC5, none] := by decide
/-- Two data lines on one bit: nothing is known of what the host reads (U6). -/
theorem test_host_byte_free : State.hostByte { State.reset with
    cfg := { fixtureConfig with pm := { fixturePinMap with data := fixturePinMap.data.set 7 (onData 6) } }
    odr := .holds 0xFF, dir := 0xFF } 3 = some (Config.freeHostByte 3) := by rfl
theorem test_ods : after (fun t => (t.odr, t.pin 0 5))
    (exec .ods { State.reset with dir := 0xFF, odr := .holds 0x24 }) = some (.holds 0x24, .z) := by decide

/-- A RuntimeInfo record that holds a count. -/
def counted (b0 b1 b2 b3 : Byte) (en : Bool) : State :=
  { State.reset with cfg := { fixtureConfig with countEn := en },
                     rti := [(0x2000800C, b0), (0x2000800D, b1), (0x2000800E, b2), (0x2000800F, b3)] }

theorem test_cnt_carries : after (fun t => t.rti.map (·.2)) (exec .cnt (counted 0xFF 0 0 0 true)) =
    some [0, 1, 0, 0] := by decide
theorem test_cnt_wraps_or_is_off : [exec .cnt (counted 0xFF 0xFF 0xFF 0xFF true), exec .cnt (counted 5 0 0 0 false)].map
    (after fun t => (t.rti.map (·.2), t.trace)) =
    [some ([0, 0, 0, 0], [.writeCount 0]), some ([5, 0, 0, 0], [])] := by decide

/-- A probe inside a CNT from 0xFF, with the second byte written and the first not yet (R73). -/
theorem test_cnt_torn : (after fun t => [0, 1, 2, 3].map (tornCountByte (counted 0xFF 0 0 0 true) t (· == 1)))
    (exec .cnt (counted 0xFF 0 0 0 true)) = some [0xFF, 1, 0, 0] := by decide

/-! ## Control transfer (95 §2.6) -/

/-- `upc`, `ACT`, `RAW` and `PREV` for a branch. -/
def branching (a : UAddr) (act : Bool) (raw prev : Word) : State :=
  { State.reset with upc := a, act := .holds act, raw := .holds raw, prev := .holds prev }

theorem test_jmp : after (·.upc) (exec (.jmp 0x25) (branching 0x2C true 0 0)) = some 0x25 := by decide
theorem test_ba : [exec (.ba 0x15) (branching 0x1C true 0 0), exec (.ba 0x15) (branching 0x1C false 0 0),
    exec (.ba 0xFF) (branching 0xFF false 0 0)].map (after (·.upc)) = [some 0x15, some 0x1D, some 0x00] := by decide
theorem test_ba_unwritten : after (·.faultRec) (exec (.ba 0x15) State.reset) =
    some (some (.unwrittenRead .act)) := by decide
theorem test_bi : [exec (.bi 0x10) (branching 0x12 false 0 0), exec (.bi 0x10) (branching 0x12 true 0 0)].map
    (after (·.upc)) = [some 0x10, some 0x13] := by decide
theorem test_bs : [exec (.bs 0x28) (branching 0x2B true 5 5), exec (.bs 0x38) (branching 0x3B true 0x4005 0x0405)].map
    (after (·.upc)) = [some 0x28, some 0x3C] := by decide

/-! ## Boot (95 §2.2, §2.3, §2.7, §3 P1) -/

theorem test_bchk : [exec .bchk (withStraps [] [2] 0b100), exec .bchk (withStraps [] [2] 0b011),
    exec .bchk (withStraps [] [0, 1] 0b01), exec .bchk (withStraps [] [] 0)].map (after fun t => (t.rs, t.upc)) =
    [some (.bootloader, 0), some (.boot, 1), some (.boot, 1), some (.boot, 1)] := by decide
theorem test_strap : [exec .strap (withStraps [0, 1, 2] [] 0b101), exec .strap (withStraps [5, 3] [] 0b001000),
    exec .strap (withStraps [0, 1, 2, 3] [] 0xFFFFFFFF), exec .strap (withStraps [] [] 0xFFFFFFFF)].map
    (after (·.sel.value)) = [some 5, some 2, some 15, some 0] := by decide
theorem test_sset : [0, 1, 2, 3, 4, 5, 6].map (fun n => after (·.set.value)
    (exec .sset { resetP1 0 with sel := .holds n })) =
    [some 0, some 1, some 2, some 0, some 1, some 2, some 0] := by decide
theorem test_rmp : [0, 1, 2].map (fun n => after (fun t => (t.tlen.value, t.tbl.value))
    (exec .rmp { resetP1 0 with set := .holds n })) =
    [some (0x4000, 0x08010010), some (0x8000, 0x08014020), some (0x4000, 0x0801C030)] := by decide

/-- A copy of three bytes. -/
def preloading (copy : Bool) : State :=
  { State.reset with cfg := { fixtureConfig with fastCopy := copy }, set := .holds 0,
                     tbl := .holds 0x08010000, tlen := .holds 4 }

theorem test_pld : after (fun t => (t.fast, t.tbl.value)) (exec .pld (preloading true)) =
    some ([(0x20000000, 1), (0x20000001, 0), (0x20000002, 0), (0x20000003, 0x0E)], 0x20000000) := by decide
theorem test_pld_off : after (fun t => (t.fast, t.tbl.value, t.upc)) (exec .pld (preloading false)) =
    some ([], 0x08010000, 1) := by decide
theorem test_pck : [fixturePinMap, { fixturePinMap with addr := fixturePinMap.addr.set 12 (onInput 14) }].map
    (fun pm => after (·.warn) (exec .pck { State.reset with cfg := { fixtureConfig with pm := pm }, set := .holds 0 })) =
    [some 0, some 8] := by decide
theorem test_rpr : [0, 1, 2].map (fun n => after (fun t => (t.mode.value, t.warn))
    (exec .rpr { resetP1 0 with set := .holds n })) =
    [some (.twoCheck, 2), some (.addrOnAnyCs, 1), some (.addrOnCs, 0)] := by decide
theorem test_msk : [0, 1, 2].map (fun n => after (fun t => (t.chk.value, t.inv.value, t.warn))
    (exec .msk { resetP1 0 with set := .holds n })) =
    [some (0x0400, 0x0400, 4), some (0x4400, 0x4400, 0), some (0x3400, 0x1000, 0)] := by decide
theorem test_rti : after (fun t => t.rti.map (·.2))
    (exec .rti { State.reset with set := .holds 1, tbl := .holds 0x08014020, tlen := .holds 0x8000 }) =
    some [0x61, 0x62, 0x63, 0x64, 0x18, 0, 0, 0, 1, 0, 0, 0, 0, 0, 0, 0, 0x20, 0x40, 0x01, 0x08, 0, 0x80, 0, 0] := by
  decide
/-- A probe inside an RTI that has written the fields `size` and `set_index` of an older record (R240). -/
theorem test_rti_torn : (after fun t => [0, 4, 8, 12, 16, 20].map (tornRecordByte { State.reset with
      set := .holds 1, tbl := .holds 0x08014020, tlen := .holds 0x8000, rti := header 0x20008000 (List.replicate 24 9) }
      t fun i => i / 4 == 1 || i / 4 == 2))
    (exec .rti { State.reset with set := .holds 1, tbl := .holds 0x08014020, tlen := .holds 0x8000,
                                  rti := header 0x20008000 (List.replicate 24 9) }) =
    some [9, 0x18, 1, 9, 9, 9] := by decide
theorem test_ent : [ServeMode.twoCheck, .addrOnCs, .addrOnAnyCs].map (fun m => after (fun t => (t.upc, t.dir, t.rs))
    (exec .ent { State.reset with mode := .holds m, dir := 0xFF })) =
    [some (0x10, 0, .serve), some (0x20, 0, .serve), some (0x30, 0, .serve)] := by decide

/-! ## One step (95 §2.8) -/

theorem test_step_illegal : after (fun t => (t.rs, t.faultRec)) (step { State.reset with upc := 0x0A }) =
    some (.faulted, some (.illegalMicroOp 0x0A 0x0000)) := by decide
theorem test_step_reset_wins : after (fun t => (t.odr.written, t.upc, t.rs, t.dir, t.faultRec))
    (step { State.reset with upc := 0x19, rs := .faulted, dir := 0xFF, dat := .holds 0x24, odr := .holds 0x24,
                             faultRec := some (.indexOutOfRange 0x4000), ticks := [.reset 0] }) =
    some (false, 0x00, .boot, 0x00, none) := by decide
theorem test_step_fetches_the_placed_word :
    after (·.upc) (step (State.reset.withFetchWord 16 0x20FF)) = some 0xFF := by decide

/-! ## Witnesses: states that meet the statements' hypotheses -/

/-- An Image Store whose one block is served in mode `m`: SET_A, SET_B, SET_C (95 §0.3), with one table byte. -/
def storeOf : ServeMode → Memory
  | .twoCheck => fixtureStore ++ [(0x08010133, 0x24)]
  | .addrOnCs =>
    header 0x08010000 [1, 1, 0, 0x0E, 2, 0, 2, 2, 0, 0, 0, 0, 0, 0, 0, 0] ++ [(0x08010133, 0x24)]
  | .addrOnAnyCs =>
    header 0x08010000 [2, 2, 1, 0x0F, 2, 0, 2, 2, 2, 0, 2, 2, 0, 0, 0, 0] ++ [(0x08014015, 0x45)]

/-- `CHK` and `INV` of that set. -/
def masksFor : ServeMode → Word × Word
  | .twoCheck | .addrOnCs => (0x0400, 0)
  | .addrOnAnyCs => (0x4400, 0x4400)

/-- A sample that the set's test finds active, and its table byte. -/
def activeFor : ServeMode → Word × Byte
  | .twoCheck | .addrOnCs => (0x0123, 0x24)
  | .addrOnAnyCs => (0x4005, 0x45)

/-- The block in program `m` at offset `o`, the sample `raw` taken, the host presenting `v` next. -/
def serving (m : ServeMode) (o : Nat) (raw v : Word) : State :=
  { State.atReset fixtureConfig (storeOf m) microcodeRom 0 [v] [] with
    upc := entryOf m + BitVec.ofNat 8 o, rs := .serve, dir := if idleOffset o then 0x00 else 0xFF
    sel := .holds 0, set := .holds 0, mode := .holds m, tbl := .holds 0x08010010
    tlen := .holds (if m = .addrOnAnyCs then 0x8000 else 0x4000)
    chk := .holds (masksFor m).1, inv := .holds (masksFor m).2, raw := .holds raw, eff := .holds 0
    act := .holds true, dat := .holds ((activeFor m).2.setWidth 32), prev := .holds (activeFor m).1 }

theorem masks_single : checkMask fixturePinMap (oneRom 14 desc2364) = 0x0400
    ∧ invertMask fixturePinMap (oneRom 14 desc2364) = 0 := by decide
theorem masks_multi : checkMask fixturePinMap setC = 0x4400 ∧ invertMask fixturePinMap setC = 0x4400 := by decide
theorem table_lengths : (oneRom 14 desc2364).tableLength = 0x4000 ∧ setC.tableLength = 0x8000 := by decide
theorem sel_zero : strapSelector fixturePinMap.sel 0 = 0 := by decide
theorem set_zero : selectedSet fixtureConfig (strapSelector fixturePinMap.sel 0) = 0 := by decide
theorem activeFor_active (m : ServeMode) :
    testActive m (activeFor m).1 (masksFor m).2 (masksFor m).1 = true := by cases m <;> decide
theorem activeFor_lt (m : ServeMode) :
    (activeFor m).1 < (if m = .addrOnAnyCs then 0x8000 else 0x4000) := by cases m <;> decide
theorem activeFor_cell (m : ServeMode) :
    cellAt (storeOf m) (tableAddress 0x08010010 (activeFor m).1).toNat = some (activeFor m).2 := by cases m <;> decide
theorem storeOf_accepted (m : ServeMode) : configDefect fixtureConfig (storeOf m) 0 = none := by cases m <;> decide

theorem serving_offset (m : ServeMode) (o : Nat) (raw v : Word) (ho : o < 15) : (serving m o raw v).offset = o := by
  have h : ∀ m : ServeMode, ∀ o : Fin 15, (entryOf m + BitVec.ofNat 8 o.val - entryOf m).toNat = o.val := by
    intro m
    cases m <;> decide
  exact h m ⟨o, ho⟩

theorem serving_pinMapOK (m : ServeMode) (o : Nat) (raw v : Word) : (serving m o raw v).pinMapFails = false := by
  cases m
  · exact pinMapFails_of_ok (set := oneRom 14 desc2364) rfl rfl
      (by decide : pinMapOK fixturePinMap (oneRom 14 desc2364) = true)
  · exact pinMapFails_of_ok (set := { oneRom 14 desc2364 with serveMode := .addrOnCs }) rfl rfl
      (by decide : pinMapOK fixturePinMap { oneRom 14 desc2364 with serveMode := .addrOnCs } = true)
  · exact pinMapFails_of_ok (set := setC) rfl rfl (by decide : pinMapOK fixturePinMap setC = true)

theorem serving_tableEntry (m : ServeMode) (o : Nat) (raw v : Word) :
    (serving m o raw v).tableEntry (activeFor m).1 = (activeFor m).2 :=
  (servedByte_ok (serving_pinMapOK m o raw v) _ _).trans <| congrArg (Option.getD · (Config.freeByte 0 .store (tableAddress 0x08010010 (activeFor m).1).toNat)) (activeFor_cell m)

theorem serving_selected (m : ServeMode) (o : Nat) (raw v : Word) :
    ∃ set, (serving m o raw v).selected set ∧ (serving m o raw v).tlen = .holds set.tableLength
      ∧ (serving m o raw v).tbl = .holds (serving m o raw v).tableBase
      ∧ (serving m o raw v).mode = .holds (repairMode set).1 ∧ (serving m o raw v).masksOf set := by
  cases m
  · exact ⟨oneRom 14 desc2364, rfl, congrArg Latch.holds table_lengths.1.symm, rfl, rfl, rfl, rfl,
      fun _ => ⟨masks_single.1.symm, masks_single.2.symm⟩⟩
  · exact ⟨{ oneRom 14 desc2364 with serveMode := .addrOnCs }, rfl, congrArg Latch.holds table_lengths.1.symm, rfl, rfl,
      rfl, rfl, fun _ => ⟨masks_single.1.symm, masks_single.2.symm⟩⟩
  · exact ⟨setC, rfl, congrArg Latch.holds table_lengths.2.symm, rfl, rfl, rfl, rfl,
      fun _ => ⟨masks_multi.1.symm, masks_multi.2.symm⟩⟩

theorem serving_runInv (m : ServeMode) (o : Nat) (raw v : Word) (ho : o < 15)
    (h : testActive m raw (masksFor m).2 (masksFor m).1 = true) : RunInv (serving m o raw v) where
  rom := rfl
  boot := fun h => by cases h
  serve := fun _ =>
    { pc := by rw [serving_offset m o raw v ho]; exact ho
      pins := by rw [serving_offset m o raw v ho]; rfl
      sel := congrArg Latch.holds sel_zero.symm
      set := congrArg Latch.holds set_zero.symm
      config := serving_selected m o raw v
      sampled := fun _ => rfl
      tested := fun _ => rfl
      looked := fun _ => rfl
      latched := fun _ _ => rfl
      found := fun _ => h.symm
      active := fun _ => h
      serves := fun _ => ⟨(activeFor m).1, activeFor_active m, activeFor_lt m, by rw [serving_tableEntry]; rfl⟩ }
  bootloader := fun h => by cases h
  record := fun f h => by cases h
  faulted := ⟨fun h => (by cases h), fun h => (by cases h)⟩

theorem serving_accepted (m : ServeMode) (o : Nat) (raw v : Word) : (serving m o raw v).accepted := storeOf_accepted m

/-- What the statements about the serve loop assume of a state. -/
def FitToServe (s : State) : Prop := RunInv s ∧ s.accepted ∧ s.noReset ∧ s.rs = .serve

theorem serving_fit (m : ServeMode) (o : Nat) (raw v : Word) (ho : o < 15)
    (h : testActive m raw (masksFor m).2 (masksFor m).1 = true) : FitToServe (serving m o raw v) :=
  ⟨serving_runInv m o raw v ho h, serving_accepted m o raw v, fun _ h => (List.not_mem_nil h).elim, rfl⟩

/-- A reset state with the microcode ROM of the spec meets the program invariant. -/
theorem atReset_runInv (cfg : Config) (store : Memory) (strap : Word) (samples : List Word) (ticks : List Tick) :
    RunInv (.atReset cfg store microcodeRom strap samples ticks) where
  rom := rfl
  boot := fun _ =>
    { pc := (by decide : (0x00 : UAddr).toNat ≤ 9)
      pins := rfl
      scratch := ⟨rfl, rfl, rfl, rfl, rfl, rfl⟩
      sel := fun h => (by decide : ¬ 2 ≤ (0 : Nat)) h |>.elim
      set := fun h => (by decide : ¬ 3 ≤ (0 : Nat)) h |>.elim
      table := fun h => (by decide : ¬ 4 ≤ (0 : Nat)) h |>.elim
      mode := fun h => (by decide : ¬ 7 ≤ (0 : Nat)) h |>.elim
      masks := fun h => (by decide : ¬ 8 ≤ (0 : Nat)) h |>.elim }
  serve := fun h => by cases h
  bootloader := fun h => by cases h
  record := fun f h => by cases h
  faulted := ⟨fun h => (by cases h), fun h => (by cases h)⟩

/-- The boot program's start with other straps: the bootloader pin is low. -/
def booting : State := .atReset { fixtureConfig with numSets := 3 } storeP1 microcodeRom 0b011 [] [.quiet, .quiet]

theorem booting_runInv : RunInv booting := atReset_runInv _ _ _ _ _

theorem booting_noReset : booting.noReset := by
  intro x hx
  have : x ∈ [Tick.quiet, .quiet] := hx
  simpa using this

/-! ### The step, faults and reset -/

theorem reset_accepted : State.reset.accepted := (by decide : configDefect fixtureConfig fixtureStore 0 = none)
theorem booting_accepted : booting.accepted :=
  (by decide : configDefect { fixtureConfig with numSets := 3 } storeP1 0b011 = none)

theorem witness_step_boot : State.reset.accepted ∧ State.reset.resetNow = none ∧ State.reset.rs = .boot
    ∧ decode (uromWord State.reset.urom State.reset.upc) = .ok .bchk ∧ Instr.bchk.wellFormed = true :=
  ⟨reset_accepted, rfl, rfl, rfl, rfl⟩
theorem witness_step_serve : (serving .twoCheck 0xE 0x0123 0).accepted
    ∧ (serving .twoCheck 0xE 0x0123 0).resetNow = none ∧ (serving .twoCheck 0xE 0x0123 0).rs = .serve
    ∧ decode (uromWord microcodeRom (entryOf .twoCheck + 0xE)) = .ok (.jmp 0x10) ∧ (Instr.jmp 0x10).wellFormed = true :=
  ⟨serving_accepted _ _ _ _, rfl, rfl, rfl, rfl⟩
theorem witness_illegal : State.accepted { State.reset with upc := 0x0A }
    ∧ decode (uromWord microcodeRom 0x0A) = .error (.unknownOp 0) ∧ decode 0x49FF = .error (.operandNotZero 0x49 0xFF) :=
  ⟨reset_accepted, rfl, rfl⟩
theorem witness_reset_wins :
    State.accepted { serving .twoCheck 9 0x0123 0 with ticks := [.reset 0, .quiet] } := serving_accepted .twoCheck 9 0x0123 0
theorem witness_stopped : State.accepted { State.reset with rs := .bootloader }
    ∧ State.accepted { State.reset with rs := .faulted, ticks := [.quiet] }
    ∧ step { State.reset with rs := .bootloader } = .fault (.sequencerStopped .bootloader)
    ∧ after (·.rs) (step { State.reset with rs := .faulted, ticks := [.quiet] }) = some .faulted :=
  ⟨reset_accepted, reset_accepted, rfl, by decide⟩
theorem witness_refused : configDefect { fixtureConfig with rtiBase := 0xFFFFFFEC } fixtureStore 0 = some .rangeWraps
    ∧ configDefect { fixtureConfig with rtiBase := 0xFFFFFFE8 } fixtureStore 0 = none
    ∧ configDefect { fixtureConfig with inW := 13 } fixtureStore 0 = some (.inputWidth 13)
    ∧ configDefect { fixtureConfig with inW := 14 } fixtureStore 0 = none := by decide

/-- A copying board with the image of its one ROM placed. -/
def copying : Config := { fixtureConfig with fastCopy := true, images := [[⟨0x08020000, 8192⟩]] }

theorem witness_accepted_copy : configDefect copying fixtureStore 0 = none
    ∧ configDefect { copying with remapAtBoot := true } fixtureStore 0 = none
    ∧ configDefect { copying with remapAtBoot := true, images := [] } fixtureStore 0 = some (.imageMissing 0)
    ∧ configDefect { copying with images := [[⟨0x08020000, 8191⟩]] } fixtureStore 0 = some (.imageLength 0 8191) := by
  decide

/-! ### One micro-operation: the hypotheses of its statement, clause by clause -/

theorem witness_smp : (0xFFFF : Word).toNat < 2 ^ fixtureConfig.inW := by decide
theorem witness_test : (sampled 0x0400 0 0x0400).raw = .holds 0x0400 ∧ (sampled 0x0400 0 0x0400).inv = .holds 0
    ∧ (sampled 0x0400 0 0x0400).chk = .holds 0x0400 := ⟨rfl, rfl, rfl⟩
theorem witness_masks_of_two_tests : (0x80000001 : Word) ≠ 0 ∧ (0x80000000 : Word) = bitWord 31
    ∧ (0x80000001 : Word).getLsbD 0 = true ∧ (0x80000001 : Word).getLsbD 31 = true := by decide
theorem witness_lkp : (lookup 0x3FFF).raw = .holds 0x3FFF ∧ (lookup 0x3FFF).tlen = .holds 0x4000
    ∧ (lookup 0x3FFF).tbl = .holds 0x08010010 ∧ (0x3FFF : Word).toNat < (0x4000 : Word).toNat
    ∧ (0x4000 : Word).toNat ≤ (0x4000 : Word).toNat ∧ (lookup 0x3FFF).pinMapFails = false
    ∧ State.pinMapFails { lookup 0x3FFF with cfg := { fixtureConfig with pm := pinMapSkip }, set := .holds 0 } = true := by
  decide
theorem witness_drv : State.dat { State.reset with dat := .holds 0x24 } = .holds 0x24 := rfl
theorem witness_oen : (State.odr { State.reset with odr := .holds 0x5A }).written = true := rfl
theorem witness_cnt : (counted 0 0 0 0 true).cfg.countEn = true ∧ (counted 0 0 0 0 false).cfg.countEn = false :=
  ⟨rfl, rfl⟩
theorem witness_branch : (branching 0 true 5 5).act = .holds true ∧ (branching 0 false 5 5).act = .holds false
    ∧ (branching 0 true 5 5).raw = .holds 5 ∧ (branching 0 true 5 5).prev = .holds 5
    ∧ (branching 0 true 6 5).raw = .holds 6 := ⟨rfl, rfl, rfl, rfl, rfl⟩
theorem witness_bchk : [(withStraps [] [2] 0b100), (withStraps [] [2] 0b011), (withStraps [] [] 0)].map (fun s =>
    decide (s.cfg.pm.boot ≠ [] ∧ ∀ p ∈ s.cfg.pm.boot, s.strap.getLsbD p.val = true)) = [true, false, false] := by decide
theorem witness_sset : State.sel { resetP1 0 with sel := .holds 3 } = .holds 3 ∧ (resetP1 0).cfg.numSets ≠ 0
    ∧ { fixtureConfig with numSets := 0 }.numSets = 0 := by decide

/-- The state of program P1 with `SET` chosen. -/
def choosing (n : Word) : State := { resetP1 0 with set := .holds n }

theorem witness_set : (choosing 1).set = .holds 1
    ∧ romSetAt (choosing 1).cfg (choosing 1).store (1 : Word).toNat = .ok { setC with serveMode := .twoCheck } := ⟨rfl, rfl⟩
theorem witness_rmp_building : romSetAt { copying with remapAtBoot := true } fixtureStore 0 = .ok (oneRom 14 desc2364)
    ∧ pinMapOK fixturePinMap (oneRom 14 desc2364) = true ∧ pinMapOK pinMapSkip (oneRom 14 desc2364) = false :=
  ⟨rfl, by decide, by decide⟩
/-- A board that builds its tables, with no image placed for set 1: its bytes are free (log 22). -/
theorem test_image_not_placed : logicalImage { State.reset with cfg := { copying with remapAtBoot := true } } 1 0 5 =
    Config.freeImageByte 1 0 5 := by rfl
theorem witness_pld : (preloading true).set = .holds 0 ∧ (preloading true).tbl = .holds 0x08010000 ∧ (preloading true).tlen = .holds 4
    ∧ (preloading true).cfg.fastCopy = true ∧ (preloading false).cfg.fastCopy = false :=
  ⟨rfl, rfl, rfl, rfl, rfl⟩
theorem witness_rpr_multi : romSetAt (resetP1 0).cfg (resetP1 0).store 1 = .ok { setC with serveMode := .twoCheck }
    ∧ setC.romCount > 1 ∧ ServeMode.twoCheck ≠ .addrOnAnyCs := ⟨rfl, by decide, by decide⟩
theorem witness_rpr_single : romSetAt (resetP1 0).cfg (resetP1 0).store 0 =
    .ok ⟨1, .addrOnAnyCs, .notUsed, 14, [⟨7, .activeHigh, .notUsed, .notUsed⟩]⟩ := rfl
theorem witness_rpr_kept : romSetAt (resetP1 0).cfg (resetP1 0).store 2 =
    .ok ⟨1, .addrOnCs, .notUsed, 14, [⟨0, .activeLow, .activeHigh, .activeLow⟩]⟩ := rfl
theorem witness_repaired : after (·.mode.value) (exec .rpr (choosing 1)) = some .addrOnAnyCs := by decide
theorem witness_select_lines : [oneRom 14 desc2364, oneRom 14 ⟨1, .activeLow, .activeHigh, .notUsed⟩,
    oneRom 14 ⟨0, .activeLow, .activeHigh, .activeLow⟩, setC, setM3].map (fun set =>
      (set.romCount, (set.roms[0]?).map RomDesc.effType)) =
    [(1, some .r2364), (1, some .r2332), (1, some .r2316), (2, some .r2364), (3, some .r2364)] := by decide
theorem witness_rti : State.set { lookup 0 with set := .holds 0 } = .holds 0 ∧ (lookup 0).tbl = .holds 0x08010010
    ∧ (lookup 0).tlen = .holds 0x4000 := ⟨rfl, rfl, rfl⟩
theorem witness_ent : [ServeMode.twoCheck, .addrOnCs, .addrOnAnyCs].map
    (fun m => State.mode { State.reset with mode := .holds m }) =
      [.holds .twoCheck, .holds .addrOnCs, .holds .addrOnAnyCs] := rfl

/-- Every register of a state holds a value but those that are named. -/
theorem witness_unwritten :
    (State.reset.raw.written, State.reset.act.written, State.reset.dat.written, State.reset.sel.written,
      State.reset.set.written, State.reset.mode.written) = (false, false, false, false, false, false)
    ∧ (State.raw { State.reset with raw := .holds 0 }).written = true ∧ State.reset.inv.written = false
    ∧ State.reset.tlen.written = false ∧ State.reset.prev.written = false
    ∧ (State.inv { sampled 0 0 0 with chk := .unwritten 0 }).written = true
    ∧ (State.chk { sampled 0 0 0 with chk := .unwritten 0 }).written = false
    ∧ (State.tlen { lookup 0 with tbl := .unwritten 0 }).written = true
    ∧ (State.tbl { lookup 0 with tbl := .unwritten 0 }).written = false ∧ (0 : Word) < 0x4000
    ∧ (choosing 0).set.written = true ∧ (choosing 0).tbl.written = false
    ∧ (State.tlen { choosing 0 with tbl := .holds 0 }).written = false ∧ copying.fastCopy = true := by decide

/-! ### All micro-operations, invariants and runs -/

theorem witness_exec : after (·.dir) (exec .oen State.reset) = some 0xFF
    ∧ after (·.rs) (exec .lkp (lookup 0x4000)) = some .faulted ∧ (lookup 0x4000).rs ≠ .faulted
    ∧ after (·.rs) (step State.reset) = some .boot ∧ State.reset.resetNow = none := by decide
theorem witness_exec_effects : after (·.chk.written) (exec .msk (choosing 0)) = some true
    ∧ after (·.rs) (exec .bchk (withStraps [] [2] 0b100)) = some .bootloader
    ∧ after (·.upc) (exec (.ba 0x15) (branching 0x1C true 0 0)) = some 0x15
    ∧ after (·.upc) (exec .oen { State.reset with upc := 0xFF }) = some 0x00
    ∧ after (·.faultRec) (exec .drv State.reset) = some (some (.unwrittenRead .dat)) := by decide
theorem witness_memories : MemoriesWf (lookup 0) ∧ after (·.dir) (step (lookup 0)) = some 0 :=
  ⟨⟨by decide, by decide, by decide, by decide, by decide⟩, by decide⟩
theorem witness_reserved : ReservedZero (lookup 0xFFFF) ∧ after (·.dir) (step (lookup 0xFFFF)) = some 0 :=
  ⟨⟨by decide, by decide, by decide, by decide⟩, by decide⟩
theorem witness_program_boot : RunInv booting ∧ booting.accepted ∧ booting.noReset ∧ booting.rs = .boot
    ∧ booting.upc = 0x00 ∧ ¬ (booting.cfg.pm.boot ≠ [] ∧ ∀ p ∈ booting.cfg.pm.boot, booting.strap.getLsbD p.val = true)
    ∧ after (·.upc) (step booting) = some 0x01 :=
  ⟨booting_runInv, booting_accepted, booting_noReset, rfl, rfl, by decide, by decide⟩
/-- The same on a board that builds its table and copies it. -/
def building : State := .atReset { copying with remapAtBoot := true } fixtureStore microcodeRom 0 [] []

theorem witness_program_boot_building : RunInv building ∧ building.accepted ∧ building.noReset
    ∧ building.rs = .boot ∧ building.upc = 0x00 ∧ building.cfg.remapAtBoot = true
    ∧ ¬ (building.cfg.pm.boot ≠ [] ∧ ∀ p ∈ building.cfg.pm.boot, building.strap.getLsbD p.val = true)
    ∧ pinMapOK building.cfg.pm (oneRom 14 desc2364) = true :=
  ⟨atReset_runInv _ _ _ _ _, witness_accepted_copy.2.1, fun _ h => (List.not_mem_nil h).elim, rfl, rfl, rfl,
    by decide, (by decide : pinMapOK fixturePinMap (oneRom 14 desc2364) = true)⟩
/-- A sample at or above `TLEN` that program A is about to look up. -/
theorem witness_program_fault : FitToServe (serving .twoCheck 5 0x4000 0)
    ∧ after (·.faultRec) (step (serving .twoCheck 5 0x4000 0)) = some (some (.indexOutOfRange 0x4000)) :=
  ⟨serving_fit _ _ _ _ (by decide) (by decide), by decide⟩
theorem witness_serving_step : FitToServe (serving .addrOnCs 6 0x0123 0)
    ∧ (serving .addrOnCs 6 0x0123 0).resetNow = none
    ∧ after (·.odr) (step (serving .addrOnCs 6 0x0123 0)) = some (.holds 0x24) :=
  ⟨serving_fit _ _ _ _ (by decide) (by decide), rfl, by decide⟩
theorem witness_idle_active : FitToServe (serving .twoCheck 0 0x0123 0x0123)
    ∧ (serving .twoCheck 0 0x0123 0x0123).offset = 0
    ∧ State.activeSample (serving .twoCheck 0 0x0123 0x0123) (serving .twoCheck 0 0x0123 0x0123).inputNow = true :=
  ⟨serving_fit _ _ _ _ (by decide) (by decide), serving_offset _ _ _ _ (by decide),
    by decide⟩
theorem witness_idle_inactive : FitToServe (serving .addrOnAnyCs 0 0x4005 0)
    ∧ (serving .addrOnAnyCs 0 0x4005 0).offset = 0
    ∧ State.activeSample (serving .addrOnAnyCs 0 0x4005 0) (serving .addrOnAnyCs 0 0x4005 0).inputNow = false :=
  ⟨serving_fit _ _ _ _ (by decide) (by decide), serving_offset _ _ _ _ (by decide), by decide⟩
theorem witness_release : (FitToServe (serving .twoCheck 6 0x0123 0x0400) ∧ FitToServe (serving .twoCheck 0xA 0x0123 0x0400)
      ∧ FitToServe (serving .addrOnCs 8 0x0123 0x0400) ∧ FitToServe (serving .addrOnAnyCs 8 0x4005 0))
    ∧ (serving .twoCheck 6 0x0123 0x0400).offset = 6 ∧ (serving .twoCheck 0xA 0x0123 0x0400).offset = 0xA
    ∧ (serving .addrOnCs 8 0x0123 0x0400).offset = 8 ∧ (serving .addrOnAnyCs 8 0x4005 0).offset = 8
    ∧ [serving .twoCheck 6 0x0123 0x0400, serving .twoCheck 0xA 0x0123 0x0400, serving .addrOnCs 8 0x0123 0x0400,
        serving .addrOnAnyCs 8 0x4005 0].map (fun s => s.activeSample s.inputNow) = [false, false, false, false] :=
  ⟨⟨serving_fit _ _ _ _ (by decide) (by decide), serving_fit _ _ _ _ (by decide) (by decide),
    serving_fit _ _ _ _ (by decide) (by decide), serving_fit _ _ _ _ (by decide) (by decide)⟩,
    by decide, by decide, by decide, by decide, by decide⟩
theorem witness_serve_b_and_c : FitToServe (serving .addrOnCs 0 0x0123 0x3BFF) ∧ FitToServe (serving .addrOnAnyCs 0 0x4005 0x7FFF)
    ∧ [serving .addrOnCs 0 0x0123 0x3BFF, serving .addrOnAnyCs 0 0x4005 0x7FFF].map (fun s =>
      (s.offset, s.activeSample s.inputNow, decide (s.inputNow < s.tlen.value))) = [(0, true, true), (0, true, true)] :=
  ⟨serving_fit _ _ _ _ (by decide) (by decide), serving_fit _ _ _ _ (by decide) (by decide), by decide⟩
theorem witness_program_a : FitToServe (serving .twoCheck 5 0x3BFF 0x0123) ∧ FitToServe (serving .twoCheck 5 0x0123 0x0400)
    ∧ [serving .twoCheck 5 0x3BFF 0x0123, serving .twoCheck 5 0x0123 0x0400].map (fun s =>
      (s.offset, s.activeSample s.inputNow, decide (s.raw.value < s.tlen.value))) = [(5, true, true), (5, false, true)] :=
  ⟨serving_fit _ _ _ _ (by decide) (by decide), serving_fit _ _ _ _ (by decide) (by decide), by decide⟩
theorem witness_hold : FitToServe (serving .addrOnCs 8 0x0123 0x0123) ∧ FitToServe (serving .addrOnAnyCs 8 0x4005 0x4004)
    ∧ [serving .addrOnCs 8 0x0123 0x0123, serving .addrOnAnyCs 8 0x4005 0x4004].map (fun s =>
      (s.offset, s.activeSample s.inputNow, decide (s.inputNow = s.prev.value), decide (s.inputNow < s.tlen.value))) =
      [(8, true, true, true), (8, true, false, true)] :=
  ⟨serving_fit _ _ _ _ (by decide) (by decide), serving_fit _ _ _ _ (by decide) (by decide), by decide⟩

/-! ### The remapper and the selector -/

theorem witness_pin_map : pinMapOK pinMapRev (oneRom 14 desc2364) = true ∧ 0 < (oneRom 14 desc2364).romCount
    ∧ 8191 < ((oneRom 14 desc2364).typeAt 0).size ∧ pinMapOK fixturePinMap setM3 = true ∧ 2 < setM3.romCount
    ∧ 2047 < (setM3.typeAt 2).size := by decide

theorem witness_dont_care : pinMapOK pinMapSkip (oneRom 15 desc2364) = true
    ∧ TableOK pinMapSkip (oneRom 15 desc2364) (fun _ _ => 0) (fun _ => 0)
    ∧ (0x0223 : Nat) < 2 ^ 15 ∧ (0x0263 : Nat) < 2 ^ 15
    ∧ selectedRoms pinMapSkip (oneRom 15 desc2364) 0x0223 = [0] ∧ selectedRoms pinMapSkip (oneRom 15 desc2364) 0x0263 = [0]
    ∧ ∀ p ∈ addrPositions pinMapSkip .r2364, (0x0223 : Nat).testBit p = (0x0263 : Nat).testBit p :=
  ⟨by decide, fun _ _ _ _ => (by decide : demangleByte pinMapSkip 0 = 0), by decide, by decide, by decide, by decide,
    by decide⟩
theorem witness_masks : pinMapOK fixturePinMap (oneRom 14 desc2364) = true ∧ (oneRom 14 desc2364).romCount = 1
    ∧ pinMapOK fixturePinMap setM3 = true ∧ setM3.romCount > 1 := by decide

theorem memWrite_blank (s : State) (base : Word) (n : Nat) (hn : n ≤ 2 ^ 32) (i : Nat) (hi : i < n) :
    (s.memWrite .fast base (List.replicate n 0)).memRead .fast (base + BitVec.ofNat 32 i) = 0 := by
  rw [State.memWrite_run s (by decide) base _ (by simpa using hn) i (by simpa using hi)]
  simp

/-- A blank table of `SET_A` in `FAST`. -/
def blank : State :=
  ((((((State.memWrite { State.reset with cfg := copying } .fast 0x20000000 (List.replicate (2 ^ 14) 0)).writeRaw
    0x3BFF).writeTbl 0x20000000).writeTlen (BitVec.ofNat 32 (2 ^ 14))).writeSet 0).writeDir 0xFF)

theorem blank_reads (i : Nat) (hi : i < 2 ^ 14) : blank.memRead .fast (0x20000000 + BitVec.ofNat 32 i) = 0 := by
  simp only [blank, State.writeDir_memRead, State.writeSet_memRead, State.writeTlen_memRead, State.writeTbl_memRead, State.writeRaw_memRead]
  exact memWrite_blank _ _ _ (Nat.pow_le_pow_right (by decide) (by decide)) i hi

theorem witness_served : pinMapOK blank.cfg.pm (oneRom 14 desc2364) = true ∧ blank.set = .holds 0
    ∧ romSetAt blank.cfg blank.store (0 : Word).toNat = .ok (oneRom 14 desc2364) ∧ blank.raw = .holds 0x3BFF
    ∧ blank.tbl = .holds 0x20000000 ∧ blank.tlen = .holds (BitVec.ofNat 32 (2 ^ (oneRom 14 desc2364).indexWidth))
    ∧ TableOK blank.cfg.pm (oneRom 14 desc2364) (fun _ _ => 0)
      (fun i => blank.memRead (tableSpace blank.cfg) (0x20000000 + BitVec.ofNat 32 i))
    ∧ (0x3BFF : Word).toNat < 2 ^ (oneRom 14 desc2364).indexWidth
    ∧ selectedRoms blank.cfg.pm (oneRom 14 desc2364) (0x3BFF : Word).toNat = [0] ∧ blank.dir = 0xFF :=
  ⟨(by decide : pinMapOK fixturePinMap (oneRom 14 desc2364) = true), rfl, rfl, rfl, rfl, rfl,
    fun i _ hi _ => (congrArg (demangleByte fixturePinMap) (blank_reads i hi)).trans
      (by decide : demangleByte fixturePinMap 0 = 0), by decide,
    (by decide : selectedRoms fixturePinMap (oneRom 14 desc2364) 0x3BFF = [0]), rfl⟩

end Sys2Proof.Machine.Tests
end

section
/-! The block never halts (O48). A running state is ready for the micro-operation it fetches: every register the
micro-operation may read holds a value (R24), and where it reads the selected set, `SET` names a RomSet (R263).
That is a finite check of the listings of R214 to R216 and R242 against the program invariant; and a
micro-operation whose registers are ready answers a next state, FAULTED only by LKP's range check (R190). -/

namespace Sys2Proof.Machine

/-! ### The listings as micro-operations -/

/-- The boot program, 0x00 to 0x09 (R242). -/
def bootListing : Vector Instr 10 :=
  #v[.bchk, .strap, .sset, .rmp, .pld, .pck, .rpr, .msk, .rti, .ent]

/-- Programs A, B and C by their offset from the entry (R214 to R216). -/
def serveListing : ServeMode → Vector Instr 15
  | .twoCheck =>
    #v[.smp, .tall, .bi 0x10, .oen, .cnt, .lkp, .smp, .tall, .bi 0x1D, .drv, .smp, .tall, .ba 0x15, .ods, .jmp 0x10]
  | .addrOnCs =>
    #v[.smp, .tall, .bi 0x20, .oen, .cnt, .lkp, .drv, .lat, .smp, .tall, .bi 0x2D, .bs 0x28, .jmp 0x25, .ods, .jmp 0x20]
  | .addrOnAnyCs =>
    #v[.smp, .tany, .bi 0x30, .oen, .cnt, .lkp, .drv, .lat, .smp, .tany, .bi 0x3D, .bs 0x38, .jmp 0x35, .ods, .jmp 0x30]

theorem microcodeRom_boot (a : Fin 10) :
    uromWord microcodeRom (BitVec.ofNat 8 a) = encode bootListing[a] := by
  revert a
  decide

theorem microcodeRom_serve (m : ServeMode) (o : Fin 15) :
    uromWord microcodeRom (entryOf m + BitVec.ofNat 8 o) = encode (serveListing m)[o] := by
  revert o
  cases m <;> decide

/-- R90, R92: the decoder reads a format `N` word by evaluation, a format `T` word by its two fields. -/
theorem decode_encode (i : Instr) : decode (encode i) = .ok i := by
  cases i with
  | jmp t =>
    obtain ⟨hop, hlow⟩ := Laws.EncodedFields.jmp t
    rw [decode, hop]
    exact congrArg (fun b => Except.ok (Instr.jmp b)) hlow
  | ba t =>
    obtain ⟨hop, hlow⟩ := Laws.EncodedFields.ba t
    rw [decode, hop]
    exact congrArg (fun b => Except.ok (Instr.ba b)) hlow
  | bi t =>
    obtain ⟨hop, hlow⟩ := Laws.EncodedFields.bi t
    rw [decode, hop]
    exact congrArg (fun b => Except.ok (Instr.bi b)) hlow
  | bs t =>
    obtain ⟨hop, hlow⟩ := Laws.EncodedFields.bs t
    rw [decode, hop]
    exact congrArg (fun b => Except.ok (Instr.bs b)) hlow
  | smp | tall | tany | lat | lkp | drv | oen | ods | cnt => rfl
  | bchk | strap | sset | rmp | pld | pck | rpr | msk | rti | ent => rfl

/-- In the boot program the fetch reads the listing at `upc`. -/
theorem decode_fetched_boot {s : State} (hrom : s.urom = microcodeRom) (hpc : s.upc.toNat < 10) :
    decode s.fetched = .ok bootListing[s.upc.toNat] := by
  have h := microcodeRom_boot ⟨s.upc.toNat, hpc⟩
  rw [BitVec.ofNat_toNat, BitVec.setWidth_eq, ← hrom] at h
  exact (congrArg decode h).trans (decode_encode _)

theorem upc_eq_entry_add_offset (s : State) : s.upc = entryOf s.mode.value + BitVec.ofNat 8 s.offset := by
  rw [State.offset, BitVec.ofNat_toNat, BitVec.setWidth_eq, BitVec.add_comm, BitVec.sub_add_cancel]

/-- In the serve programs the fetch reads the listing of `MODE` at the offset. -/
theorem decode_fetched_serve {s : State} (hrom : s.urom = microcodeRom) (hpc : s.offset < 15) :
    decode s.fetched = .ok (serveListing s.mode.value)[s.offset] := by
  have h := microcodeRom_serve s.mode.value ⟨s.offset, hpc⟩
  rw [← upc_eq_entry_add_offset, ← hrom] at h
  exact (congrArg decode h).trans (decode_encode _)

/-! ### The registers a micro-operation reads, and those that hold values -/

/-- The registers a micro-operation may read that hold no value at reset (R24, R265). -/
def mayRead : Instr → List RegName
  | .smp | .oen | .ods | .cnt | .jmp _ | .bchk | .strap => []
  | .tall | .tany => [.raw, .inv, .chk]
  | .lat => [.raw]
  | .lkp => [.raw, .tlen, .tbl]
  | .drv => [.dat]
  | .ba _ | .bi _ => [.act]
  | .bs _ => [.raw, .prev]
  | .sset => [.sel]
  | .rmp | .pck | .rpr | .msk => [.set]
  | .pld | .rti => [.set, .tlen, .tbl]
  | .ent => [.mode]

/-- The mark of a register: it has been written since reset (log 2). -/
def State.marked (s : State) : RegName → Bool
  | .chk => s.chk.written
  | .inv => s.inv.written
  | .tbl => s.tbl.written
  | .tlen => s.tlen.written
  | .raw => s.raw.written
  | .eff => s.eff.written
  | .dat => s.dat.written
  | .prev => s.prev.written
  | .act => s.act.written
  | .mode => s.mode.written
  | .sel => s.sel.written
  | .set => s.set.written
  | .odr => s.odr.written

/-- The registers the boot program has written before it comes to address `a` (R243). -/
def bootMarks (a : Nat) : RegName → Bool
  | .sel => 2 ≤ a
  | .set => 3 ≤ a
  | .tbl | .tlen => 4 ≤ a
  | .mode => 7 ≤ a
  | .chk | .inv => 8 ≤ a
  | .raw | .eff | .dat | .prev | .act | .odr => false

/-- The registers known to hold values at offset `o` of the program of mode `m` (R210). -/
def serveMarks (m : ServeMode) (o : Nat) : RegName → Bool
  | .sel | .set | .tbl | .tlen | .mode | .chk | .inv => true
  | .raw => 1 ≤ o
  | .act => 2 ≤ o
  | .dat => 6 ≤ o
  | .prev => m ≠ .twoCheck ∧ 8 ≤ o
  | .eff | .odr => false

/-- The boot program reads no register before it has written it. -/
theorem bootListing_reads_marked (a : Fin 10) : ∀ r ∈ mayRead bootListing[a], bootMarks a r = true := by
  revert a
  decide

/-- Programs A, B and C read no register before it is written. -/
theorem serveListing_reads_marked (m : ServeMode) (o : Fin 15) :
    ∀ r ∈ mayRead (serveListing m)[o], serveMarks m o r = true := by
  revert o
  cases m <;> decide

theorem BootInv.marked {s : State} (h : BootInv s) {r : RegName} (hr : bootMarks s.upc.toNat r = true) :
    s.marked r = true := by
  cases r <;> simp only [bootMarks, decide_eq_true_eq, Bool.false_eq_true] at hr
  case sel => simp [State.marked, h.sel hr]
  case set => simp [State.marked, h.set hr]
  case tbl =>
    obtain ⟨_, _, _, htbl⟩ := h.table hr
    simp [State.marked, htbl]
  case tlen =>
    obtain ⟨_, _, htlen, _⟩ := h.table hr
    simp [State.marked, htlen]
  case mode =>
    obtain ⟨_, _, hmode⟩ := h.mode hr
    simp [State.marked, hmode]
  case chk =>
    obtain ⟨_, _, hchk, _⟩ := h.masks hr
    exact hchk
  case inv =>
    obtain ⟨_, _, _, hinv, _⟩ := h.masks hr
    exact hinv

theorem ServeInv.marked {s : State} (h : ServeInv s) {r : RegName} (hr : serveMarks s.mode.value s.offset r = true) :
    s.marked r = true := by
  obtain ⟨_, _, htlen, htbl, hmode, hchk, hinv, _⟩ := h.config
  cases r <;> simp only [serveMarks, decide_eq_true_eq, Bool.false_eq_true] at hr
  case sel => simp [State.marked, h.sel]
  case set => simp [State.marked, h.set]
  case tbl => simp [State.marked, htbl]
  case tlen => simp [State.marked, htlen]
  case mode => simp [State.marked, hmode]
  case chk => exact hchk
  case inv => exact hinv
  case raw => exact h.sampled hr
  case act => exact h.tested hr
  case dat => exact h.looked hr
  case prev => exact h.latched hr.1 hr.2

/-! ### A running state is ready for what it fetches -/

/-- The registers the micro-operation may read hold values, and if `SET` is one of them, it names a RomSet. -/
structure Ready (i : Instr) (s : State) : Prop where
  sets : s.cfg.numSets ≠ 0
  marked : ∀ r ∈ mayRead i, s.marked r = true
  selected : .set ∈ mayRead i → ∃ set, s.selected set

/-- What a micro-operation needs, the passing of a tick leaves alone. -/
theorem Ready.tickPassed {i : Instr} {s : State} (h : Ready i s) : Ready i s.tickPassed :=
  ⟨h.sets, h.marked, h.selected⟩

/-- `SEL mod NUM_SETS` of the straps is the set that `checkConfig` has examined (R233, R234, R263). -/
theorem selectedSet_strapSelector (cfg : Config) (strap : Word) :
    (selectedSet cfg (strapSelector cfg.pm.sel strap)).toNat = strappedSet cfg strap := by
  rw [selectedSet, strappedSet, BitVec.toNat_ofNat]
  exact Nat.mod_eq_of_lt (Nat.lt_of_le_of_lt (Nat.mod_le _ _) (BitVec.isLt _))

/-- In an accepted configuration the set the straps select is a RomSet. -/
theorem State.accepted.selected {s : State} (ha : s.accepted)
    (hset : s.set = .holds (selectedSet s.cfg (strapSelector s.cfg.pm.sel s.strap))) : ∃ set, s.selected set := by
  obtain ⟨_, _, _, _, set, _, hok, _⟩ := configDefect_none ha
  exact ⟨set, by rwa [State.selected, hset, Latch.holds_value, selectedSet_strapSelector]⟩

theorem State.accepted.numSets_ne_zero {s : State} (ha : s.accepted) : s.cfg.numSets ≠ 0 := by
  obtain ⟨_, _, hsets, _⟩ := configDefect_none ha
  exact hsets

theorem BootInv.ready {s : State} (h : BootInv s) (ha : s.accepted) (hpc : s.upc.toNat < 10) :
    Ready bootListing[s.upc.toNat] s := by
  have hreads := bootListing_reads_marked ⟨s.upc.toNat, hpc⟩
  refine ⟨ha.numSets_ne_zero, fun r hr => h.marked (hreads r hr), fun hr => ha.selected (h.set ?_)⟩
  simpa [bootMarks] using hreads .set hr

theorem ServeInv.ready {s : State} (h : ServeInv s) (ha : s.accepted) :
    Ready ((serveListing s.mode.value)[s.offset]'h.pc) s :=
  ⟨ha.numSets_ne_zero, fun r hr => h.marked (serveListing_reads_marked _ ⟨s.offset, h.pc⟩ r hr),
    fun _ => ha.selected h.set⟩

/-- R24, R93: a running state under the program invariant fetches a legal micro-operation it is ready for. -/
theorem RunInv.fetches_ready {s : State} (h : RunInv s) (ha : s.accepted) (hrun : s.rs = .boot ∨ s.rs = .serve) :
    ∃ i, decode s.fetched = .ok i ∧ Ready i s := by
  rcases hrun with hboot | hserve
  · have hpc : s.upc.toNat < 10 := Nat.lt_succ_of_le (h.boot hboot).pc
    exact ⟨_, decode_fetched_boot h.rom hpc, (h.boot hboot).ready ha hpc⟩
  · exact ⟨_, decode_fetched_serve h.rom (h.serve hserve).pc, (h.serve hserve).ready ha⟩

/-! ### A micro-operation that is ready answers a next state -/

/-- The answer of `i` from `s` is a next state, and one in FAULTED only by LKP's `IndexOutOfRange` (R190). -/
def AnswersNext (i : Instr) (s : State) (answer : StepResult) : Prop :=
  ∃ t, answer = .next t ∧ (t.rs = .faulted →
    i = .lkp ∧ s.tlen.value ≤ s.raw.value ∧ t.faultRec = some (.indexOutOfRange s.raw.value))

theorem AnswersNext.of_not_faulted {i : Instr} {s t : State} (h : t.rs ≠ .faulted) : AnswersNext i s (.next t) :=
  ⟨t, rfl, fun hf => absurd hf h⟩

theorem AnswersNext.readLatch {α : Type} {i : Instr} {s : State} {name : RegName} {r : Latch α}
    {go : α → StepResult} (hr : r.written = true) (h : AnswersNext i s (go r.value)) :
    AnswersNext i s (readLatch name r s go) := by
  rwa [readLatch_written s go hr]

theorem AnswersNext.withSet {i : Instr} {s : State} {go : Nat → RomSet → StepResult} (hw : s.set.written = true)
    (hsel : ∃ set, s.selected set) (h : ∀ n set, AnswersNext i s (go n set)) : AnswersNext i s (withSet s go) := by
  obtain ⟨set, hset⟩ := hsel
  rw [withSet_ok go hw hset]
  exact h _ _

/-- The LKP arm: the one place where a ready micro-operation can raise a model fault. -/
theorem execLkp_answersNext {s : State} (hrs : s.rs ≠ .faulted) (hraw : s.raw.written = true)
    (htlen : s.tlen.written = true) (htbl : s.tbl.written = true) : AnswersNext .lkp s (execLkp s) := by
  refine .readLatch hraw (.readLatch htlen ?_)
  split
  · next hout => exact ⟨_, rfl, fun _ => ⟨rfl, hout, rfl⟩⟩
  · exact .readLatch htbl (.of_not_faulted hrs)

theorem Ready.exec_answersNext {i : Instr} {s : State} (h : Ready i s) (hrs : s.rs ≠ .faulted) :
    AnswersNext i s (exec i s) := by
  obtain ⟨hsets, hread, hsel⟩ := h
  have keeps {i : Instr} {t : State} (ht : t.rs = s.rs) : AnswersNext i s (.next t) := .of_not_faulted (ht ▸ hrs)
  cases i with
  | smp | oen | ods | jmp _ | strap => exact keeps rfl
  | cnt => exact keeps (by cases hc : s.cfg.countEn <;> simp)
  | bchk =>
    simp only [exec, execBchk]
    split
    · exact .of_not_faulted (by simp)
    · exact keeps rfl
  | tall | tany =>
    simp only [exec, execTall, execTany]
    exact .readLatch (hread .raw (by decide)) (.readLatch (hread .inv (by decide))
      (.readLatch (hread .chk (by decide)) (keeps rfl)))
  | lat =>
    simp only [exec, execLat]
    exact .readLatch (hread .raw (by decide)) (keeps rfl)
  | lkp => exact execLkp_answersNext hrs (hread .raw (by decide)) (hread .tlen (by decide)) (hread .tbl (by decide))
  | drv =>
    simp only [exec, execDrv]
    exact .readLatch (hread .dat (by decide)) (keeps rfl)
  | ba tgt | bi tgt =>
    simp only [exec, execBa, execBi]
    exact .readLatch (hread .act (by simp [mayRead])) (keeps (State.branch_rs ..))
  | bs tgt =>
    simp only [exec, execBs]
    exact .readLatch (hread .raw (by simp [mayRead])) (.readLatch (hread .prev (by simp [mayRead]))
      (keeps (State.branch_rs ..)))
  | sset =>
    simp only [exec, execSset, if_neg hsets]
    exact .readLatch (hread .sel (by decide)) (keeps rfl)
  | rmp =>
    simp only [exec, execRmp]
    refine .withSet (hread .set (by decide)) (hsel (by decide)) fun n set => ?_
    split <;> exact keeps rfl
  | pld =>
    simp only [exec, execPld]
    split
    · exact .readLatch (hread .set (by decide)) (.readLatch (hread .tlen (by decide))
        (.readLatch (hread .tbl (by decide)) (keeps rfl)))
    · exact keeps rfl
  | pck =>
    simp only [exec, execPck]
    refine .withSet (hread .set (by decide)) (hsel (by decide)) fun n set => keeps ?_
    split <;> rfl
  | rpr =>
    simp only [exec, execRpr]
    exact .withSet (hread .set (by decide)) (hsel (by decide)) fun n set => keeps rfl
  | msk =>
    simp only [exec, execMsk]
    refine .withSet (hread .set (by decide)) (hsel (by decide)) fun n set => ?_
    split <;> exact keeps rfl
  | rti =>
    simp only [exec, execRti]
    exact .readLatch (hread .set (by decide)) (.readLatch (hread .tbl (by decide))
      (.readLatch (hread .tlen (by decide)) (keeps rfl)))
  | ent =>
    simp only [exec, execEnt]
    exact .readLatch (hread .mode (by decide)) (.of_not_faulted (by simp))

/-! ### One step -/

/-- R290: a reset wins over the step it coincides with. -/
theorem step_of_reset {s : State} {v : Word} (ha : s.accepted) (hv : s.resetNow = some v) :
    step s = .next (s.tickPassed.performReset v) := by
  rw [step, show configDefect s.cfg s.store s.strap = none from ha, hv]

/-- R200: with no reset, a step of a running block is the micro-operation fetched. -/
theorem step_of_running {s : State} {i : Instr} (ha : s.accepted) (hv : s.resetNow = none)
    (hr : s.rs.running = true) (hd : decode s.fetched = .ok i) : step s = exec i s.tickPassed := by
  have hd' : decode s.tickPassed.fetched = .ok i := hd
  rw [step, show configDefect s.cfg s.store s.strap = none from ha, hv]
  simp only [hr, if_true, runOne, hd']

/-- Settles O48: the program invariant makes each fetched micro-operation ready, and a ready one answers. -/
theorem theBlockNeverHalts : Obligations.TheBlockNeverHalts := by
  unfold Obligations.TheBlockNeverHalts
  intro s hinv ha hrun
  obtain ⟨hrunning, hrs⟩ : s.rs.running = true ∧ s.rs ≠ .faulted := by
    rcases hrun with h | h <;> simp [h, RunState.running]
  cases hv : s.resetNow with
  | some v => exact ⟨_, step_of_reset ha hv, fun hf => by simp at hf⟩
  | none =>
    obtain ⟨i, hd, hready⟩ := hinv.fetches_ready ha hrun
    obtain ⟨t, ht, hfault⟩ := hready.tickPassed.exec_answersNext hrs
    refine ⟨t, (step_of_running ha hv hrunning hd).trans ht, fun hf => ?_⟩
    obtain ⟨hlkp, hrange⟩ := hfault hf
    exact ⟨hlkp ▸ hd, hrange⟩

end Sys2Proof.Machine
end

section
/-! What a micro-operation does, said once (O38, O40). `Effect` lists what each does where it raises no model
fault; `exec_next` says that a next state is either that or the state raised (R262). From it come the writers of
every register (R20 to R35) and where `upc` goes (R25). -/

namespace Sys2Proof.Machine

/-! ### Effects and faults -/

/-- The state a micro-operation leads to where it raises no model fault, one constructor per outcome. A premise
is a condition under which the outcome is taken, as far as a later proof needs it. -/
inductive Effect (s : State) : Instr → State → Prop
  | smp : Effect s .smp (s.afterReadIn.writeRaw s.inputNow).advance
  | tall : Effect s .tall (s.writeTest (effective s.raw.value s.inv.value s.chk.value)
      (allActive (effective s.raw.value s.inv.value s.chk.value))).advance
  | tany : Effect s .tany (s.writeTest (effective s.raw.value s.inv.value s.chk.value)
      (anyActive (effective s.raw.value s.inv.value s.chk.value) s.chk.value)).advance
  | lat (hraw : s.raw.written = true) : Effect s .lat (s.writePrev s.raw.value).advance
  | lkp (hrange : s.raw.value < s.tlen.value) :
      Effect s .lkp (s.writeDat ((servedByte s s.tbl.value s.raw.value).setWidth 32)).advance
  | drv : Effect s .drv (s.writeOdr (s.dat.value.extractLsb' 0 8)).advance
  | oen : Effect s .oen (s.writeDir 0xFF).advance
  | ods : Effect s .ods (s.writeDir 0x00).advance
  | cntOn (hen : s.cfg.countEn = true) : Effect s .cnt s.countOne.advance
  | cntOff (hen : s.cfg.countEn = false) : Effect s .cnt s.advance
  | jmp (tgt : UAddr) : Effect s (.jmp tgt) (s.jump tgt)
  | ba (tgt : UAddr) : Effect s (.ba tgt) (s.branch s.act.value tgt)
  | bi (tgt : UAddr) : Effect s (.bi tgt) (s.branch (!s.act.value) tgt)
  | bs (tgt : UAddr) : Effect s (.bs tgt) (s.branch (s.raw.value == s.prev.value) tgt)
  | bchkHigh : Effect s .bchk (s.afterReadStrap.writeRs .bootloader)
  | bchkLow : Effect s .bchk s.afterReadStrap.advance
  | strap : Effect s .strap (s.afterReadStrap.writeSel (strapSelector s.cfg.pm.sel s.strap)).advance
  | sset : Effect s .sset (s.writeSet (selectedSet s.cfg s.sel.value)).advance
  | rmpBuilt (set : RomSet) (hsel : s.selected set) (hb : s.cfg.remapAtBoot = true) :
      Effect s .rmp ((((s.writeTlen set.tableLength).memWrite .work s.cfg.workBase
        (builtTable s s.set.value.toNat set)).writeTbl s.cfg.workBase).tookFree
        (if pinMapOK s.cfg.pm set then 0 else 1)).advance
  | rmpPrebuilt (set : RomSet) (hsel : s.selected set) (hb : s.cfg.remapAtBoot = false) :
      Effect s .rmp ((s.writeTlen set.tableLength).writeTbl (prebuiltTable s.cfg s.store s.set.value.toNat)).advance
  | pldCopy (hc : s.cfg.fastCopy = true) :
      Effect s .pld ((s.memWrite .fast s.cfg.fastBase (sourceTable s s.tbl.value s.tlen.value)).writeTbl
        s.cfg.fastBase).advance
  | pldNothing (hc : s.cfg.fastCopy = false) : Effect s .pld s.advance
  | pckOk : Effect s .pck s.advance
  | pckWarn : Effect s .pck (s.warned warnPinMap).advance
  | rpr (set : RomSet) (hsel : s.selected set) :
      Effect s .rpr ((s.warned (repairMode set).2).writeMode (repairMode set).1).advance
  | mskOk (set : RomSet) (hsel : s.selected set) :
      Effect s .msk ((s.warned (romTypeWarning set)).writeMasks (checkMask s.cfg.pm set) (invertMask s.cfg.pm set)).advance
  | mskFree (set : RomSet) (hsel : s.selected set) (hp : pinMapOK s.cfg.pm set = false) :
      Effect s .msk (((s.warned (romTypeWarning set)).writeMasks (Config.freeWord s.freeCount)
        (Config.freeWord (s.freeCount + 1))).tookFree 2).advance
  | rti : Effect s .rti
      (s.memWrite .rti s.cfg.rtiBase (rtiRecord s.cfg.magic s.set.value s.tbl.value s.tlen.value)).advance
  | ent : Effect s .ent (((s.writeDir 0x00).writeRs .serve).jump (entryOf s.mode.value))

/-- The model faults a micro-operation can raise: LKP's range check, and a register it reads (R261). -/
def MayRaise (s : State) (i : Instr) (f : FaultRecord) : Prop :=
  (i = .lkp ∧ s.tlen.value ≤ s.raw.value ∧ f = .indexOutOfRange s.raw.value)
    ∨ ∃ r ∈ mayRead i, f = .unwrittenRead r

/-- The state is the one a model fault leaves (R262). -/
def Raised (s : State) (i : Instr) (t : State) : Prop := ∃ f, MayRaise s i f ∧ t = s.raised f

theorem Raised.of_unwritten {s t : State} {i : Instr} {r : RegName} (hr : r ∈ mayRead i)
    (ht : t = s.raised (.unwrittenRead r)) : Raised s i t :=
  ⟨_, .inr ⟨r, hr, rfl⟩, ht⟩

theorem Raised.of_unwritten_mem {s t : State} {i : Instr} (h : ∃ r ∈ mayRead i, t = s.raised (.unwrittenRead r)) :
    Raised s i t := by
  obtain ⟨r, hr, ht⟩ := h
  exact .of_unwritten hr ht

theorem Raised.rs {s t : State} {i : Instr} (h : Raised s i t) : t.rs = .faulted := by
  obtain ⟨_, _, rfl⟩ := h
  rfl

/-- A micro-operation that answers a next state had its effect, or raised a model fault. -/
theorem exec_next {i : Instr} {s t : State} (h : exec i s = .next t) : Effect s i t ∨ Raised s i t := by
  cases i with
  | smp => exact .inl (execSmp_next h ▸ .smp)
  | tall =>
    rcases execTall_next h with ⟨rfl, _⟩ | hr
    · exact .inl .tall
    · exact .inr (.of_unwritten_mem hr)
  | tany =>
    rcases execTany_next h with ⟨rfl, _⟩ | hr
    · exact .inl .tany
    · exact .inr (.of_unwritten_mem hr)
  | lat =>
    rcases execLat_next h with ⟨rfl, hraw⟩ | hr
    · exact .inl (.lat hraw)
    · exact .inr (.of_unwritten (by decide) hr)
  | lkp =>
    rcases execLkp_next h with ⟨rfl, _, _, _, hrange⟩ | ⟨ht, _, _, hrange⟩ | hr
    · exact .inl (.lkp hrange)
    · exact .inr ⟨_, .inl ⟨rfl, hrange, rfl⟩, ht⟩
    · exact .inr (.of_unwritten_mem hr)
  | drv =>
    rcases execDrv_next h with ⟨rfl, _⟩ | hr
    · exact .inl .drv
    · exact .inr (.of_unwritten (by decide) hr)
  | oen => exact .inl (execOen_next h ▸ .oen)
  | ods => exact .inl (execOds_next h ▸ .ods)
  | cnt =>
    rcases execCnt_next h with ⟨hen, rfl⟩ | ⟨hen, rfl⟩
    · exact .inl (.cntOn hen)
    · exact .inl (.cntOff hen)
  | jmp tgt => exact .inl (execJmp_next h ▸ .jmp tgt)
  | ba tgt =>
    rcases execBa_next h with ⟨rfl, _⟩ | hr
    · exact .inl (.ba tgt)
    · exact .inr (.of_unwritten (by simp [mayRead]) hr)
  | bi tgt =>
    rcases execBi_next h with ⟨rfl, _⟩ | hr
    · exact .inl (.bi tgt)
    · exact .inr (.of_unwritten (by simp [mayRead]) hr)
  | bs tgt =>
    rcases execBs_next h with ⟨rfl, _⟩ | hr
    · exact .inl (.bs tgt)
    · exact .inr (.of_unwritten_mem hr)
  | bchk =>
    rcases execBchk_next h with ⟨_, rfl⟩ | ⟨_, rfl⟩
    · exact .inl .bchkHigh
    · exact .inl .bchkLow
  | strap => exact .inl (execStrap_next h ▸ .strap)
  | sset =>
    rcases execSset_next h with ⟨rfl, _⟩ | hr
    · exact .inl .sset
    · exact .inr (.of_unwritten (by decide) hr)
  | rmp =>
    rcases execRmp_next h with ⟨set, _, hsel, ⟨hb, rfl⟩ | ⟨hb, rfl⟩⟩ | hr
    · exact .inl (.rmpBuilt set hsel hb)
    · exact .inl (.rmpPrebuilt set hsel hb)
    · exact .inr (.of_unwritten (by decide) hr)
  | pld =>
    rcases execPld_next h with ⟨hc, _, _, _, rfl⟩ | ⟨hc, rfl⟩ | hr
    · exact .inl (.pldCopy hc)
    · exact .inl (.pldNothing hc)
    · exact .inr (.of_unwritten_mem hr)
  | pck =>
    rcases execPck_next h with ⟨set, _, _, rfl⟩ | hr
    · split
      · exact .inl .pckOk
      · exact .inl .pckWarn
    · exact .inr (.of_unwritten (by decide) hr)
  | rpr =>
    rcases execRpr_next h with ⟨set, _, hsel, rfl⟩ | hr
    · exact .inl (.rpr set hsel)
    · exact .inr (.of_unwritten (by decide) hr)
  | msk =>
    rcases execMsk_next h with ⟨set, _, hsel, ⟨_, rfl⟩ | ⟨hp, rfl⟩⟩ | hr
    · exact .inl (.mskOk set hsel)
    · exact .inl (.mskFree set hsel hp)
    · exact .inr (.of_unwritten (by decide) hr)
  | rti =>
    rcases execRti_next h with ⟨rfl, _⟩ | ⟨r, hr, ht⟩
    · exact .inl .rti
    · exact .inr (.of_unwritten (by revert hr; cases r <;> decide) ht)
  | ent =>
    rcases execEnt_next h with ⟨rfl, _⟩ | hr
    · exact .inl .ent
    · exact .inr (.of_unwritten (by decide) hr)

/-! ### The writers of each register -/

/-- What the micro-operation `i` leaves alone from `s` to `t`: every register but those it is a writer of (R20 to
R35), and what nothing writes (R39, R61, R79). -/
structure OwnWriters (i : Instr) (s t : State) : Prop where
  cfg : t.cfg = s.cfg
  store : t.store = s.store
  urom : t.urom = s.urom
  strap : t.strap = s.strap
  boots : t.boots = s.boots
  chk : i ∉ [.msk] → t.chk = s.chk
  inv : i ∉ [.msk] → t.inv = s.inv
  tbl : i ∉ [.rmp, .pld] → t.tbl = s.tbl
  tlen : i ∉ [.rmp] → t.tlen = s.tlen
  raw : i ∉ [.smp] → t.raw = s.raw
  eff : i ∉ [.tall, .tany] → t.eff = s.eff
  act : i ∉ [.tall, .tany] → t.act = s.act
  dat : i ∉ [.lkp] → t.dat = s.dat
  prev : i ∉ [.lat] → t.prev = s.prev
  mode : i ∉ [.rpr] → t.mode = s.mode
  sel : i ∉ [.strap] → t.sel = s.sel
  set : i ∉ [.sset] → t.set = s.set
  warn : i ∉ [.pck, .rpr, .msk] → t.warn = s.warn
  odr : i ∉ [.drv] → t.odr = s.odr
  dir : i ∉ [.oen, .ods, .ent] → t.dir = s.dir

/-- A model fault writes no register (R262). -/
theorem Raised.ownWriters {i : Instr} {s t : State} (h : Raised s i t) : OwnWriters i s t := by
  obtain ⟨_, _, rfl⟩ := h
  constructor <;> intros <;> rfl

/-- An effect is made of writes of its own registers; the field lemmas of `State` say so for each. -/
theorem Effect.ownWriters {i : Instr} {s t : State} (h : Effect s i t) : OwnWriters i s t := by
  cases h <;> constructor <;> simp

theorem exec_ownWriters {i : Instr} {s t : State} (h : exec i s = .next t) : OwnWriters i s t :=
  (exec_next h).elim Effect.ownWriters Raised.ownWriters

/-- R27: without a fault, ENT and BCHK alone write `RS`. -/
theorem Effect.rs {i : Instr} {s t : State} (h : Effect s i t) :
    t.rs = s.rs ∨ (i = .ent ∧ t.rs = .serve) ∨ (i = .bchk ∧ t.rs = .bootloader ∧ t.upc = s.upc) := by
  cases h
  case bchkHigh => exact .inr (.inr ⟨rfl, rfl, rfl⟩)
  case ent => exact .inr (.inl ⟨rfl, rfl⟩)
  all_goals exact .inl (by simp)

theorem Effect.faultRec {i : Instr} {s t : State} (h : Effect s i t) : t.faultRec = s.faultRec := by
  cases h <;> simp

/-- Settles O38, from the two outcomes of a micro-operation. -/
theorem eachRegisterHasItsOwnWriters : Obligations.EachRegisterHasItsOwnWriters := by
  unfold Obligations.EachRegisterHasItsOwnWriters
  intro i s t h
  have w := exec_ownWriters h
  refine ⟨fun hi => ⟨w.chk hi, w.inv hi⟩, w.tbl, w.tlen, w.raw, fun hi => ⟨w.eff hi, w.act hi⟩, w.dat, w.prev, w.mode,
    w.sel, w.set, w.warn, w.odr, w.dir, ?_⟩
  rcases exec_next h with he | ⟨f, _, rfl⟩
  · refine ⟨?_, .inl he.faultRec⟩
    rcases he.rs with hrs | hent | ⟨hi, hrs, _⟩
    · exact .inl hrs
    · exact .inr (.inl hent)
    · exact .inr (.inr (.inl ⟨hi, hrs⟩))
  · exact ⟨.inr (.inr (.inr ⟨rfl, rfl⟩)), .inr rfl⟩

/-! ### Where `upc` goes -/

/-- The micro-operation jumps: JMP always, BA, BI and BS where their condition holds (R201 to R204). -/
def State.jumps (s : State) : Instr → Bool
  | .jmp _ => true
  | .ba _ => s.act.value
  | .bi _ => !s.act.value
  | .bs _ => s.raw.value == s.prev.value
  | _ => false

/-- R25, R200: `upc` goes to the target of a jump that is taken, else to the next address. -/
theorem Effect.upc {i : Instr} {s t : State} (h : Effect s i t) (hent : i ≠ .ent)
    (hboot : i = .bchk → t.rs ≠ .bootloader) :
    t.upc = if s.jumps i then i.operand else s.upc + 1 := by
  cases h
  case ent => exact absurd rfl hent
  case bchkHigh => exact absurd rfl (hboot rfl)
  case ba | bi | bs => exact State.branch_upc ..
  all_goals simp [State.jumps, Instr.operand]

theorem State.jumps_transfer {s : State} {i : Instr} (h : s.jumps i = true) :
    i = .jmp i.operand ∨ i = .ba i.operand ∨ i = .bi i.operand ∨ i = .bs i.operand := by
  cases i <;> simp_all [State.jumps, Instr.operand]

/-- Settles O40, by the run state first and then by whether a jump is taken. -/
theorem onlyTransfersLeaveTheNextAddress : Obligations.OnlyTransfersLeaveTheNextAddress := by
  unfold Obligations.OnlyTransfersLeaveTheNextAddress
  intro i s t h hrun
  obtain he | ⟨f, _, rfl⟩ := exec_next h
  case inr => exact .inl ⟨rfl, rfl⟩
  rcases he.rs with hrs | hent | hbchk
  · by_cases hi : i = .ent
    · subst hi
      cases he
      exact .inr (.inl ⟨rfl, rfl⟩)
    have hupc := he.upc hi fun _ => (by rcases hrun with hr | hr <;> simp [hrs, hr])
    cases hj : s.jumps i with
    | true => exact .inr (.inr (.inr (.inl ⟨⟨_, State.jumps_transfer hj, by simp [hupc, hj]⟩, hrs⟩)))
    | false => exact .inr (.inr (.inr (.inr ⟨by simp [hupc, hj, BitVec.toNat_add], hrs⟩)))
  · exact .inr (.inl hent)
  · exact .inr (.inr (.inl hbchk))

end Sys2Proof.Machine
end

section
/-! The registers outside the run programs: the reserved bits and the warnings (O44, O45), the reset state (O7, O47),
the select lines (O34) and the reads of registers without a value (O37). -/

namespace Sys2Proof.Machine

/-! ### Warnings (R32) -/

theorem repairMode_warning_lt (set : RomSet) : (repairMode set).2 < 16 := by
  unfold repairMode
  split
  · decide
  · split
    · decide
    · exact (by decide : (0 : Word) < 16)

theorem romTypeWarning_lt (set : RomSet) : romTypeWarning set < 16 := by
  unfold romTypeWarning
  split <;> decide

/-- R32: a micro-operation only adds warnings, and only the four of the spec. -/
theorem exec_warn {i : Instr} {s t : State} (h : exec i s = .next t) : ∃ w < 16, t.warn = s.warn ||| w := by
  have kept (hw : t.warn = s.warn) : ∃ w < 16, t.warn = s.warn ||| w := ⟨0, by decide, hw.trans BitVec.or_zero.symm⟩
  by_cases hi : i ∈ [.pck, .rpr, .msk]
  case neg => exact kept ((exec_ownWriters h).warn hi)
  rcases exec_next h with he | ⟨_, _, rfl⟩
  case inr => exact kept rfl
  cases he <;> simp only [List.mem_cons, List.not_mem_nil, reduceCtorEq, or_false, or_self] at hi
  case pckOk => exact kept rfl
  case pckWarn => exact ⟨warnPinMap, by decide, rfl⟩
  case rpr set _ => exact ⟨_, repairMode_warning_lt set, rfl⟩
  case mskOk set _ => exact ⟨_, romTypeWarning_lt set, rfl⟩
  case mskFree set _ _ => exact ⟨_, romTypeWarning_lt set, rfl⟩

/-- What a step that is no reset adds to `WARN`: nothing, or what its micro-operation adds. -/
theorem step_warn {s t : State} (h : step s = .next t) (hv : s.resetNow = none) : ∃ w < 16, t.warn = s.warn ||| w := by
  obtain ⟨_, ⟨v, hreset, _⟩ | ⟨_, _, ⟨i, _, hexec⟩ | ⟨_, rfl⟩⟩ | ⟨_, _, _, rfl⟩⟩ := step_next h
  · cases hv.symm.trans hreset
  · simpa using exec_warn hexec
  · exact ⟨0, by decide, by simp⟩
  · exact ⟨0, by decide, by simp⟩

/-- Settles O45: a step can only add to `WARN`. -/
theorem warningsAreSticky : Obligations.WarningsAreSticky := by
  unfold Obligations.WarningsAreSticky
  intro s t h hv
  obtain ⟨w, _, hw⟩ := step_warn h hv
  ext k hk
  rw [hw, BitVec.getElem_and, BitVec.getElem_or, Bool.and_or_distrib_left, Bool.and_self]
  cases s.warn[k] <;> simp

/-! ### Reserved bits (R23, R32, R106) -/

theorem or_lt_sixteen {v w : Word} (hv : v < 16) (hw : w < 16) : v ||| w < 16 := by
  rw [BitVec.lt_def, BitVec.toNat_or]
  exact Nat.or_lt_two_pow (n := 4) hv hw

/-- R106: what SMP reads has no bit at `IN_W` and above. -/
theorem State.inputNow_lt (s : State) : s.inputNow.toNat < 2 ^ s.cfg.inW := by
  rw [State.inputNow, BitVec.toNat_ofNat]
  exact Nat.lt_of_le_of_lt (Nat.mod_le _ _) (Nat.mod_lt _ (Nat.two_pow_pos _))

theorem setWidth_byte_lt (b : Byte) : b.setWidth 32 < 256 := by
  rw [BitVec.lt_def, BitVec.toNat_setWidth_of_le (by decide)]
  exact b.isLt

/-- The reserved bits depend on `WARN`, `RAW`, `PREV`, `DAT` and `IN_W` alone. -/
theorem ReservedZero.congr {s t : State} (h : ReservedZero s) (hcfg : t.cfg = s.cfg) (hwarn : t.warn = s.warn)
    (hraw : t.raw = s.raw) (hprev : t.prev = s.prev) (hdat : t.dat = s.dat) : ReservedZero t where
  warn := hwarn ▸ h.warn
  raw := by simpa only [hcfg, hraw] using h.raw
  prev := by simpa only [hcfg, hprev] using h.prev
  dat := by simpa only [hdat] using h.dat

/-- Of the registers with reserved bits, SMP writes `RAW`, LAT `PREV` from `RAW`, and LKP `DAT` from a byte. -/
theorem ReservedZero.effect {i : Instr} {s t : State} (h : ReservedZero s) (he : Effect s i t) (hwarn : t.warn < 16) :
    ReservedZero t := by
  have w := he.ownWriters
  refine ⟨hwarn, ?raw, ?prev, ?dat⟩
  case raw =>
    by_cases hi : i = .smp
    · subst hi
      cases he
      exact fun _ => s.inputNow_lt
    · rw [w.raw (by simpa using hi), w.cfg]
      exact h.raw
  case prev =>
    by_cases hi : i = .lat
    · subst hi
      cases he with
      | lat hraw => exact fun _ => h.raw hraw
    · rw [w.prev (by simpa using hi), w.cfg]
      exact h.prev
  case dat =>
    by_cases hi : i = .lkp
    · subst hi
      cases he
      exact fun _ => setWidth_byte_lt _
    · rw [w.dat (by simpa using hi)]
      exact h.dat

theorem ReservedZero.performReset (s : State) (v : Word) : ReservedZero (s.performReset v) where
  warn := by simp
  raw := by simp
  prev := by simp
  dat := by simp

/-- Settles O44, by the four things a step can be. -/
theorem stepKeepsReservedBitsZero : Obligations.StepKeepsReservedBitsZero := by
  unfold Obligations.StepKeepsReservedBitsZero
  intro s t hs h
  have htick : ReservedZero s.tickPassed := hs.congr rfl rfl rfl rfl rfl
  obtain ⟨_, ⟨v, _, rfl⟩ | ⟨_, _, ⟨i, _, hexec⟩ | ⟨_, rfl⟩⟩ | ⟨_, _, _, rfl⟩⟩ := step_next h
  · exact .performReset _ v
  · obtain ⟨w, hw, hwarn⟩ := exec_warn hexec
    rcases exec_next hexec with he | ⟨_, _, rfl⟩
    · exact htick.effect he (hwarn ▸ or_lt_sixteen hs.warn hw)
    · exact htick.congr rfl rfl rfl rfl rfl
  · exact htick.congr rfl rfl rfl rfl rfl
  · exact htick

/-! ### The reset state -/

/-- Settles O7: each field of `State.atReset` as it stands there. -/
theorem resetStateHasTheSpecsValues : Obligations.ResetStateHasTheSpecsValues := by
  unfold Obligations.ResetStateHasTheSpecsValues
  simp [State.reset, State.atReset]

/-- At address 0x00 the boot program has written nothing, so nothing is asked of what it writes (R242). -/
theorem BootInv.of_start {s : State} (hpc : s.upc = 0x00) (hdir : s.dir = 0x00)
    (hscratch : s.raw.written = false ∧ s.eff.written = false ∧ s.dat.written = false
      ∧ s.prev.written = false ∧ s.act.written = false ∧ s.odr.written = false) : BootInv s where
  pc := by simp [hpc]
  pins := hdir
  scratch := hscratch
  sel := by simp [hpc]
  set := by simp [hpc]
  table := by simp [hpc]
  mode := by simp [hpc]
  masks := by simp [hpc]

/-- In run state BOOT the program invariant is that of the boot program. -/
theorem RunInv.of_boot {s : State} (hrom : s.urom = microcodeRom) (hrs : s.rs = .boot) (hrec : s.faultRec = none)
    (h : BootInv s) : RunInv s where
  rom := hrom
  boot := fun _ => h
  serve := by simp [hrs]
  bootloader := by simp [hrs]
  record := by simp [hrec]
  faulted := by simp [hrs, hrec]

/-- R290, R291: a reset leads to the start of the boot program. -/
theorem RunInv.performReset {s : State} (hrom : s.urom = microcodeRom) (v : Word) : RunInv (s.performReset v) :=
  .of_boot hrom rfl rfl (.of_start rfl rfl ⟨rfl, rfl, rfl, rfl, rfl, rfl⟩)

/-- Settles O47: `State.reset` is at the start of the boot program, with nothing written. -/
theorem resetMeetsTheInvariants : Obligations.ResetMeetsTheInvariants := by
  unfold Obligations.ResetMeetsTheInvariants
  obtain ⟨hstore, hfast, hwork, hrti, hurom⟩ := reset_memories_wf
  exact ⟨.of_boot rfl rfl rfl (.of_start rfl rfl ⟨rfl, rfl, rfl, rfl, rfl, rfl⟩), ⟨hstore, hfast, hwork, hrti, hurom⟩,
    ⟨by decide, nofun, nofun, nofun⟩⟩

/-! ### Select lines (R44) -/

theorem csLines_r2364 (pm : PinMap) : csLines pm .r2364 = [pm.cs2364[0]] := by
  apply List.ext_getElem
  · simp [csLines]
  · intro k _ hk
    match k with
    | 0 => simp [csLines]
    | k + 1 =>
      have hout : k + 1 < 1 := hk
      omega

theorem csLines_r2332 (pm : PinMap) : csLines pm .r2332 = [pm.cs2332[0], pm.cs2332[1]] := by
  apply List.ext_getElem
  · simp [csLines]
  · intro k _ hk
    match k with
    | 0 | 1 => simp [csLines]
    | k + 2 =>
      have hout : k + 2 < 2 := hk
      omega

theorem csLines_r2316 (pm : PinMap) : csLines pm .r2316 = [pm.cs2316[0], pm.cs2316[1], pm.cs2316[2]] := by
  apply List.ext_getElem
  · simp [csLines]
  · intro k _ hk
    match k with
    | 0 | 1 | 2 => simp [csLines]
    | k + 3 =>
      have hout : k + 3 < 3 := hk
      omega

/-- Every type has a first chip-select line. -/
theorem csLines_first (pm : PinMap) (t : RomType) : ∃ cs1 rest, csLines pm t = cs1 :: rest := by
  cases t
  · exact ⟨_, _, csLines_r2316 pm⟩
  · exact ⟨_, _, csLines_r2332 pm⟩
  · exact ⟨_, _, csLines_r2364 pm⟩

theorem RomSet.typeAt_zero {set : RomSet} {d : RomDesc} (h : set.roms[0]? = some d) : set.typeAt 0 = d.effType := by
  simp [RomSet.typeAt, h]

/-- R44, R165: a single-ROM set, line by line with the polarity of the same number. -/
theorem selectLines_single {pm : PinMap} {set : RomSet} {d : RomDesc} (h : set.roms[0]? = some d)
    (hn : set.romCount = 1) :
    selectLines pm set = (csLines pm d.effType).zipIdx.map fun (l, i) => ⟨l, d.pol (i + 1)⟩ := by
  simp [selectLines, hn, h, RomSet.typeAt_zero h]

/-- R44, R167: a multi-ROM set, all lines with the polarity of CS1. -/
theorem selectLines_multi {pm : PinMap} {set : RomSet} {d : RomDesc} (h : set.roms[0]? = some d)
    (hn : set.romCount > 1) :
    ∃ cs1, (csLines pm d.effType)[0]? = some cs1 ∧ selectLines pm set
      = (cs1 :: pm.x1 :: if set.romCount = 3 then [pm.x2] else []).map fun l => ⟨l, set.multiPol⟩ := by
  obtain ⟨cs1, rest, hcs⟩ := csLines_first pm d.effType
  exact ⟨cs1, by simp [hcs], by simp [selectLines, hn, RomSet.typeAt_zero h, hcs]⟩

/-- Settles O34, by the number of ROMs and the type of the first. -/
theorem selectLinesOfASet : Obligations.SelectLinesOfASet := by
  unfold Obligations.SelectLinesOfASet
  intro pm set d h
  refine ⟨fun hn ht => ?_, fun hn ht => ?_, fun hn ht => ?_, fun hn => ?_, fun hn => ?_⟩
  · simp [selectLines_single h hn, ht, csLines_r2364, RomDesc.pol]
  · simp [selectLines_single h hn, ht, csLines_r2332, RomDesc.pol]
  · simp [selectLines_single h hn, ht, csLines_r2316, RomDesc.pol]
  · simpa [hn] using selectLines_multi (pm := pm) h (by omega)
  · simpa [hn] using selectLines_multi (pm := pm) h (by omega)

/-! ### Registers without a value (R24, R265) -/

/-- R265: of three reads in a row, the first of a register without a value raises with that register's name. -/
theorem threeReads_unwritten {s : State} {n1 n2 n3 : RegName} {r1 r2 r3 : Latch Word} {answer : StepResult}
    {go : Word → Word → Word → StepResult}
    (h : answer = readLatch n1 r1 s fun v1 => readLatch n2 r2 s fun v2 => readLatch n3 r3 s (go v1 v2)) :
    (r1.written = false → answer = .next (s.raised (.unwrittenRead n1)))
    ∧ (r1.written = true → r2.written = false → answer = .next (s.raised (.unwrittenRead n2)))
    ∧ (r1.written = true → r2.written = true → r3.written = false →
        answer = .next (s.raised (.unwrittenRead n3))) := by
  subst h
  refine ⟨fun h1 => ?_, fun h1 h2 => ?_, fun h1 h2 h3 => ?_⟩
  · rw [readLatch_unwritten s _ h1]
  · rw [readLatch_written s _ h1, readLatch_unwritten s _ h2]
  · rw [readLatch_written s _ h1, readLatch_written s _ h2, readLatch_unwritten s _ h3]

theorem withSet_unwritten {s : State} (go : Nat → RomSet → StepResult) (h : s.set.written = false) :
    withSet s go = .next (s.raised (.unwrittenRead .set)) :=
  readLatch_unwritten s _ h

theorem execLkp_tlen_unwritten {s : State} (hraw : s.raw.written = true) (htlen : s.tlen.written = false) :
    execLkp s = .next (s.raised (.unwrittenRead .tlen)) := by
  simp only [execLkp, readLatch_written s _ hraw, readLatch_unwritten s _ htlen]

/-- LKP reads `TBL` only once the range is tested (log 9). -/
theorem execLkp_tbl_unwritten {s : State} (hraw : s.raw.written = true) (htlen : s.tlen.written = true)
    (hrange : s.raw.value < s.tlen.value) (htbl : s.tbl.written = false) :
    execLkp s = .next (s.raised (.unwrittenRead .tbl)) := by
  have hin : ¬ s.raw.value ≥ s.tlen.value := by simpa using hrange
  simp only [execLkp, readLatch_written s _ hraw, readLatch_written s _ htlen, if_neg hin,
    readLatch_unwritten s _ htbl]

theorem execBs_prev_unwritten {s : State} (tgt : UAddr) (hraw : s.raw.written = true) (hprev : s.prev.written = false) :
    execBs tgt s = .next (s.raised (.unwrittenRead .prev)) := by
  simp only [execBs, readLatch_written s _ hraw, readLatch_unwritten s _ hprev]

/-- Settles O37: each micro-operation's reads in the order of its pseudocode. -/
theorem readingAnUnwrittenRegisterRaises : Obligations.ReadingAnUnwrittenRegisterRaises := by
  unfold Obligations.ReadingAnUnwrittenRegisterRaises
  intro s tgt raised
  simp only [exec]
  have first {α : Type} {name : RegName} {r : Latch α} {go : α → StepResult} (h : r.written = false) :
      readLatch name r s go = raised name := readLatch_unwritten s go h
  obtain ⟨tallRaw, tallInv, tallChk⟩ := threeReads_unwritten (s := s) (answer := execTall s) rfl
  obtain ⟨tanyRaw, tanyInv, tanyChk⟩ := threeReads_unwritten (s := s) (answer := execTany s) rfl
  obtain ⟨rtiSet, rtiTbl, rtiTlen⟩ := threeReads_unwritten (s := s) (answer := execRti s) rfl
  have pld (hc : s.cfg.fastCopy = true) := threeReads_unwritten (s := s) (answer := execPld s) (if_pos hc)
  exact ⟨fun h => ⟨tallRaw h, tanyRaw h, first h, first h, first h⟩,
    fun hraw h => ⟨tallInv hraw h, tanyInv hraw h⟩,
    fun hraw hinv h => ⟨tallChk hraw hinv h, tanyChk hraw hinv h⟩,
    execLkp_tlen_unwritten, execLkp_tbl_unwritten, execBs_prev_unwritten tgt,
    fun h => ⟨first h, first h⟩, first, first,
    fun h => ⟨withSet_unwritten _ h, withSet_unwritten _ h, withSet_unwritten _ h, withSet_unwritten _ h, rtiSet h⟩,
    rtiTbl, rtiTlen,
    fun hc => (pld hc).1, fun hc => (pld hc).2.1, fun hc => (pld hc).2.2, first⟩

end Sys2Proof.Machine
end

section
/-! Every step keeps the program invariant (O46). The boot program and programs A, B and C are straight-line code
with a few jumps, so that where control can go, and which micro-operation has just run, is a finite check of the
listings. Each clause of the invariant then either stood before and its registers are not written (`OwnWriters`),
or has just been established by the one micro-operation that writes them (`Effect`). -/

namespace Sys2Proof.Machine

/-! ### The boot program (R242, R243) -/

/-- The address at which each writer stands in the boot program. -/
theorem bootListing_address (a : Fin 10) :
    (bootListing[a] = .bchk ↔ a.val = 0) ∧ (bootListing[a] = .strap ↔ a.val = 1) ∧ (bootListing[a] = .sset ↔ a.val = 2)
      ∧ (bootListing[a] = .rmp ↔ a.val = 3) ∧ (bootListing[a] = .pld ↔ a.val = 4) ∧ (bootListing[a] = .rpr ↔ a.val = 6)
      ∧ (bootListing[a] = .msk ↔ a.val = 7) ∧ (bootListing[a] = .ent ↔ a.val = 9) := by
  revert a
  decide

/-- The boot program runs nothing that samples, tests, looks up or drives. -/
theorem bootListing_no_serve (a : Fin 10) : bootListing[a] ∉ [.smp, .tall, .tany, .lat, .lkp, .drv, .oen, .ods] := by
  revert a
  decide

theorem State.selected_congr {s t : State} {set : RomSet} (hcfg : t.cfg = s.cfg) (hstore : t.store = s.store)
    (hset : t.set = s.set) : t.selected set ↔ s.selected set := by
  simp only [State.selected, hcfg, hstore, hset]

theorem State.masksOf_congr {s t : State} {set : RomSet} (hcfg : t.cfg = s.cfg) (hchk : t.chk = s.chk)
    (hinv : t.inv = s.inv) : t.masksOf set ↔ s.masksOf set := by
  simp only [State.masksOf, hcfg, hchk, hinv]

theorem State.remapBase_congr {s t : State} (hcfg : t.cfg = s.cfg) (hstore : t.store = s.store) (hset : t.set = s.set) :
    t.remapBase = s.remapBase := by
  simp only [State.remapBase, hcfg, hstore, hset]

theorem State.tableBase_congr {s t : State} (hcfg : t.cfg = s.cfg) (hstore : t.store = s.store) (hset : t.set = s.set) :
    t.tableBase = s.tableBase := by
  simp only [State.tableBase, hcfg, State.remapBase_congr hcfg hstore hset]

/-- RMP leaves the selected set's length in `TLEN` and its table's address in `TBL` (R147). -/
theorem Effect.rmp_table {s t : State} (h : Effect s .rmp t) :
    ∃ set, s.selected set ∧ t.tlen = .holds set.tableLength ∧ t.tbl = .holds s.remapBase := by
  cases h with
  | rmpBuilt set hsel hb => exact ⟨set, hsel, by simp, by simp [State.remapBase, hb]⟩
  | rmpPrebuilt set hsel hb => exact ⟨set, hsel, by simp, by simp [State.remapBase, hb]⟩

/-- PLD moves `TBL` to the copy, if there is one (R236). -/
theorem Effect.pld_table {s t : State} (h : Effect s .pld t) (htbl : s.tbl = .holds s.remapBase) :
    t.tbl = .holds s.tableBase := by
  cases h with
  | pldCopy hc => simp [State.tableBase, hc]
  | pldNothing hc => simp [State.tableBase, hc, htbl]

/-- MSK writes both masks, under `PinMapOK` those of the set (R164). -/
theorem Effect.msk_masks {s t : State} (h : Effect s .msk t) : ∃ set, s.selected set ∧ t.masksOf set := by
  cases h with
  | mskOk set hsel => exact ⟨set, hsel, by simp [State.masksOf]⟩
  | mskFree set hsel hp => exact ⟨set, hsel, by simp [State.masksOf, hp]⟩

/-- The boot program's micro-operation at `upc` has run, and another of its addresses comes next. -/
structure BootMove (s t : State) (i : Instr) : Prop where
  pc : s.upc.toNat < 9
  next : t.upc.toNat = s.upc.toNat + 1
  strap : i = .strap ↔ s.upc.toNat = 1
  sset : i = .sset ↔ s.upc.toNat = 2
  rmp : i = .rmp ↔ s.upc.toNat = 3
  pld : i = .pld ↔ s.upc.toNat = 4
  rpr : i = .rpr ↔ s.upc.toNat = 6
  msk : i = .msk ↔ s.upc.toNat = 7
  other : i ∉ [.smp, .tall, .tany, .lat, .lkp, .drv, .oen, .ods, .ent]

theorem BootMove.set_kept {s t : State} {i : Instr} (m : BootMove s t i) (w : OwnWriters i s t)
    (hpc : 4 ≤ t.upc.toNat) : t.set = s.set :=
  w.set (by simp [m.sset]; have := m.next; omega)

/-- A clause asked for from `n + 1` on was already asked for, unless its writer, at `n`, has just run. -/
theorem BootMove.passed {s t : State} {i writer : Instr} {n : Nat} (m : BootMove s t i)
    (hwriter : i = writer ↔ s.upc.toNat = n) (hi : i ≠ writer) (hpc : n + 1 ≤ t.upc.toNat) : n + 1 ≤ s.upc.toNat := by
  have := m.next
  have := mt hwriter.mpr hi
  omega

/-- The table's clause: RMP establishes it, PLD moves `TBL` on, and the others keep it (R147, R236). -/
theorem BootInv.move_table {s t : State} {i : Instr} (h : BootInv s) (m : BootMove s t i) (he : Effect s i t)
    (hpc : 4 ≤ t.upc.toNat) : ∃ set, t.selected set ∧ t.tlen = .holds set.tableLength
      ∧ t.tbl = .holds (if t.upc = 0x04 then t.remapBase else t.tableBase) := by
  have w := he.ownWriters
  have hset := m.set_kept w hpc
  have upc_eq (u : State) : u.upc = 0x04 ↔ u.upc.toNat = 4 := BitVec.toNat_inj.symm
  simp only [State.selected_congr w.cfg w.store hset, State.remapBase_congr w.cfg w.store hset,
    State.tableBase_congr w.cfg w.store hset, upc_eq, m.next]
  by_cases hi : i = .rmp
  · rw [if_pos (congrArg (· + 1) (m.rmp.mp hi))]
    subst hi
    exact he.rmp_table
  · have hge : 4 ≤ s.upc.toNat := m.passed m.rmp hi hpc
    obtain ⟨set, hsel, htlen, htbl⟩ := h.table hge
    rw [if_neg (by omega)]
    refine ⟨set, hsel, (w.tlen (by simpa using hi)).trans htlen, ?_⟩
    by_cases hp : i = .pld
    · rw [if_pos ((upc_eq s).mpr (m.pld.mp hp))] at htbl
      subst hp
      exact he.pld_table htbl
    · rw [if_neg (mt (upc_eq s).mp (mt m.pld.mpr hp))] at htbl
      rw [w.tbl (by simp [hi, hp]), htbl]

/-- Each clause of the boot invariant from the address after the one that writes its registers on. -/
theorem BootInv.move {s t : State} {i : Instr} (h : BootInv s) (m : BootMove s t i) (he : Effect s i t) : BootInv t := by
  have w := he.ownWriters
  have hother := m.other
  simp only [List.mem_cons, List.not_mem_nil, or_false, not_or] at hother
  refine ⟨Nat.le_trans (Nat.le_of_eq m.next) m.pc, ?pins, ?scratch, ?sel, ?set, h.move_table m he, ?mode, ?masks⟩
  case pins => rw [w.dir (by simp [hother]), h.pins]
  case scratch =>
    rw [w.raw (by simp [hother]), w.eff (by simp [hother]), w.dat (by simp [hother]), w.prev (by simp [hother]),
      w.act (by simp [hother]), w.odr (by simp [hother])]
    exact h.scratch
  case sel =>
    intro hpc
    rw [w.cfg, w.strap]
    by_cases hi : i = .strap
    · subst hi
      cases he
      rfl
    · rw [w.sel (by simpa using hi)]
      exact h.sel (m.passed m.strap hi hpc)
  case set =>
    intro hpc
    rw [w.cfg, w.strap]
    by_cases hi : i = .sset
    · have hsel := h.sel (Nat.le_of_eq (m.sset.mp hi).symm)
      subst hi
      cases he
      simp [hsel]
    · rw [w.set (by simpa using hi)]
      exact h.set (m.passed m.sset hi hpc)
  case mode =>
    intro hpc
    simp only [State.selected_congr w.cfg w.store (m.set_kept w (by omega))]
    by_cases hi : i = .rpr
    · subst hi
      cases he with
      | rpr set hsel => exact ⟨set, hsel, by simp⟩
    · rw [w.mode (by simpa using hi)]
      exact h.mode (m.passed m.rpr hi hpc)
  case masks =>
    intro hpc
    simp only [State.selected_congr w.cfg w.store (m.set_kept w (by omega))]
    by_cases hi : i = .msk
    · subst hi
      exact he.msk_masks
    · simp only [State.masksOf_congr w.cfg (w.chk (by simpa using hi)) (w.inv (by simpa using hi))]
      exact h.masks (m.passed m.msk hi hpc)

theorem State.selected_unique {s : State} {set set' : RomSet} (h : s.selected set) (h' : s.selected set') : set = set' :=
  Except.ok.inj (h.symm.trans h')

/-- At the entry of a program the boot program's results are all that is asked for. -/
theorem ServeInv.of_entry {t : State} (hoff : t.offset = 0) (hdir : t.dir = 0x00)
    (hsel : t.sel = .holds (strapSelector t.cfg.pm.sel t.strap))
    (hset : t.set = .holds (selectedSet t.cfg (strapSelector t.cfg.pm.sel t.strap)))
    (hconfig : ∃ set, t.selected set ∧ t.tlen = .holds set.tableLength ∧ t.tbl = .holds t.tableBase
      ∧ t.mode = .holds (repairMode set).1 ∧ t.masksOf set) : ServeInv t where
  pc := by simp [hoff]
  pins := by simp [hoff, hdir, idleOffset]
  sel := hsel
  set := hset
  config := hconfig
  sampled := by simp [hoff]
  tested := by simp [hoff]
  looked := by simp [hoff]
  latched := by simp [hoff]
  found := by split <;> simp [hoff]
  active := by split <;> simp [hoff]
  serves := by split <;> simp [hoff]

/-- R241, R243: at ENT the boot program's results are complete, and the program of `MODE` begins with them. -/
theorem BootInv.enter {s t : State} (h : BootInv s) (hpc : s.upc.toNat = 9) (he : Effect s .ent t) : ServeInv t := by
  obtain ⟨set, hsel, htlen, htbl⟩ := h.table (by omega)
  obtain ⟨_, hsel', hmode⟩ := h.mode (by omega)
  obtain ⟨_, hsel'', hmasks⟩ := h.masks (by omega)
  obtain rfl := State.selected_unique hsel hsel'
  obtain rfl := State.selected_unique hsel hsel''
  have hne : s.upc ≠ 0x04 := fun hu => by simp [hu] at hpc
  rw [if_neg hne] at htbl
  cases he
  exact .of_entry (by simp [State.offset]) rfl (h.sel (by omega)) (h.set (by omega))
    ⟨set, hsel, htlen, htbl, hmode, hmasks⟩

/-! ### Where control goes in programs A, B and C (R214 to R216) -/

/-- Where `act` is known to be the test of the last sample (R210). -/
def foundOffsets (m : ServeMode) : List Nat := if m = .twoCheck then [2, 8, 12] else [2, 10]

/-- Where the last sample is known to be active. -/
def activeOffsets (m : ServeMode) : List Nat := if m = .twoCheck then [3, 4, 5] else [3, 4, 5, 6, 7, 11, 12]

/-- Where `DAT` is known to hold the byte of an active sample. -/
def servesOffsets (m : ServeMode) : List Nat := if m = .twoCheck then [6, 7, 8, 9] else [6]

/-- The test of a mode's program (R217). -/
def testOf (m : ServeMode) : Instr := if m = .addrOnAnyCs then .tany else .tall

/-- Whether a micro-operation jumps: the answers it can give. -/
def jumpChoices : Instr → List Bool
  | .jmp _ => [true]
  | .ba _ | .bi _ | .bs _ => [true, false]
  | _ => [false]

theorem State.jumps_mem_choices (s : State) (i : Instr) : s.jumps i ∈ jumpChoices i := by
  have either (b : Bool) : b ∈ [true, false] := by cases b <;> decide
  cases i with
  | ba _ | bi _ | bs _ => exact either _
  | _ => exact List.mem_singleton_self _

/-- The offset in the program of `m` that control reaches from offset `o`. -/
def nextOffset (m : ServeMode) (o : Nat) (i : Instr) (jumps : Bool) : Nat :=
  ((if jumps then i.operand else entryOf m + BitVec.ofNat 8 o + 1) - entryOf m).toNat

/-- What is known of a move in program `m` from offset `o`, where `i` runs, to offset `o'`: which micro-operation
must just have run, or where control must have been, for the clauses of R210 at `o'` to be asked for. -/
structure ServeMove (m : ServeMode) (o : Nat) (i : Instr) (jumps : Bool) (o' : Nat) : Prop where
  inside : o' < 0xF
  loop : i ∉ [.bchk, .strap, .sset, .rmp, .pld, .pck, .rpr, .msk, .rti, .ent]
  pins : idleOffset o' = if i = .oen then false else if i = .ods then true else idleOffset o
  sampled : 1 ≤ o' → 1 ≤ o ∨ i = .smp
  tested : 2 ≤ o' → 2 ≤ o ∨ i ∈ [.tall, .tany]
  looked : 6 ≤ o' → 6 ≤ o ∨ i = .lkp
  latched : m ≠ .twoCheck → 8 ≤ o' → 8 ≤ o ∨ i = .lat
  found : o' ∈ foundOffsets m → i = testOf m
  active : o' ∈ activeOffsets m → i ≠ .smp ∧ (o ∈ activeOffsets m ∨ (o ∈ foundOffsets m
    ∧ (jumps = true ∧ i = .ba i.operand ∨ jumps = false ∧ i = .bi i.operand)))
  serves : o' ∈ servesOffsets m → (o ∈ servesOffsets m ∧ i ≠ .lkp) ∨ (o ∈ activeOffsets m ∧ i = .lkp)

/-- The finite check of the three listings, clause by clause. -/
theorem serveListing_move (m : ServeMode) (o : Fin 15) (jumps : Bool) (hj : jumps ∈ jumpChoices (serveListing m)[o]) :
    ServeMove m o (serveListing m)[o] jumps (nextOffset m o (serveListing m)[o] jumps) := by
  constructor <;> revert o jumps <;> cases m <;> decide

theorem bootListing_no_jump (a : Fin 10) : jumpChoices bootListing[a] = [false] := by
  revert a
  decide

/-! ### What a micro-operation of the serve loop leaves alone (R210 (d), (e)) -/

/-- The boot program's results and the bytes of the active table are the same in both states. -/
structure SameSetup (s t : State) : Prop where
  cfg : t.cfg = s.cfg
  store : t.store = s.store
  strap : t.strap = s.strap
  boots : t.boots = s.boots
  sel : t.sel = s.sel
  set : t.set = s.set
  tlen : t.tlen = s.tlen
  tbl : t.tbl = s.tbl
  mode : t.mode = s.mode
  chk : t.chk = s.chk
  inv : t.inv = s.inv
  table : ∀ a, t.memRead (tableSpace s.cfg) a = s.memRead (tableSpace s.cfg) a

theorem tableSpace_ne_rti (cfg : Config) : tableSpace cfg ≠ .rti := by
  unfold tableSpace
  split
  · decide
  · split <;> decide

/-- R60 to R64: only RMP and PLD write a space the table can be in; CNT and RTI write `RTI`. -/
theorem Effect.table_kept {i : Instr} {s t : State} (he : Effect s i t) (hi : i ∉ [.rmp, .pld]) (a : Word) :
    t.memRead (tableSpace s.cfg) a = s.memRead (tableSpace s.cfg) a := by
  have hrti := tableSpace_ne_rti s.cfg
  cases he
  case rmpBuilt | rmpPrebuilt | pldCopy | pldNothing => simp at hi
  all_goals simp [hrti, State.countOne]

/-- R210 (d), (e): a micro-operation that is none of the boot program's leaves its results alone. -/
theorem Effect.sameSetup {i : Instr} {s t : State} (he : Effect s i t)
    (hi : i ∉ [.bchk, .strap, .sset, .rmp, .pld, .pck, .rpr, .msk, .rti, .ent]) : SameSetup s t := by
  have w := he.ownWriters
  simp only [List.mem_cons, List.not_mem_nil, or_false, not_or] at hi
  exact ⟨w.cfg, w.store, w.strap, w.boots, w.sel (by simp [hi]), w.set (by simp [hi]), w.tlen (by simp [hi]),
    w.tbl (by simp [hi]), w.mode (by simp [hi]), w.chk (by simp [hi]), w.inv (by simp [hi]),
    he.table_kept (by simp [hi])⟩

theorem SameSetup.activeSample {s t : State} (k : SameSetup s t) (v : Word) : t.activeSample v = s.activeSample v := by
  simp only [State.activeSample, k.mode, k.inv, k.chk]

theorem SameSetup.tableEntry {s t : State} (k : SameSetup s t) (v : Word) : t.tableEntry v = s.tableEntry v := by
  rw [State.tableEntry, k.tbl, State.tableEntry, servedByte_congr k.cfg k.store k.set k.boots k.table]

theorem SameSetup.servesActive {s t : State} (k : SameSetup s t) (hdat : t.dat = s.dat) (h : s.servesActive) :
    t.servesActive := by
  obtain ⟨v, hactive, hlt, hbyte⟩ := h
  exact ⟨v, (k.activeSample v).trans hactive, k.tlen ▸ hlt, by rw [hdat, k.tableEntry, hbyte]⟩

theorem SameSetup.config {s t : State} (k : SameSetup s t) (h : ServeInv s) :
    ∃ set, t.selected set ∧ t.tlen = .holds set.tableLength ∧ t.tbl = .holds t.tableBase
      ∧ t.mode = .holds (repairMode set).1 ∧ t.masksOf set := by
  simp only [State.selected_congr k.cfg k.store k.set, State.tableBase_congr k.cfg k.store k.set,
    State.masksOf_congr k.cfg k.chk k.inv, k.tlen, k.tbl, k.mode]
  exact h.config

/-! ### What a micro-operation of the serve loop establishes -/

/-- After the mode's test `ACT` says whether the last sample is active (R181, R182). -/
theorem Effect.test_found {s t : State} (he : Effect s (testOf s.mode.value) t) :
    t.act.value = s.activeSample t.raw.value := by
  unfold State.activeSample
  cases hm : s.mode.value <;> rw [hm] at he <;> cases he <;> rfl

/-- After LKP on an active sample `DAT` holds the byte of an active sample (R190). -/
theorem Effect.lkp_serves {s t : State} (he : Effect s .lkp t) (h : s.activeSample s.raw.value = true) :
    t.servesActive := by
  have k := he.sameSetup (by decide)
  cases he with
  | lkp hrange => exact ⟨s.raw.value, (k.activeSample _).trans h, hrange, by rw [k.tableEntry]; rfl⟩

/-- A branch of a serve program that goes on in the active part found `ACT` true (R202, R203). -/
theorem State.act_of_jumps {s : State} {i : Instr}
    (h : s.jumps i = true ∧ i = .ba i.operand ∨ s.jumps i = false ∧ i = .bi i.operand) : s.act.value = true := by
  rcases h with ⟨hj, hi⟩ | ⟨hj, hi⟩
  · rw [hi] at hj
    exact hj
  · rw [hi] at hj
    simpa [State.jumps] using hj

/-- The offset that a micro-operation of the serve loop leads to. -/
theorem Effect.offset {i : Instr} {s t : State} (he : Effect s i t)
    (hi : i ∉ [.bchk, .strap, .sset, .rmp, .pld, .pck, .rpr, .msk, .rti, .ent]) :
    t.offset = nextOffset s.mode.value s.offset i (s.jumps i) := by
  have k := he.sameSetup hi
  simp only [List.mem_cons, List.not_mem_nil, or_false, not_or] at hi
  have hupc := he.upc (by simp [hi]) fun hb => absurd hb (by simp [hi])
  rw [State.offset, hupc, k.mode, nextOffset, ← upc_eq_entry_add_offset]

/-- Each clause of the serve invariant at the offset that control moves to. -/
theorem ServeInv.move {s t : State} {i : Instr} (h : ServeInv s)
    (m : ServeMove s.mode.value s.offset i (s.jumps i) t.offset) (he : Effect s i t) : ServeInv t := by
  have w := he.ownWriters
  have k := he.sameSetup m.loop
  refine ⟨m.inside, ?pins, ?sel, ?set, k.config h, ?sampled, ?tested, ?looked, ?latched, ?found, ?active, ?serves⟩
  case pins =>
    rw [m.pins]
    by_cases hoen : i = .oen
    · subst hoen
      cases he
      rfl
    by_cases hods : i = .ods
    · subst hods
      cases he
      rfl
    have hent : i ≠ .ent := fun hi => by simpa [hi] using m.loop
    rw [if_neg hoen, if_neg hods, w.dir (by simp [hoen, hods, hent]), h.pins]
  case sel => rw [k.sel, k.cfg, k.strap, h.sel]
  case set => rw [k.set, k.cfg, k.strap, h.set]
  case sampled =>
    intro ho
    by_cases hi : i = .smp
    · subst hi
      cases he
      rfl
    · rw [w.raw (by simpa using hi)]
      exact h.sampled ((m.sampled ho).resolve_right hi)
  case tested =>
    intro ho
    by_cases hi : i ∈ [.tall, .tany]
    · obtain rfl | rfl : i = .tall ∨ i = .tany := by simpa using hi
      all_goals
        cases he
        rfl
    · rw [w.act hi]
      exact h.tested ((m.tested ho).resolve_right hi)
  case looked =>
    intro ho
    by_cases hi : i = .lkp
    · subst hi
      cases he
      rfl
    · rw [w.dat (by simpa using hi)]
      exact h.looked ((m.looked ho).resolve_right hi)
  case latched =>
    intro hm ho
    rw [k.mode] at hm
    by_cases hi : i = .lat
    · subst hi
      cases he
      rfl
    · rw [w.prev (by simpa using hi)]
      exact h.latched hm ((m.latched hm ho).resolve_right hi)
  case found =>
    intro ho
    rw [k.mode] at ho
    obtain rfl := m.found ho
    exact he.test_found.trans (k.activeSample _).symm
  case active =>
    intro ho
    rw [k.mode] at ho
    obtain ⟨hsmp, hfrom⟩ := m.active ho
    rw [k.activeSample, w.raw (by simpa using hsmp)]
    rcases hfrom with hactive | ⟨hfound, hbranch⟩
    · exact h.active hactive
    · rw [← h.found hfound]
      exact State.act_of_jumps hbranch
  case serves =>
    intro ho
    rw [k.mode] at ho
    rcases m.serves ho with ⟨hserves, hi⟩ | ⟨hactive, rfl⟩
    · exact k.servesActive (w.dat (by simpa using hi)) (h.serves hserves)
    · exact he.lkp_serves (h.active hactive)

/-! ### Every step -/

theorem RunInv.no_record {s : State} (h : RunInv s) (hrs : s.rs ≠ .faulted) : s.faultRec = none :=
  Option.not_isSome_iff_eq_none.mp (mt h.faulted.mpr hrs)

theorem RunInv.of_serve {s : State} (hrom : s.urom = microcodeRom) (hrs : s.rs = .serve) (hrec : s.faultRec = none)
    (h : ServeInv s) : RunInv s where
  rom := hrom
  boot := by simp [hrs]
  serve := fun _ => h
  bootloader := by simp [hrs]
  record := by simp [hrec]
  faulted := by simp [hrs, hrec]

theorem RunInv.of_bootloader {s : State} (hrom : s.urom = microcodeRom) (hrs : s.rs = .bootloader)
    (hrec : s.faultRec = none) (h : s.upc = 0x00 ∧ s.dir = 0x00 ∧ s.odr.written = false) : RunInv s where
  rom := hrom
  boot := by simp [hrs]
  serve := by simp [hrs]
  bootloader := fun _ => h
  record := by simp [hrec]
  faulted := by simp [hrs, hrec]

theorem RunInv.of_faulted {s : State} {v : Word} (hrom : s.urom = microcodeRom) (hrs : s.rs = .faulted)
    (hrec : s.faultRec = some (.indexOutOfRange v)) : RunInv s where
  rom := hrom
  boot := by simp [hrs]
  serve := by simp [hrs]
  bootloader := by simp [hrs]
  record := by simp [hrec]
  faulted := by simp [hrs, hrec]

/-- The invariant says nothing of the reset line. -/
theorem RunInv.tickPassed {s : State} (h : RunInv s) : RunInv s.tickPassed where
  rom := h.rom
  boot := fun hrs =>
    have ⟨pc, pins, scratch, sel, set, table, mode, masks⟩ := h.boot hrs
    ⟨pc, pins, scratch, sel, set, table, mode, masks⟩
  serve := fun hrs =>
    have ⟨pc, pins, sel, set, config, sampled, tested, looked, latched, found, active, serves⟩ := h.serve hrs
    ⟨pc, pins, sel, set, config, sampled, tested, looked, latched, found, active, serves⟩
  bootloader := h.bootloader
  record := h.record
  faulted := h.faulted

/-- A micro-operation of the boot program that is followed by another is a move in it. -/
theorem Effect.bootMove {i : Instr} {s t : State} (he : Effect s i t) (hlt : s.upc.toNat < 10)
    (hi : bootListing[s.upc.toNat] = i) (hent : i ≠ .ent) (hboot : i = .bchk → t.rs ≠ .bootloader) :
    BootMove s t i := by
  obtain ⟨_, hstrap, hsset, hrmp, hpld, hrpr, hmsk, hlast⟩ := bootListing_address ⟨s.upc.toNat, hlt⟩
  have hchoices : jumpChoices bootListing[s.upc.toNat] = [false] := bootListing_no_jump ⟨_, hlt⟩
  have hother : bootListing[s.upc.toNat] ∉ _ := bootListing_no_serve ⟨_, hlt⟩
  simp only [Fin.getElem_fin, hi] at hstrap hsset hrmp hpld hrpr hmsk hlast hchoices hother
  have hpc : s.upc.toNat < 9 := by
    have := mt hlast.mpr hent
    omega
  have hjumps : s.jumps i = false := by
    simpa [hchoices] using s.jumps_mem_choices i
  have hnext : t.upc.toNat = s.upc.toNat + 1 := by
    rw [he.upc hent hboot, hjumps, if_neg (by decide), BitVec.toNat_add]
    exact Nat.mod_eq_of_lt (Nat.lt_trans (Nat.succ_lt_succ hpc) (by decide))
  exact ⟨hpc, hnext, hstrap, hsset, hrmp, hpld, hrpr, hmsk, by simpa [hent] using hother⟩

/-- The boot program: BCHK may stop in the bootloader, ENT enters the serve loop, the others move on. -/
theorem RunInv.boot_effect {s t : State} (h : RunInv s) (hrs : s.rs = .boot) {i : Instr}
    (hd : decode s.fetched = .ok i) (he : Effect s i t) : RunInv t := by
  have hb := h.boot hrs
  have hlt : s.upc.toNat < 10 := Nat.lt_succ_of_le hb.pc
  have hi : bootListing[s.upc.toNat] = i := Except.ok.inj ((decode_fetched_boot h.rom hlt).symm.trans hd)
  obtain ⟨hbchk, _, _, _, _, _, _, hlast⟩ := bootListing_address ⟨s.upc.toNat, hlt⟩
  have w := he.ownWriters
  have hrom := w.urom.trans h.rom
  have hrec := he.faultRec.trans (h.no_record (by simp [hrs]))
  rcases he.rs with hkeep | ⟨rfl, hserve⟩ | ⟨rfl, hloader, hupc⟩
  · have hent : i ≠ .ent := by
      rintro rfl
      cases he
      simp [hrs] at hkeep
    exact .of_boot hrom (hkeep.trans hrs) hrec
      (hb.move (he.bootMove hlt hi hent fun _ => by simp [hkeep, hrs]) he)
  · exact .of_serve hrom hserve hrec (hb.enter (hlast.mp hi) he)
  · have hpc : s.upc = 0x00 := BitVec.eq_of_toNat_eq (hbchk.mp hi)
    obtain ⟨_, _, _, _, _, hodr⟩ := hb.scratch
    exact .of_bootloader hrom hloader hrec
      ⟨hupc.trans hpc, (w.dir (by decide)).trans hb.pins, by rw [w.odr (by decide), hodr]⟩

/-- The serve loop: control stays in the program of `MODE`. -/
theorem RunInv.serve_effect {s t : State} (h : RunInv s) (hrs : s.rs = .serve) {i : Instr}
    (hd : decode s.fetched = .ok i) (he : Effect s i t) : RunInv t := by
  have hs := h.serve hrs
  have hi : (serveListing s.mode.value)[s.offset]'hs.pc = i :=
    Except.ok.inj ((decode_fetched_serve h.rom hs.pc).symm.trans hd)
  have m : ServeMove s.mode.value s.offset i (s.jumps i) (nextOffset s.mode.value s.offset i (s.jumps i)) :=
    hi ▸ serveListing_move s.mode.value ⟨s.offset, hs.pc⟩ _ (s.jumps_mem_choices _)
  have hkeep : t.rs = s.rs := by
    rcases he.rs with hkeep | ⟨rfl, _⟩ | ⟨rfl, _⟩
    · exact hkeep
    · exact absurd (by decide) m.loop
    · exact absurd (by decide) m.loop
  exact .of_serve (he.ownWriters.urom.trans h.rom) (hkeep.trans hrs)
    (he.faultRec.trans (h.no_record (by simp [hrs]))) (hs.move (he.offset m.loop ▸ m) he)

/-- A micro-operation of a running block: its effect, or LKP's fault, the only one a ready block can raise. -/
theorem RunInv.exec {s t : State} (h : RunInv s) (ha : s.accepted) (hrun : s.rs = .boot ∨ s.rs = .serve) {i : Instr}
    (hd : decode s.fetched = .ok i) (hx : exec i s = .next t) : RunInv t := by
  rcases exec_next hx with he | hraised
  · rcases hrun with hrs | hrs
    · exact h.boot_effect hrs hd he
    · exact h.serve_effect hrs hd he
  · obtain ⟨j, hj, hready⟩ := h.fetches_ready ha hrun
    obtain rfl := Except.ok.inj (hj.symm.trans hd)
    obtain ⟨u, hu, hfault⟩ := hready.exec_answersNext (by rcases hrun with hrs | hrs <;> simp [hrs])
    obtain rfl := Host.Outcome.next.inj (hu.symm.trans hx)
    obtain ⟨_, _, hrec⟩ := hfault hraised.rs
    exact .of_faulted (hraised.ownWriters.urom.trans h.rom) hraised.rs hrec

theorem RunState.running_iff {r : RunState} : r.running = true ↔ r = .boot ∨ r = .serve := by
  cases r <;> simp [RunState.running]

/-- Settles O46: a reset leads to the start, a fetched word is legal (R93), and its micro-operation keeps the
invariant; in a stopped run state only time passes. -/
theorem stepKeepsTheProgramInvariant : Obligations.StepKeepsTheProgramInvariant := by
  unfold Obligations.StepKeepsTheProgramInvariant
  intro s t h hstep
  obtain ⟨ha, ⟨v, _, rfl⟩ | ⟨_, hrunning, hone⟩ | ⟨_, _, _, rfl⟩⟩ := step_next hstep
  · exact .performReset (s := s.tickPassed) h.rom v
  · have hrun := RunState.running_iff.mp hrunning
    rcases hone with ⟨i, hd, hx⟩ | ⟨⟨e, hillegal⟩, _⟩
    · exact h.tickPassed.exec ha hrun hd hx
    · obtain ⟨i, hlegal, _⟩ := h.fetches_ready ha hrun
      cases hlegal.symm.trans hillegal
  · exact h.tickPassed

end Sys2Proof.Machine
end

section
/-! The memory spaces (O39, O43) and the accesses of a step (O42). Each of FAST, WORK and RTI is kept by a
micro-operation, or has one run of bytes written to it by its own writer (R62 to R64); both the frame of the spaces
and their canonical form come from that. -/

namespace Sys2Proof.Machine

/-! ### The writers of each space -/

/-- The space `m` became `m'`: kept, or, where `writes` holds, with one run of bytes written. -/
def WrittenOnlyIf (writes : Prop) (m m' : Memory) : Prop :=
  m' = m ∨ writes ∧ ∃ base bs, m' = putBytes m base bs

theorem WrittenOnlyIf.refl (writes : Prop) (m : Memory) : WrittenOnlyIf writes m m := .inl rfl

theorem WrittenOnlyIf.put {writes : Prop} (h : writes) (m : Memory) (base : Word) (bs : List Byte) :
    WrittenOnlyIf writes m (putBytes m base bs) := .inr ⟨h, base, bs, rfl⟩

theorem WrittenOnlyIf.eq_of_not {writes : Prop} {m m' : Memory} (h : WrittenOnlyIf writes m m') (hn : ¬ writes) :
    m' = m :=
  h.resolve_right fun hw => hn hw.1

theorem WrittenOnlyIf.wf {writes : Prop} {m m' : Memory} (h : WrittenOnlyIf writes m m') (hm : Memory.wf m = true) :
    Memory.wf m' = true := by
  obtain rfl | ⟨_, base, bs, rfl⟩ := h
  · exact hm
  · exact putBytes_wf m base bs hm

/-- What `i` does to the three spaces that can be written; `OwnWriters` says that STORE and the ROM are kept. -/
structure SpaceWriters (i : Instr) (s t : State) : Prop where
  fast : WrittenOnlyIf (i = .pld ∧ s.cfg.fastCopy = true) s.fast t.fast
  work : WrittenOnlyIf (i = .rmp ∧ s.cfg.remapAtBoot = true) s.work t.work
  rti : WrittenOnlyIf (i = .rti ∨ (i = .cnt ∧ s.cfg.countEn = true)) s.rti t.rti

theorem SpaceWriters.of_kept {i : Instr} {s t : State} (hfast : t.fast = s.fast) (hwork : t.work = s.work)
    (hrti : t.rti = s.rti) : SpaceWriters i s t :=
  ⟨.inl hfast, .inl hwork, .inl hrti⟩

theorem Effect.spaceWriters {i : Instr} {s t : State} (h : Effect s i t) : SpaceWriters i s t := by
  cases h
  case pldCopy hc => exact ⟨.put ⟨rfl, hc⟩ .., .refl .., .refl ..⟩
  case rmpBuilt hb => exact ⟨.refl .., .put ⟨rfl, hb⟩ .., .refl ..⟩
  case rti => exact ⟨.refl .., .refl .., .put (.inl rfl) ..⟩
  case cntOn hen => exact ⟨.refl .., .refl .., .put (.inr ⟨rfl, hen⟩) ..⟩
  all_goals exact .of_kept (by simp) (by simp) (by simp)

theorem exec_spaceWriters {i : Instr} {s t : State} (h : exec i s = .next t) : SpaceWriters i s t := by
  obtain he | ⟨_, _, rfl⟩ := exec_next h
  · exact he.spaceWriters
  · exact .of_kept rfl rfl rfl

/-- What one space reads depends on its own cells and the number of resets alone. -/
theorem State.memRead_congr_space {s t : State} {space : Space} (hm : t.memory space = s.memory space)
    (hb : t.boots = s.boots) (a : Word) : t.memRead space a = s.memRead space a := by
  have hc : t.contentsOf space = s.contentsOf space := by cases space <;> simp [State.contentsOf, hb]
  rw [State.memRead, State.memRead, hm, hc]

/-- Settles O39: a space that its writers did not write holds the cells it held, so it reads the same. -/
theorem eachSpaceHasItsOwnWriters : Obligations.EachSpaceHasItsOwnWriters := by
  unfold Obligations.EachSpaceHasItsOwnWriters
  intro i s t h
  have regs := exec_ownWriters h
  have spaces := exec_spaceWriters h
  exact ⟨regs.cfg, regs.urom, regs.strap,
    State.memRead_congr_space (space := .store) regs.store regs.boots,
    fun hi => State.memRead_congr_space (space := .fast) (spaces.fast.eq_of_not hi) regs.boots,
    fun hi => State.memRead_congr_space (space := .work) (spaces.work.eq_of_not hi) regs.boots,
    fun hi => State.memRead_congr_space (space := .rti) (spaces.rti.eq_of_not hi) regs.boots⟩

/-! ### Canonical form (log 7) -/

theorem MemoriesWf.exec {i : Instr} {s t : State} (hs : MemoriesWf s) (h : exec i s = .next t) : MemoriesWf t := by
  have regs := exec_ownWriters h
  have spaces := exec_spaceWriters h
  exact {
    store := regs.store ▸ hs.store
    fast := spaces.fast.wf hs.fast
    work := spaces.work.wf hs.work
    rti := spaces.rti.wf hs.rti
    urom := regs.urom ▸ hs.urom }

/-- R291: FAST, WORK and RTI list nothing after a reset, STORE and the ROM keep their contents. -/
theorem MemoriesWf.performReset {s : State} (hs : MemoriesWf s) (v : Word) : MemoriesWf (s.performReset v) :=
  ⟨hs.store, rfl, rfl, rfl, hs.urom⟩

theorem MemoriesWf.raised {s : State} (hs : MemoriesWf s) (f : FaultRecord) : MemoriesWf (s.raised f) :=
  ⟨hs.store, hs.fast, hs.work, hs.rti, hs.urom⟩

theorem MemoriesWf.tickPassed {s : State} (hs : MemoriesWf s) : MemoriesWf s.tickPassed :=
  ⟨hs.store, hs.fast, hs.work, hs.rti, hs.urom⟩

/-- Settles O43, by the four things a step can be. -/
theorem stepKeepsTheMemoriesCanonical : Obligations.StepKeepsTheMemoriesCanonical := by
  unfold Obligations.StepKeepsTheMemoriesCanonical
  intro s t hs h
  obtain ⟨_, ⟨v, _, rfl⟩ | ⟨_, _, ⟨i, _, hexec⟩ | ⟨_, rfl⟩⟩ | ⟨_, _, _, rfl⟩⟩ := step_next h
  · exact hs.tickPassed.performReset v
  · exact hs.tickPassed.exec hexec
  · exact hs.tickPassed.raised _
  · exact hs.tickPassed

/-! ### Accesses (R70, R220) -/

/-- The one port access or counter write that `i` makes in `s`, if it makes one and raises no model fault. -/
def State.accessOf (s : State) : Instr → Option Access
  | .smp => some (.readIn s.inputNow)
  | .bchk | .strap => some (.readStrap s.strap)
  | .drv => some (.writeOdr (s.dat.value.extractLsb' 0 8))
  | .oen => some (.writeDir 0xFF)
  | .ods | .ent => some (.writeDir 0x00)
  | .cnt => if s.cfg.countEn then some (.writeCount (s.accessCount + 1)) else none
  | _ => none

/-- R70: each micro-operation performs its own access once, and no other. -/
theorem Effect.trace {i : Instr} {s t : State} (h : Effect s i t) : t.trace = (s.accessOf i).toList ++ s.trace := by
  cases h
  case cntOn hen => simp [State.accessOf, hen]
  case cntOff hen => simp [State.accessOf, hen]
  all_goals simp [State.accessOf]

/-- R262: a micro-operation that raises a model fault performs no access. -/
theorem Raised.trace {i : Instr} {s t : State} (h : Raised s i t) : t.trace = s.trace := by
  obtain ⟨_, _, rfl⟩ := h
  rfl

theorem exec_trace {i : Instr} {s t : State} (h : exec i s = .next t) :
    t.trace = s.trace ∨ ∃ a, t.trace = a :: s.trace := by
  obtain he | hr := exec_next h
  · have htrace := he.trace
    cases hacc : s.accessOf i with
    | none => exact .inl (by simpa [hacc] using htrace)
    | some a => exact .inr ⟨a, by simpa [hacc] using htrace⟩
  · exact .inl hr.trace

/-- Settles O42: of the four things a step can be, a micro-operation alone makes an access. -/
theorem oneAccessAStep : Obligations.OneAccessAStep := by
  unfold Obligations.OneAccessAStep
  intro s t h
  obtain ⟨_, ⟨_, _, rfl⟩ | ⟨_, _, ⟨_, _, hexec⟩ | ⟨_, rfl⟩⟩ | ⟨_, _, _, rfl⟩⟩ := step_next h
  · exact .inl rfl
  · simpa using exec_trace hexec
  · exact .inl rfl
  · exact .inl rfl

end Sys2Proof.Machine
end

section
/-! The decoder and the encoder (O1, O2, O3, O5). A word is its two fields (R90), so decoding inverts encoding in
both directions once the fields of a decoded word are known: they are the micro-operation's opcode and operand. The
opcode map (R92) has one row per micro-operation, of format `N` or of format `T`; the legal words are those whose
fields a row of the map allows (R93), and an illegal fetch raises `IllegalMicroOp` (R261). -/

namespace Sys2Proof.Machine

/-! ### The two fields of a word (R90) -/

theorem opField_append_lowField (w : MicroWord) : opField w ++ lowField w = w := by
  apply BitVec.eq_of_getLsbD_eq
  intro k hk
  rw [opField, lowField, BitVec.getLsbD_append]
  by_cases hlow : k < 8
  · simp [hlow]
  · simp [hlow, show k - 8 < 8 by omega, show 8 + (k - 8) = k by omega]

theorem fields_encode (i : Instr) : opField (encode i) = i.opcode ∧ lowField (encode i) = i.operand :=
  Laws.EncodedFields.of_parts _ _

/-- The encodings are the words whose two fields are the micro-operation's own. -/
theorem eq_encode_iff_fields {w : MicroWord} {i : Instr} :
    w = encode i ↔ opField w = i.opcode ∧ lowField w = i.operand := by
  constructor
  · rintro rfl
    exact fields_encode i
  · rintro ⟨hop, hlow⟩
    rw [encode, ← hop, ← hlow, opField_append_lowField]

/-! ### Decoding a word -/

theorem formatN_eq_ok_iff {w : MicroWord} {i j : Instr} : formatN w i = .ok j ↔ lowField w = 0 ∧ i = j := by
  unfold formatN
  split <;> simp_all

/-- The decoder takes a word for a micro-operation only where the word's fields are the micro-operation's own: a
format `N` row asks for a zero low byte, a format `T` row takes the low byte as its target. -/
theorem fields_of_decode {w : MicroWord} {i : Instr} (h : decode w = .ok i) :
    opField w = i.opcode ∧ lowField w = i.operand := by
  unfold decode at h
  split at h
  -- 0x20 to 0x23 are the rows of format `T`; the last arm of the map is an `op` outside it
  case h_10 hop | h_11 hop | h_12 hop | h_13 hop =>
    cases h
    exact ⟨BitVec.eq_of_toNat_eq hop, rfl⟩
  case h_24 => cases h
  all_goals
    rename_i hop
    obtain ⟨hzero, rfl⟩ := formatN_eq_ok_iff.mp h
    exact ⟨BitVec.eq_of_toNat_eq hop, hzero⟩

theorem decode_eq_ok_iff_fields {w : MicroWord} {i : Instr} :
    decode w = .ok i ↔ opField w = i.opcode ∧ lowField w = i.operand := by
  refine ⟨fields_of_decode, fun h => ?_⟩
  rw [eq_encode_iff_fields.mpr h, decode_encode]

theorem wellFormed_eq_true (i : Instr) : i.wellFormed = true := by
  cases i <;> rfl

/-- Settles O1: a decoded word and an encoding have the same two fields. -/
theorem decodeInvertsEncode : Obligations.DecodeInvertsEncode := by
  unfold Obligations.DecodeInvertsEncode
  intro w i
  rw [decode_eq_ok_iff_fields, eq_encode_iff_fields, wellFormed_eq_true, eq_self, true_and]

/-! ### The rows of the opcode map (R92) -/

/-- The micro-operations of format `N`. -/
def formatNRows : List Instr :=
  [.smp, .tall, .tany, .lat, .lkp, .drv, .oen, .ods, .cnt, .bchk, .strap, .sset, .rmp, .pld, .pck, .rpr, .msk, .rti, .ent]

/-- The micro-operations of format `T` with target `t`. -/
def formatTRows (t : UAddr) : List Instr := [.jmp t, .ba t, .bi t, .bs t]

theorem operand_of_mem_formatNRows {i : Instr} (hi : i ∈ formatNRows) : i.operand = 0 := by
  revert i
  decide

theorem operand_of_mem_formatTRows {t : UAddr} {i : Instr} (hi : i ∈ formatTRows t) : i.operand = t := by
  revert i
  simp [formatTRows, Instr.operand]

theorem mem_rows (i : Instr) : i ∈ formatNRows ∨ i ∈ formatTRows i.operand := by
  cases i with
  | jmp t | ba t | bi t | bs t => exact .inr (by simp [formatTRows, Instr.operand])
  | smp | tall | tany | lat | lkp | drv | oen | ods | cnt => exact .inl (by decide)
  | bchk | strap | sset | rmp | pld | pck | rpr | msk | rti | ent => exact .inl (by decide)

/-- The legal words: the opcode of a format `N` row over a zero low byte, or that of a format `T` row. -/
theorem decode_ok_iff_rows (w : MicroWord) :
    (∃ i, decode w = .ok i) ↔
      (opField w ∈ formatNRows.map Instr.opcode ∧ lowField w = 0)
        ∨ opField w ∈ (formatTRows (lowField w)).map Instr.opcode := by
  simp only [decode_eq_ok_iff_fields, List.mem_map]
  constructor
  · rintro ⟨i, hop, hlow⟩
    rcases mem_rows i with hi | hi
    · exact .inl ⟨⟨i, hi, hop.symm⟩, hlow.trans (operand_of_mem_formatNRows hi)⟩
    · exact .inr ⟨i, hlow ▸ hi, hop.symm⟩
  · rintro (⟨⟨i, hi, hop⟩, hlow⟩ | ⟨i, hi, hop⟩)
    · exact ⟨i, hop.symm, hlow.trans (operand_of_mem_formatNRows hi).symm⟩
    · exact ⟨i, hop.symm, (operand_of_mem_formatTRows hi).symm⟩

theorem decode_error_iff (w : MicroWord) : (∃ e, decode w = .error e) ↔ ¬ ∃ i, decode w = .ok i := by
  cases decode w <;> simp

theorem mem_formatN_opcodes (b : BitVec 8) : b ∈ formatNRows.map Instr.opcode ↔
    b.toNat ∈ [0x10, 0x11, 0x12, 0x13, 0x14, 0x15, 0x16, 0x17, 0x18,
      0x40, 0x41, 0x42, 0x43, 0x44, 0x45, 0x46, 0x47, 0x48, 0x49] := by
  simp [formatNRows, Instr.opcode, BitVec.toNat_eq]

theorem mem_formatT_opcodes (t : UAddr) (b : BitVec 8) : b ∈ (formatTRows t).map Instr.opcode ↔
    b.toNat ∈ [0x20, 0x21, 0x22, 0x23] := by
  simp [formatTRows, Instr.opcode, BitVec.toNat_eq]

/-- The 23 opcodes of R92 are those of the two formats' rows. -/
theorem mem_opcodeMap (t : UAddr) (b : BitVec 8) :
    b.toNat ∈ [0x10, 0x11, 0x12, 0x13, 0x14, 0x15, 0x16, 0x17, 0x18, 0x20, 0x21, 0x22, 0x23,
        0x40, 0x41, 0x42, 0x43, 0x44, 0x45, 0x46, 0x47, 0x48, 0x49] ↔
      b ∈ formatNRows.map Instr.opcode ∨ b ∈ (formatTRows t).map Instr.opcode := by
  rw [mem_formatN_opcodes, mem_formatT_opcodes, ← List.mem_append]
  exact List.Perm.mem_iff (by decide)

/-- Settles O2: an illegal word is one that no row of the opcode map allows. -/
theorem illegalWordsAreThoseOutsideTheOpcodeMap : Obligations.IllegalWordsAreThoseOutsideTheOpcodeMap := by
  unfold Obligations.IllegalWordsAreThoseOutsideTheOpcodeMap
  intro w
  change _ ↔ (opField w).toNat ∉ _ ∨ ((opField w).toNat ∉ _ ∧ lowField w ≠ 0)
  rw [decode_error_iff, decode_ok_iff_rows, mem_opcodeMap (lowField w), ← mem_formatT_opcodes (lowField w),
    not_or, not_or, Classical.not_and_iff_not_or_not, or_and_right, and_comm (b := lowField w ≠ 0)]

/-! ### Words of the spec's table, and an illegal fetch -/

/-- Settles O3: the legal words are encodings; the two others have no row and a non-zero low byte. -/
theorem specWordsDecode : Obligations.SpecWordsDecode := by
  unfold Obligations.SpecWordsDecode
  exact ⟨decode_encode .smp, decode_encode .lkp, decode_encode (.ba 0x15), decode_encode (.bs 0x28),
    decode_encode .rmp, decode_encode .msk, decode_encode .ent, rfl, rfl⟩

/-- R93, R261: with no reset, a step of a running block that fetches an illegal word raises `IllegalMicroOp`. -/
theorem step_of_illegal_fetch {s : State} {e : DecodeError} (ha : s.accepted) (hv : s.resetNow = none)
    (hr : s.rs.running = true) (hd : decode s.fetched = .error e) :
    step s = .next (s.tickPassed.raised (.illegalMicroOp s.upc s.fetched)) := by
  have hd' : decode s.tickPassed.fetched = .error e := hd
  rw [step, show configDefect s.cfg s.store s.strap = none from ha, hv]
  simp only [hr, if_true, runOne, hd']
  rfl

/-- Settles O5: `BOOT` and `SERVE` are the running states. -/
theorem illegalFetchRaises : Obligations.IllegalFetchRaises := by
  unfold Obligations.IllegalFetchRaises
  intro s e ha hv hrun hd
  have hr : s.rs.running = true := by rcases hrun with h | h <;> rw [h] <;> rfl
  exact step_of_illegal_fetch ha hv hr hd

end Sys2Proof.Machine
end

section
/-! The remapper (O28, O50, O51, O52, O54). Under `PinMapOK` the positions of the data lines, and those of a ROM's
address lines, are pairwise different, and no address line stands at a select line's position (R41); at such
positions `gather` undoes `scatter`. From that follow the laws of R136, and from those what a correct table holds
(R138 to R142) and what the host reads of one (R144). Last, the table that RMP provides (R147). -/

namespace Sys2Proof.Machine

/-! ### Gathering and scattering -/

theorem allDistinct_iff_nodup (ps : List Nat) : allDistinct ps = true ↔ ps.Nodup := by
  induction ps with
  | nil => simp [allDistinct]
  | cons p ps ih => rw [allDistinct_cons, ih, List.nodup_cons]

/-- At different positions `gather` undoes `scatter`. -/
theorem gather_scatter {ps : List Nat} (hd : allDistinct ps = true) {a : Nat} (ha : a < 2 ^ ps.length) :
    gather ps (scatter ps a) = a := by
  apply Nat.eq_of_testBit_eq
  intro i
  rw [gather_testBit]
  cases hp : ps[i]? with
  | some p => exact scatter_testBit_get hd a i p hp
  | none =>
    have hi : ps.length ≤ i := List.getElem?_eq_none_iff.mp hp
    exact (Nat.testBit_lt_two_pow (Nat.lt_of_lt_of_le ha (Nat.pow_le_pow_right Nat.two_pos hi))).symm

/-- At different positions `scatter` puts every gathered bit back where it was. -/
theorem scatter_gather_testBit {ps : List Nat} (hd : allDistinct ps = true) (v : Nat) {p : Nat} (hp : p ∈ ps) :
    (scatter ps (gather ps v)).testBit p = v.testBit p := by
  obtain ⟨j, hj⟩ := List.mem_iff_getElem?.mp hp
  rw [scatter_testBit_get hd _ j p hj, gather_testBit, hj]
  rfl

/-- `n` different positions below `n` are all of them. -/
theorem mem_of_allDistinct {ps : List Nat} {n : Nat} (hd : allDistinct ps = true) (hlt : ∀ p ∈ ps, p < n)
    (hn : ps.length = n) {i : Nat} (hi : i < n) : i ∈ ps := by
  apply Classical.byContradiction
  intro hmem
  have hnodup : (i :: ps).Nodup := List.nodup_cons.mpr ⟨hmem, (allDistinct_iff_nodup ps).mp hd⟩
  have hsub : i :: ps ⊆ List.range n :=
    List.cons_subset.mpr ⟨List.mem_range.mpr hi, fun p hp => List.mem_range.mpr (hlt p hp)⟩
  have hlen := hnodup.length_le_of_subset hsub
  simp only [List.length_cons, List.length_range] at hlen
  omega

/-- A number without a bit at the positions changes nothing that is gathered there. -/
theorem gather_or_of_disjoint {ps : List Nat} {v w : Nat} (h : ∀ p ∈ ps, w.testBit p = false) :
    gather ps (v ||| w) = gather ps v :=
  gather_congr fun p hp => by rw [Nat.testBit_or, h p hp, Bool.or_false]

/-- Bits from 2^n on do not matter to positions below `n`. -/
theorem gather_mod_two_pow {ps : List Nat} {n : Nat} (h : ∀ p ∈ ps, p < n) (v : Nat) :
    gather ps (v % 2 ^ n) = gather ps v :=
  gather_congr fun p hp => by simp [Nat.testBit_mod_two_pow, h p hp]

/-! ### Positions under `PinMapOK` (R40, R41) -/

theorem dataPositions_length (pm : PinMap) : (dataPositions pm).length = 8 := by simp [dataPositions]

theorem addrPositions_length (pm : PinMap) (t : RomType) : (addrPositions pm t).length = t.nAddr := by
  cases t <;> simp [addrPositions, addrLines, RomType.nAddr]

theorem RomType.size_eq (t : RomType) : t.size = 2 ^ t.nAddr := by cases t <;> rfl

theorem linePos_of_isDataByte {l : Option Pin} (h : isDataByte l = true) : linePos l < 8 := by
  match l with
  | some ⟨.data, b⟩ => simpa [isDataByte, linePos] using h

/-- Clause (a): the data lines are at eight different positions below 8. -/
theorem dataPositions_of_pinMapOK {pm : PinMap} {set : RomSet} (h : pinMapOK pm set = true) :
    allDistinct (dataPositions pm) = true ∧ ∀ p ∈ dataPositions pm, p < 8 := by
  simp only [pinMapOK, pinsClauseA, Bool.and_eq_true, List.all_eq_true] at h
  obtain ⟨⟨⟨⟨⟨hbyte, hdist⟩, _⟩, _⟩, _⟩, _⟩ := h
  refine ⟨hdist, fun p hp => ?_⟩
  obtain ⟨l, hl, rfl⟩ := List.mem_map.mp hp
  exact linePos_of_isDataByte (hbyte l hl)

/-- Clause (d): a ROM's address lines are at different positions, none of them a select line's. -/
theorem addrPositions_of_pinMapOK {pm : PinMap} {set : RomSet} (h : pinMapOK pm set = true) {k : Nat}
    (hk : k < set.romCount) : allDistinct (addrPositions pm (set.typeAt k)) = true
      ∧ ∀ p ∈ addrPositions pm (set.typeAt k), p ∉ selectPositions pm set := by
  simp only [pinMapOK, pinsClauseD, Bool.and_eq_true, List.all_eq_true] at h
  obtain ⟨⟨_, hclauseD⟩, _⟩ := h
  have hnodup := (allDistinct_iff_nodup _).mp (hclauseD k (List.mem_range.mpr hk)).1
  obtain ⟨haddr, _, hapart⟩ := List.nodup_append.mp hnodup
  exact ⟨(allDistinct_iff_nodup _).mpr haddr, fun p hp hq => hapart p hp p hq rfl⟩

/-! ### The laws of R136 -/

theorem demangleByte_remapByte {pm : PinMap} {set : RomSet} (h : pinMapOK pm set = true) (b : Byte) :
    demangleByte pm (remapByte pm b) = b := by
  obtain ⟨hdist, hlt⟩ := dataPositions_of_pinMapOK h
  have hb : b.toNat < 2 ^ (dataPositions pm).length := by
    rw [dataPositions_length]
    exact b.isLt
  rw [demangleByte, remapByte, BitVec.toNat_ofNat, gather_mod_two_pow hlt, gather_scatter hdist hb,
    BitVec.ofNat_toNat, BitVec.setWidth_eq]

/-- The data lines are at all eight positions, so every bit of the byte is put back. -/
theorem remapByte_demangleByte {pm : PinMap} {set : RomSet} (h : pinMapOK pm set = true) (r : Byte) :
    remapByte pm (demangleByte pm r) = r := by
  obtain ⟨hdist, hlt⟩ := dataPositions_of_pinMapOK h
  have hlen := dataPositions_length pm
  have hgather := gather_lt (dataPositions pm) r.toNat
  rw [hlen] at hgather
  apply BitVec.eq_of_getLsbD_eq
  intro i hi
  have hmem : i ∈ dataPositions pm := mem_of_allDistinct hdist hlt hlen hi
  rw [remapByte, demangleByte, BitVec.toNat_ofNat, Nat.mod_eq_of_lt hgather, BitVec.getLsbD_ofNat,
    scatter_gather_testBit hdist _ hmem, decide_eq_true hi, Bool.true_and]
  rfl

theorem logicalAddress_lt_size (pm : PinMap) (t : RomType) (idx : Nat) : logicalAddress pm t idx < t.size := by
  rw [RomType.size_eq, ← addrPositions_length pm t]
  exact gather_lt _ _

theorem logicalAddress_mangleAddr {pm : PinMap} {set : RomSet} (h : pinMapOK pm set = true) {k : Nat}
    (hk : k < set.romCount) {a : Nat} (ha : a < (set.typeAt k).size) :
    logicalAddress pm (set.typeAt k) (mangleAddr pm (set.typeAt k) a) = a := by
  rw [RomType.size_eq, ← addrPositions_length pm] at ha
  exact gather_scatter (addrPositions_of_pinMapOK h hk).1 ha

/-- The select levels, and bits at positions that are no address positions, do not reach the logical address. -/
theorem logicalAddress_mangle {pm : PinMap} {set : RomSet} (h : pinMapOK pm set = true) {k : Nat}
    (hk : k < set.romCount) (a lv : Nat) {dc : Nat}
    (hdc : ∀ p ∈ addrPositions pm (set.typeAt k), dc.testBit p = false) :
    logicalAddress pm (set.typeAt k) (mangle pm set (set.typeAt k) a lv ||| dc)
      = logicalAddress pm (set.typeAt k) (mangleAddr pm (set.typeAt k) a) :=
  (gather_or_of_disjoint hdc).trans <|
    gather_or_of_disjoint fun p hp => scatter_testBit_not_mem lv ((addrPositions_of_pinMapOK h hk).2 p hp)

/-- Settles O50: for the bytes all 256 of them, for the addresses ROM by ROM. -/
theorem remappingIsInvertible : Obligations.RemappingIsInvertible := by
  unfold Obligations.RemappingIsInvertible
  intro pm set h
  refine ⟨demangleByte_remapByte h, remapByte_demangleByte h, fun k hk a ha => ?_⟩
  have hmangle := logicalAddress_mangleAddr h hk ha
  exact ⟨hmangle, fun lv dc hdc => (logicalAddress_mangle h hk a lv hdc).trans hmangle⟩

/-! ### Correct tables (R138 to R142) -/

theorem lt_romCount_of_selectedRoms {pm : PinMap} {set : RomSet} {idx k : Nat} (h : selectedRoms pm set idx = [k]) :
    k < set.romCount := by
  have hk : k ∈ selectedRoms pm set idx := by simp [h]
  exact List.mem_range.mp (List.mem_filter.mp hk).1

/-- Where exactly one ROM is selected, its byte is the one `remap_ref` takes: of a single-ROM set ROM 0. -/
theorem remapSource_of_selectedRoms {pm : PinMap} {set : RomSet} {idx k : Nat} (h : selectedRoms pm set idx = [k]) :
    remapSource pm set idx = k := by
  have hk := lt_romCount_of_selectedRoms h
  unfold remapSource
  split
  case isTrue => simp [h]
  case isFalse hsingle => omega

theorem remapRef_of_selectedRoms {pm : PinMap} {set : RomSet} {idx k : Nat} (img : Nat → Nat → Byte)
    (h : selectedRoms pm set idx = [k]) :
    remapRef pm set img idx = remapByte pm (img k (logicalAddress pm (set.typeAt k) idx)) := by
  simp only [remapRef, remapSource_of_selectedRoms h, Nat.mod_eq_of_lt (logicalAddress_lt_size pm _ idx)]

/-- Settles O51: the entry is the selected ROM's byte remapped, and demangling undoes that. -/
theorem referenceTableIsCorrect : Obligations.ReferenceTableIsCorrect := by
  unfold Obligations.ReferenceTableIsCorrect
  intro pm set img h idx k _ hsel
  rw [remapRef_of_selectedRoms img hsel, demangleByte_remapByte h]

/-- Settles O52: both bytes demangle to the same byte of the image, and demangling is injective. -/
theorem dontCareBitsYieldTheSameByte : Obligations.DontCareBitsYieldTheSameByte := by
  unfold Obligations.DontCareBitsYieldTheSameByte
  intro pm set img table idx jdx k h htable hidx hjdx hseli hselj hagree
  have haddr : logicalAddress pm (set.typeAt k) idx = logicalAddress pm (set.typeAt k) jdx := gather_congr hagree
  have hbyte : demangleByte pm (table idx) = demangleByte pm (table jdx) := by
    rw [htable idx k hidx hseli, htable jdx k hjdx hselj, haddr]
  exact Function.LeftInverse.injective (remapByte_demangleByte h) hbyte

/-! ### LKP and DRV on a correct table (R144) -/

/-- R190: LKP on a sample below `TLEN` answers the state with the byte found in `DAT`. -/
theorem exec_lkp_of_lt {s : State} {raw tbl tlen : Word} (hraw : s.raw = .holds raw) (htbl : s.tbl = .holds tbl)
    (htlen : s.tlen = .holds tlen) (h : raw < tlen) :
    exec .lkp s = .next (s.writeDat ((servedByte s tbl raw).setWidth 32)).advance := by
  simp [exec, execLkp, hraw, htbl, htlen, BitVec.not_le.mpr h]

/-- R191: DRV stores the byte in `DAT`. -/
theorem exec_drv_of_byte {s : State} {b : Byte} (h : s.dat = .holds (b.setWidth 32)) :
    exec .drv s = .next (s.writeOdr b).advance := by
  have hb : (b.setWidth 32).extractLsb' 0 8 = b := by
    apply BitVec.eq_of_getLsbD_eq
    intro i hi
    simp [hi, show i < 32 by omega]
  simp [exec, execDrv, h, hb]

/-- R36, R135: while the pins are outputs and `PinMapOK` holds, the host reads `ODR` demangled. -/
theorem hostByte_of_driven {s : State} {b : Byte} (hdir : s.dir = 0xFF) (hpm : s.pinMapFails = false)
    (hodr : s.odr = .holds b) (obs : Nat) : s.hostByte obs = some (demangleByte s.cfg.pm b) := by
  simp [State.hostByte, State.pinByte, hdir, hpm, hodr]

theorem lt_tableLength {raw : Word} {width : Nat} (hwidth : width < 32) (h : raw.toNat < 2 ^ width) :
    raw < BitVec.ofNat 32 (2 ^ width) := by
  have hpow : 2 ^ width < 2 ^ 32 := Nat.pow_lt_pow_right Nat.one_lt_two hwidth
  rw [BitVec.lt_def, BitVec.toNat_ofNat, Nat.mod_eq_of_lt hpow]
  exact h

/-- Settles O54: LKP finds the table's entry at the sample, DRV stores it, and the host reads it demangled. -/
theorem servedByteIsTheRomsByte : Obligations.ServedByteIsTheRomsByte := by
  unfold Obligations.ServedByteIsTheRomsByte
  intro s set img n raw tbl k h hset hrom hraw htbl htlen hwidth htable hlt hsel hdir
  have hpm := pinMapFails_of_ok hset hrom h
  have hentry : demangleByte s.cfg.pm (servedByte s tbl raw)
      = img k (logicalAddress s.cfg.pm (set.typeAt k) raw.toNat) := by
    have hcorrect := htable raw.toNat k hlt hsel
    simp only [BitVec.ofNat_toNat, BitVec.setWidth_eq] at hcorrect
    rw [servedByte_ok hpm]
    exact hcorrect
  refine ⟨_, _, exec_lkp_of_lt hraw htbl htlen (lt_tableLength hwidth hlt), exec_drv_of_byte rfl, fun obs => ?_⟩
  refine (hostByte_of_driven (b := servedByte s tbl raw) ?_ ?_ ?_ obs).trans (congrArg some hentry)
  · simpa using hdir
  · rw [pinMapFails_congr (s := s) (by simp) (by simp) (by simp), hpm]
  · simp

/-! ### RMP (R147) -/

theorem exec_rmp_prebuilt {s : State} {set : RomSet} {n : Word} (hset : s.set = .holds n)
    (hrom : romSetAt s.cfg s.store n.toNat = .ok set) (hb : s.cfg.remapAtBoot = false) :
    exec .rmp s = .next ((s.writeTlen set.tableLength).writeTbl (prebuiltTable s.cfg s.store n.toNat)).advance := by
  simp [exec, execRmp, withSet_holds _ hset hrom, hb]

theorem exec_rmp_built {s : State} {set : RomSet} {n : Word} (hset : s.set = .holds n)
    (hrom : romSetAt s.cfg s.store n.toNat = .ok set) (hb : s.cfg.remapAtBoot = true) :
    exec .rmp s = .next ((((s.writeTlen set.tableLength).memWrite .work s.cfg.workBase
      (builtTable s n.toNat set)).writeTbl s.cfg.workBase).tookFree
      (if pinMapOK s.cfg.pm set then 0 else 1)).advance := by
  simp [exec, execRmp, withSet_holds _ hset hrom, hb]

/-- The prebuilt table of a RomSet lies behind its 16-byte header (R101). -/
theorem prebuiltTable_of_romSetAt {cfg : Config} {store : Memory} {n : Nat} {set : RomSet}
    (h : romSetAt cfg store n = .ok set) :
    ∃ a, setAddr cfg store n = some a ∧ prebuiltTable cfg store n = BitVec.ofNat 32 (a + 16) := by
  obtain ⟨_, a, _, ha, _, _⟩ := romSetAt_ok h
  exact ⟨a, ha, by simp [prebuiltTable, ha]⟩

theorem builtTable_length (s : State) (n : Nat) (set : RomSet) :
    (builtTable s n set).length = set.tableLength.toNat := by simp [builtTable]

/-- Under `PinMapOK` entry `idx` of the table RMP builds is that of `remap_ref`. -/
theorem builtTable_getElem {s : State} {n : Nat} {set : RomSet} (h : pinMapOK s.cfg.pm set = true) {idx : Nat}
    (hidx : idx < (builtTable s n set).length) :
    (builtTable s n set)[idx] = remapRef s.cfg.pm set (logicalImage s n) idx := by
  simp [builtTable, h]

/-- Settles O28, by whether the table is built at boot. -/
theorem rmpProvidesTheTable : Obligations.RmpProvidesTheTable := by
  unfold Obligations.RmpProvidesTheTable
  intro s set n hset hrom
  cases hb : s.cfg.remapAtBoot with
  | false =>
    obtain ⟨a, ha, htable⟩ := prebuiltTable_of_romSetAt hrom
    refine ⟨_, exec_rmp_prebuilt hset hrom hb, fun _ => ⟨fun sp x => by simp, a, ha, ?_⟩, nofun⟩
    rw [htable]
    rfl
  | true =>
    have hlen : (builtTable s n.toNat set).length = (BitVec.ofNat 32 (2 ^ set.indexWidth)).toNat :=
      builtTable_length s n.toNat set
    refine ⟨_, exec_rmp_built hset hrom hb, nofun,
      fun _ => ⟨?_, fun h => ⟨by simp [h], fun idx hidx => ?_⟩, ?_⟩⟩
    · rfl
    · rw [← hlen] at hidx
      have hfits : (builtTable s n.toNat set).length ≤ 2 ^ 32 := hlen ▸ Nat.le_of_lt (BitVec.isLt _)
      simp [State.memWrite_run _ (space := .work) (by simp) _ _ hfits idx hidx, builtTable_getElem h]
    · intro sp x hx
      rw [← hlen] at hx
      simp [State.memWrite_other _ _ _ _ sp x hx]

end Sys2Proof.Machine
end

section
/-! The serve-mode selector (O30 to O33, O53). PCK, RPR and MSK read the selected set first, so each has one equation
for a `SET` that names a RomSet. Under `PinMapOK` the select lines of a set stand at pairwise different positions (R41),
so the bit of `INV` at a line's position speaks of that line alone; from that follows the mask-derivation law (R169). -/

namespace Sys2Proof.Machine

/-! ### What the three micro-operations answer -/

section
variable {s : State} {set : RomSet} {n : Word} (hset : s.set = .holds n)
  (hrom : romSetAt s.cfg s.store n.toNat = .ok set)
include hset hrom

theorem exec_pck_of_holds :
    exec .pck s = .next (if pinMapOK s.cfg.pm set then s else s.warned warnPinMap).advance := by
  rw [exec, execPck, withSet_holds _ hset hrom]

theorem exec_rpr_of_holds :
    exec .rpr s = .next ((s.warned (repairMode set).2).writeMode (repairMode set).1).advance := by
  rw [exec, execRpr, withSet_holds _ hset hrom]

theorem exec_msk_of_pinMapOK (hp : pinMapOK s.cfg.pm set = true) :
    exec .msk s = .next ((s.warned (romTypeWarning set)).writeMasks (checkMask s.cfg.pm set)
      (invertMask s.cfg.pm set)).advance := by
  rw [exec, execMsk, withSet_holds _ hset hrom, if_pos hp]

theorem exec_msk_of_not_pinMapOK (hp : ¬ pinMapOK s.cfg.pm set = true) :
    exec .msk s = .next (((s.warned (romTypeWarning set)).writeMasks (Config.freeWord s.freeCount)
      (Config.freeWord (s.freeCount + 1))).tookFree 2).advance := by
  rw [exec, execMsk, withSet_holds _ hset hrom, if_neg hp]

end

theorem one_le_romCount_of_romSetAt {cfg : Config} {store : Memory} {n : Nat} {set : RomSet}
    (h : romSetAt cfg store n = .ok set) : 1 ≤ set.romCount := by
  obtain ⟨_, _, _, _, _, header⟩ := romSetAt_ok h
  exact header.count.1

/-- Settles O30, by whether `PinMapOK` holds. -/
theorem pckOnlyWarns : Obligations.PckOnlyWarns := by
  unfold Obligations.PckOnlyWarns
  intro s set n hset hrom
  refine ⟨_, exec_pck_of_holds hset hrom, ?_⟩
  by_cases hp : pinMapOK s.cfg.pm set = true
  · simp only [hp, if_true]
    exact ⟨rfl, fun sp a => by simp⟩
  · simp only [hp]
    exact ⟨rfl, fun sp a => by simp⟩

/-! ### The repaired mode (R162, R163) -/

theorem repairMode_of_multi {set : RomSet} (hn : set.romCount > 1) (hm : set.serveMode ≠ .addrOnAnyCs) :
    repairMode set = (.addrOnAnyCs, 1) :=
  if_pos ⟨hn, hm⟩

theorem repairMode_of_single {set : RomSet} (hn : set.romCount = 1) (hm : set.serveMode = .addrOnAnyCs) :
    repairMode set = (.twoCheck, 2) :=
  (if_neg fun h => h.2 hm).trans (if_pos ⟨hn, hm⟩)

theorem repairMode_of_fitting {set : RomSet} (hmulti : ¬ (set.romCount > 1 ∧ set.serveMode ≠ .addrOnAnyCs))
    (hsingle : ¬ (set.romCount = 1 ∧ set.serveMode = .addrOnAnyCs)) : repairMode set = (set.serveMode, 0) :=
  (if_neg hmulti).trans (if_neg hsingle)

/-- R163: the repaired mode is `ADDR_ON_ANY_CS` exactly for a multi-ROM set. -/
theorem repairMode_eq_addrOnAnyCs_iff {set : RomSet} (hcount : 1 ≤ set.romCount) :
    (repairMode set).1 = .addrOnAnyCs ↔ set.romCount > 1 := by
  by_cases hn : set.romCount > 1 <;> by_cases hm : set.serveMode = .addrOnAnyCs
  · rw [repairMode_of_fitting (by simp [hm]) (by omega)]
    simp [hn, hm]
  · rw [repairMode_of_multi hn hm]
    simp [hn]
  · rw [repairMode_of_single (by omega) hm]
    simp [hn]
  · rw [repairMode_of_fitting (by simp [hn]) (by simp [hm])]
    simp [hn, hm]

/-- Settles O31: one equation of `repairMode` for each of the three clauses. -/
theorem rprRepairsTheMode : Obligations.RprRepairsTheMode := by
  unfold Obligations.RprRepairsTheMode
  intro s set n hset hrom
  refine ⟨_, _, _, exec_rpr_of_holds hset hrom, rfl, fun hn hm => ?_, fun hn hm => ?_,
    fun hmulti hsingle => ?_, fun sp a => by simp⟩
  · simp [repairMode_of_multi hn hm]
  · simp [repairMode_of_single hn hm]
  · simp [repairMode_of_fitting hmulti hsingle]

/-- Settles O32: RPR writes the repaired mode and its warning, and the header's `rom_count` is at least 1. -/
theorem repairedModeFitsTheRomCount : Obligations.RepairedModeFitsTheRomCount := by
  unfold Obligations.RepairedModeFitsTheRomCount
  intro s t set n hset hrom h
  cases (exec_rpr_of_holds hset hrom).symm.trans h
  refine ⟨repairMode_eq_addrOnAnyCs_iff (one_le_romCount_of_romSetAt hrom), fun hn hm => ?_, fun hn hm => ?_⟩
  · simp [repairMode_of_multi hn hm]
  · simp [repairMode_of_single hn hm]

/-! ### The masks (R164 to R167) -/

theorem linePos_lt (l : Option Pin) : linePos l < 32 := by
  cases l with
  | none => exact Nat.zero_lt_succ 31
  | some pin => exact pin.bit.isLt

theorem checkMask_bit_iff (pm : PinMap) (set : RomSet) {p : Nat} (hp : p < 32) :
    (checkMask pm set).getLsbD p = true ↔ ∃ l ∈ selectLines pm set, linePos l.line = p := by
  rw [checkMask, bitsWord_bit _ _ hp, decide_eq_true_iff, selectPositions, List.mem_map]

theorem checkMask_bit_of_mem {pm : PinMap} {set : RomSet} {l : SelectLine} (hl : l ∈ selectLines pm set) :
    (checkMask pm set).getLsbD (linePos l.line) = true :=
  (checkMask_bit_iff pm set (linePos_lt _)).mpr ⟨l, hl, rfl⟩

theorem invertMask_bit_iff (pm : PinMap) (set : RomSet) {p : Nat} (hp : p < 32) :
    (invertMask pm set).getLsbD p = true ↔
      ∃ l ∈ selectLines pm set, linePos l.line = p ∧ l.pol = .activeHigh := by
  rw [invertMask, bitsWord_bit _ _ hp, decide_eq_true_iff]
  simp only [List.mem_map, List.mem_filter, decide_eq_true_iff]
  exact exists_congr fun l => and_right_comm.trans and_assoc

theorem romTypeOf_eq_none_iff (code : Byte) : romTypeOf code = none ↔ 3 ≤ code.toNat := by
  unfold romTypeOf
  split
  case h_4 h0 h1 h2 =>
    have hne : code.toNat ≠ 0 ∧ code.toNat ≠ 1 ∧ code.toNat ≠ 2 := ⟨h0, h1, h2⟩
    exact iff_of_true rfl (by omega)
  all_goals exact iff_of_false nofun (by omega)

/-- R166, R167: of a header that is a RomSet, `rom_count` is 1 where it is not above 1. -/
theorem romTypeWarning_eq {set : RomSet} (hcount : 1 ≤ set.romCount) : romTypeWarning set =
    if set.romCount = 1 ∧ ∃ d, set.roms[0]? = some d ∧ 3 ≤ d.typeCode.toNat then 4 else 0 := by
  have hsingle : set.romCount ≤ 1 ↔ set.romCount = 1 := by omega
  simp only [romTypeWarning, hsingle, Option.any_eq_true, Option.isNone_iff_eq_none, romTypeOf_eq_none_iff,
    warnRomTypeUnknown]

theorem warn_or_romTypeWarning {set : RomSet} (hcount : 1 ≤ set.romCount) (w : Word) : w ||| romTypeWarning set =
    if set.romCount = 1 ∧ ∃ d, set.roms[0]? = some d ∧ 3 ≤ d.typeCode.toNat then w ||| 4 else w := by
  rw [romTypeWarning_eq hcount]
  split
  · rfl
  · exact BitVec.or_zero

/-- Settles O33, by whether `PinMapOK` holds: the warning and the frame do not depend on it. -/
theorem mskDerivesTheMasks : Obligations.MskDerivesTheMasks := by
  unfold Obligations.MskDerivesTheMasks
  intro s set n hset hrom
  have hwarn := warn_or_romTypeWarning (one_le_romCount_of_romSetAt hrom) s.warn
  by_cases hp : pinMapOK s.cfg.pm set = true
  · exact ⟨_, _, _, exec_msk_of_pinMapOK hset hrom hp, rfl,
      fun _ => ⟨rfl, fun p => checkMask_bit_iff s.cfg.pm set, fun p => invertMask_bit_iff s.cfg.pm set⟩,
      hwarn, fun sp a => by simp⟩
  · exact ⟨_, _, _, exec_msk_of_not_pinMapOK hset hrom hp, rfl, fun h => absurd h hp, hwarn, fun sp a => by simp⟩

/-! ### The mask-derivation law (R169) -/

/-- Clause (d), at ROM 0: no two select lines are at one position. -/
theorem selectPositions_nodup {pm : PinMap} {set : RomSet} (h : pinMapOK pm set = true) (hcount : 1 ≤ set.romCount) :
    (selectPositions pm set).Nodup := by
  simp only [pinMapOK, pinsClauseD, Bool.and_eq_true, List.all_eq_true] at h
  obtain ⟨⟨_, hclauseD⟩, _⟩ := h
  have hnodup := (allDistinct_iff_nodup _).mp (hclauseD 0 (List.mem_range.mpr hcount)).1
  exact (List.nodup_append.mp hnodup).2.1

theorem selectLine_eq_of_linePos_eq {ls : List SelectLine} (h : (ls.map fun l => linePos l.line).Nodup)
    {l l' : SelectLine} (hl : l ∈ ls) (hl' : l' ∈ ls) (hpos : linePos l.line = linePos l'.line) : l = l' := by
  induction ls with
  | nil => cases hl
  | cons x xs ih =>
    obtain ⟨hx, hxs⟩ := List.nodup_cons.mp h
    rcases List.mem_cons.mp hl with rfl | hmem <;> rcases List.mem_cons.mp hl' with rfl | hmem'
    · rfl
    · exact (hx (List.mem_map.mpr ⟨l', hmem', hpos.symm⟩)).elim
    · exact (hx (List.mem_map.mpr ⟨l, hmem, hpos⟩)).elim
    · exact ih hxs hmem hmem'

/-- At different positions the bit of `INV` at a line's position is that line's active level. -/
theorem invertMask_bit_of_nodup {pm : PinMap} {set : RomSet} (h : (selectPositions pm set).Nodup) {l : SelectLine}
    (hl : l ∈ selectLines pm set) : (invertMask pm set).getLsbD (linePos l.line) = l.pol.activeLevel := by
  have hlevel : l.pol.activeLevel = true ↔ l.pol = .activeHigh := by cases l.pol <;> simp [Polarity.activeLevel]
  rw [Bool.eq_iff_iff, invertMask_bit_iff pm set (linePos_lt _), hlevel]
  constructor
  · rintro ⟨l', hl', hpos, hpol⟩
    exact selectLine_eq_of_linePos_eq h hl' hl hpos ▸ hpol
  · exact fun hpol => ⟨l, hl, rfl, hpol⟩

/-- R169: `(RAW ^ INV) & CHK` is 0 at an asserted select line and 1 at another. -/
theorem effective_bit_of_nodup {pm : PinMap} {set : RomSet} (h : (selectPositions pm set).Nodup) (raw : Word)
    {l : SelectLine} (hl : l ∈ selectLines pm set) :
    (effective raw (invertMask pm set) (checkMask pm set)).getLsbD (linePos l.line) = !l.asserted raw.toNat := by
  rw [effective, BitVec.getLsbD_and, BitVec.getLsbD_xor, invertMask_bit_of_nodup h hl,
    checkMask_bit_of_mem hl, Bool.and_true, SelectLine.asserted, BitVec.testBit_toNat]
  cases raw.getLsbD (linePos l.line) <;> cases l.pol.activeLevel <;> rfl

/-- Two words without a bit outside `CHK` are equal when they agree at every select line. -/
theorem eq_of_agree_at_selectLines {pm : PinMap} {set : RomSet} {v w : Word} (hv : v &&& checkMask pm set = v)
    (hw : w &&& checkMask pm set = w)
    (h : ∀ l ∈ selectLines pm set, v.getLsbD (linePos l.line) = w.getLsbD (linePos l.line)) : v = w := by
  rw [← hv, ← hw]
  apply BitVec.eq_of_getLsbD_eq
  intro p hp
  rw [BitVec.getLsbD_and, BitVec.getLsbD_and]
  cases hchk : (checkMask pm set).getLsbD p with
  | false => simp
  | true =>
    obtain ⟨l, hl, rfl⟩ := (checkMask_bit_iff pm set hp).mp hchk
    rw [h l hl]

theorem effective_and_chk (raw inv chk : Word) : effective raw inv chk &&& chk = effective raw inv chk := by
  rw [effective, BitVec.and_assoc, BitVec.and_self]

theorem zero_bit (p : Nat) : (0 : Word).getLsbD p = false := BitVec.getLsbD_zero

/-- TALL finds a sample active exactly when it asserts every select line. -/
theorem allActive_effective_iff {pm : PinMap} {set : RomSet} (h : (selectPositions pm set).Nodup) (raw : Word) :
    allActive (effective raw (invertMask pm set) (checkMask pm set)) = true
      ↔ ∀ l ∈ selectLines pm set, l.asserted raw.toNat = true := by
  rw [allActive, beq_iff_eq]
  constructor
  · intro heff l hl
    have hbit := effective_bit_of_nodup h raw hl
    rw [heff, zero_bit, eq_comm, Bool.not_eq_false'] at hbit
    exact hbit
  · intro hall
    refine eq_of_agree_at_selectLines (effective_and_chk _ _ _) BitVec.zero_and fun l hl => ?_
    rw [effective_bit_of_nodup h raw hl, hall l hl, zero_bit, Bool.not_true]

theorem effective_eq_checkMask_iff {pm : PinMap} {set : RomSet} (h : (selectPositions pm set).Nodup) (raw : Word) :
    effective raw (invertMask pm set) (checkMask pm set) = checkMask pm set
      ↔ ∀ l ∈ selectLines pm set, ¬ l.asserted raw.toNat = true := by
  constructor
  · intro heff l hl
    have hbit := effective_bit_of_nodup h raw hl
    rw [heff, checkMask_bit_of_mem hl, eq_comm, Bool.not_eq_true'] at hbit
    exact Bool.not_eq_true _ ▸ hbit
  · intro hnone
    refine eq_of_agree_at_selectLines (effective_and_chk _ _ _) BitVec.and_self fun l hl => ?_
    rw [effective_bit_of_nodup h raw hl, checkMask_bit_of_mem hl, Bool.not_eq_true', ← Bool.not_eq_true]
    exact hnone l hl

/-- TANY finds a sample active exactly when it asserts a select line. -/
theorem anyActive_effective_iff {pm : PinMap} {set : RomSet} (h : (selectPositions pm set).Nodup) (raw : Word) :
    anyActive (effective raw (invertMask pm set) (checkMask pm set)) (checkMask pm set) = true
      ↔ ∃ l ∈ selectLines pm set, l.asserted raw.toNat = true := by
  rw [anyActive, bne_iff_ne, Ne, effective_eq_checkMask_iff h raw]
  simp only [Classical.not_forall, Classical.not_not, exists_prop]

/-- Settles O53: the bit law line by line, and with it the two tests. -/
theorem masksNormaliseThePolarities : Obligations.MasksNormaliseThePolarities := by
  unfold Obligations.MasksNormaliseThePolarities
  intro pm set raw hp hcount
  have hnodup := selectPositions_nodup hp hcount
  refine ⟨fun l hl => ?_, fun _ => allActive_effective_iff hnodup raw, fun _ => anyActive_effective_iff hnodup raw⟩
  rw [effective_bit_of_nodup hnodup raw hl, Bool.not_eq_false']

end Sys2Proof.Machine
end

section
/-! The input sampler and the tests (O10 to O14). `EFF` has a 0 bit where a checked line is at its active level, so each
test says something of the single lines: TALL that all of `CHK` are active, TANY that one is. The laws of R184 follow
from these two readings alone. -/

namespace Sys2Proof.Machine

/-! ### The tests, line by line (R181, R182) -/

/-- A bit of `EFF` is set at a line of `CHK` whose sample is not at its active level. -/
theorem effective_bit (raw inv chk : Word) (i : Nat) :
    (effective raw inv chk).getLsbD i = ((raw.getLsbD i ^^ inv.getLsbD i) && chk.getLsbD i) := by
  rw [effective, BitVec.getLsbD_and, BitVec.getLsbD_xor]

theorem allActive_iff_all_lines (raw inv chk : Word) : allActive (effective raw inv chk) = true
    ↔ ∀ i < 32, chk.getLsbD i = true → raw.getLsbD i = inv.getLsbD i := by
  rw [allActive, beq_iff_eq]
  constructor
  · intro heff i _ hchk
    have hbit := effective_bit raw inv chk i
    rw [heff, zero_bit, hchk, Bool.and_true] at hbit
    exact bne_eq_false_iff_eq.mp hbit.symm
  · intro hall
    apply BitVec.eq_of_getLsbD_eq
    intro i hi
    rw [effective_bit, zero_bit]
    cases hchk : chk.getLsbD i with
    | false => exact Bool.and_false _
    | true => rw [hall i hi hchk, Bool.xor_self, Bool.false_and]

/-- `EFF` is `CHK` where no line of it is at its active level. -/
theorem effective_eq_chk_iff_no_line (raw inv chk : Word) : effective raw inv chk = chk
    ↔ ∀ i < 32, chk.getLsbD i = true → raw.getLsbD i ≠ inv.getLsbD i := by
  constructor
  · intro heff i _ hchk
    have hbit := effective_bit raw inv chk i
    rw [heff, hchk, Bool.and_true] at hbit
    exact bne_iff_ne.mp hbit.symm
  · intro hnone
    apply BitVec.eq_of_getLsbD_eq
    intro i hi
    rw [effective_bit]
    cases hchk : chk.getLsbD i with
    | false => exact Bool.and_false _
    | true =>
      rw [Bool.and_true]
      exact bne_iff_ne.mpr (hnone i hi hchk)

theorem anyActive_iff_any_line (raw inv chk : Word) : anyActive (effective raw inv chk) chk = true
    ↔ ∃ i < 32, chk.getLsbD i = true ∧ raw.getLsbD i = inv.getLsbD i := by
  rw [anyActive, bne_iff_ne, Ne, effective_eq_chk_iff_no_line]
  simp only [Ne, Classical.not_forall, Classical.not_not, exists_prop]

/-! ### What the two tests have to do with each other (R184) -/

theorem exists_bit_of_ne_zero {w : Word} (h : w ≠ 0) : ∃ i < 32, w.getLsbD i = true := by
  obtain ⟨i, hbit⟩ := Classical.not_forall.mp (mt BitVec.zero_iff_eq_false.mpr h)
  rw [Bool.not_eq_false] at hbit
  exact ⟨i, BitVec.lt_of_getLsbD hbit, hbit⟩

/-- Where `CHK` has a line, all lines active make one active. -/
theorem anyActive_of_allActive {raw inv chk : Word} (hchk : chk ≠ 0)
    (h : allActive (effective raw inv chk) = true) : anyActive (effective raw inv chk) chk = true := by
  obtain ⟨p, hp, hbit⟩ := exists_bit_of_ne_zero hchk
  exact (anyActive_iff_any_line ..).mpr ⟨p, hp, hbit, (allActive_iff_all_lines ..).mp h p hp hbit⟩

/-- Where `CHK` is one line, one active line is all of them. -/
theorem allActive_eq_anyActive_of_bitWord (raw inv : Word) {p : Nat} (hp : p < 32) :
    allActive (effective raw inv (bitWord p)) = anyActive (effective raw inv (bitWord p)) (bitWord p) := by
  have hline {i : Nat} (hi : i < 32) : (bitWord p).getLsbD i = true ↔ p = i := by
    rw [bitWord_bit p i hi, decide_eq_true_iff]
  rw [Bool.eq_iff_iff, allActive_iff_all_lines, anyActive_iff_any_line]
  constructor
  · intro hall
    exact ⟨p, hp, (hline hp).mpr rfl, hall p hp ((hline hp).mpr rfl)⟩
  · rintro ⟨i, hi, hbit, hactive⟩ j hj hbit'
    obtain rfl := (hline hi).mp hbit
    obtain rfl := (hline hj).mp hbit'
    exact hactive

/-- The sample with every line at its active level but the one at `q`. -/
def allButLine (inv : Word) (q : Nat) : Word := inv ^^^ bitWord q

theorem allButLine_bit_eq_iff (inv : Word) (q : Nat) {i : Nat} (hi : i < 32) :
    (allButLine inv q).getLsbD i = inv.getLsbD i ↔ q ≠ i := by
  rw [allButLine, BitVec.getLsbD_xor, bitWord_bit q i hi]
  by_cases h : q = i
  · simp only [h, decide_true, Bool.xor_true, Bool.not_eq_self, ne_eq, not_true_eq_false]
  · simp only [h, decide_false, Bool.xor_false, ne_eq, not_false_eq_true]

/-- Settles O14: each part through the two readings of the tests; two lines are told apart by the sample in which one
of them alone is inactive. -/
theorem tallActiveImpliesTanyActive : Obligations.TallActiveImpliesTanyActive := by
  unfold Obligations.TallActiveImpliesTanyActive
  intro inv chk
  refine ⟨fun hchk raw h => anyActive_of_allActive hchk h, ?_, fun p q hp hq hpq hbitp hbitq => ?_⟩
  · rintro p hp rfl raw
    exact allActive_eq_anyActive_of_bitWord raw inv hp
  · refine ⟨allButLine inv q, ?_, ?_⟩
    · exact (anyActive_iff_any_line ..).mpr ⟨p, hp, hbitp, (allButLine_bit_eq_iff inv q hp).mpr hpq.symm⟩
    · refine Bool.eq_false_iff.mpr fun hall => ?_
      exact (allButLine_bit_eq_iff inv q hq).mp ((allActive_iff_all_lines ..).mp hall q hq hbitq) rfl

/-! ### What the four micro-operations answer -/

theorem exec_smp (s : State) : exec .smp s = .next (s.afterReadIn.writeRaw s.inputNow).advance := rfl

section
variable {s : State} {raw inv chk : Word} (hraw : s.raw = .holds raw)
include hraw

theorem exec_lat_of_holds : exec .lat s = .next (s.writePrev raw).advance := by
  rw [exec, execLat, hraw, readLatch_holds]

theorem exec_tall_of_holds (hinv : s.inv = .holds inv) (hchk : s.chk = .holds chk) :
    exec .tall s = .next (s.writeTest (effective raw inv chk) (allActive (effective raw inv chk))).advance := by
  rw [exec, execTall, hraw, hinv, hchk, readLatch_holds, readLatch_holds, readLatch_holds]

theorem exec_tany_of_holds (hinv : s.inv = .holds inv) (hchk : s.chk = .holds chk) :
    exec .tany s = .next (s.writeTest (effective raw inv chk) (anyActive (effective raw inv chk) chk)).advance := by
  rw [exec, execTany, hraw, hinv, hchk, readLatch_holds, readLatch_holds, readLatch_holds]

end

/-- R33: SMP reads the value that the bus host presents next, where that has no bit at `IN_W` and above. -/
theorem State.inputNow_of_samples {s : State} {v : Word} {rest : List Word} (h : s.samples = v :: rest)
    (hv : v.toNat < 2 ^ s.cfg.inW) : s.inputNow = v := by
  rw [State.inputNow, h, List.headD_cons, Nat.mod_eq_of_lt hv, BitVec.ofNat_toNat, BitVec.setWidth_eq]

/-- Settles O10. -/
theorem smpSamplesTheWholeInputRegister : Obligations.SmpSamplesTheWholeInputRegister := by
  unfold Obligations.SmpSamplesTheWholeInputRegister
  intro s
  refine ⟨_, exec_smp s, rfl, s.inputNow_lt, fun v rest h hv => State.inputNow_of_samples h hv, fun sp a => ?_⟩
  rw [State.advance_memRead, State.writeRaw_memRead, State.afterReadIn_memRead]

/-- Settles O11: `ACT` is the test itself, read line by line. -/
theorem tallFindsAllLinesActive : Obligations.TallFindsAllLinesActive := by
  unfold Obligations.TallFindsAllLinesActive
  intro s raw inv chk hraw hinv hchk
  refine ⟨_, exec_tall_of_holds hraw hinv hchk, rfl, rfl, allActive_iff_all_lines raw inv chk, beq_iff_eq,
    fun sp a => ?_⟩
  rw [State.advance_memRead, State.writeTest_memRead]

/-- Settles O12: `ACT` is the test itself, read line by line. -/
theorem tanyFindsAnyLineActive : Obligations.TanyFindsAnyLineActive := by
  unfold Obligations.TanyFindsAnyLineActive
  intro s raw inv chk hraw hinv hchk
  refine ⟨_, exec_tany_of_holds hraw hinv hchk, rfl, rfl, anyActive_iff_any_line raw inv chk, bne_iff_ne,
    fun sp a => ?_⟩
  rw [State.advance_memRead, State.writeTest_memRead]

/-- Settles O13. -/
theorem latRemembersTheSample : Obligations.LatRemembersTheSample := by
  unfold Obligations.LatRemembersTheSample
  intro s raw hraw
  refine ⟨_, exec_lat_of_holds hraw, rfl, fun sp a => ?_⟩
  rw [State.advance_memRead, State.writePrev_memRead]

end Sys2Proof.Machine
end

section
/-! Lookup and drive (O15 to O20). What each of the five micro-operations answers, what the data pins show of `ODR` and
`DIR` (R36), and when four bytes read as a word (R66), from which the counter follows (R194). -/

namespace Sys2Proof.Machine

/-! ### What the five micro-operations answer -/

/-- R190, R262: at or above `TLEN` LKP raises the model fault before `TBL` is read. -/
theorem exec_lkp_of_ge {s : State} {raw tlen : Word} (hraw : s.raw = .holds raw) (htlen : s.tlen = .holds tlen)
    (h : tlen ≤ raw) : exec .lkp s = .next (s.raised (.indexOutOfRange raw)) := by
  rw [exec, execLkp, hraw, readLatch_holds, htlen, readLatch_holds, if_pos h, raise]

theorem exec_drv_of_holds {s : State} {dat : Word} (h : s.dat = .holds dat) :
    exec .drv s = .next (s.writeOdr (dat.extractLsb' 0 8)).advance := by
  rw [exec, execDrv, h, readLatch_holds]

theorem exec_oen (s : State) : exec .oen s = .next (s.writeDir 0xFF).advance := rfl

theorem exec_ods (s : State) : exec .ods s = .next (s.writeDir 0x00).advance := rfl

theorem exec_cnt (s : State) : exec .cnt s = .next (if s.cfg.countEn then s.countOne else s).advance := rfl

/-! ### The lookup (R190) -/

/-- Settles O15: the byte is the one LKP finds, which under `PinMapOK` is the table's. -/
theorem lkpReadsTheTableAtTheRawSample : Obligations.LkpReadsTheTableAtTheRawSample := by
  unfold Obligations.LkpReadsTheTableAtTheRawSample
  intro s raw tlen tbl hraw htlen htbl hlt
  refine ⟨_, servedByte s tbl raw, exec_lkp_of_lt hraw htbl htlen (BitVec.lt_def.mpr hlt), rfl,
    fun hpm => servedByte_ok hpm tbl raw, fun sp a => ?_⟩
  rw [State.advance_memRead, State.writeDat_memRead]

/-- Settles O16. -/
theorem lkpOutsideTheTableRaises : Obligations.LkpOutsideTheTableRaises := by
  unfold Obligations.LkpOutsideTheTableRaises
  intro s raw tlen hraw htlen hle
  exact ⟨_, exec_lkp_of_ge hraw htlen (BitVec.le_def.mpr hle), rfl, s.raised_memRead _⟩

/-! ### The data pins (R36, R191 to R193) -/

theorem State.pinByte_of_written {s : State} (h : s.odr.written = true) (obs : Nat) : s.pinByte obs = s.odr.value :=
  if_pos h

theorem State.pin_of_all_outputs {s : State} (h : s.dir = 0xFF) (obs : Nat) (q : Fin 8) :
    s.pin obs q = .driven ((s.pinByte obs).getLsbD q.val) := by
  have hbit : (0xFF : Byte).getLsbD q.val = true := by
    revert q
    decide
  rw [State.pin, h, if_pos hbit]

theorem State.pin_of_all_inputs {s : State} (h : s.dir = 0x00) (obs : Nat) (q : Fin 8) : s.pin obs q = .z := by
  have hbit : (0x00 : Byte).getLsbD q.val = false := BitVec.getLsbD_zero
  rw [State.pin, h, hbit, if_neg Bool.false_ne_true]

/-- The low byte of a word has the word's own bits. -/
theorem lowByte_bit (w : Word) (q : Fin 8) : (w.extractLsb' 0 8).getLsbD q.val = w.getLsbD q.val := by
  rw [BitVec.getLsbD_extractLsb', decide_eq_true q.isLt, Bool.true_and, Nat.zero_add]

/-- Settles O17: `ODR` holds the byte and `DIR` is as before, so an output pin shows its bit of `DAT`. -/
theorem drvStoresTheByte : Obligations.DrvStoresTheByte := by
  unfold Obligations.DrvStoresTheByte
  intro s dat hdat
  refine ⟨_, exec_drv_of_holds hdat, rfl, fun obs q => ?_, fun sp a => ?_⟩
  · rw [State.pin, State.pinByte_of_written rfl, State.advance_odr, State.writeOdr_odr, Latch.holds_value, lowByte_bit,
      State.advance_dir, State.writeOdr_dir]
  · rw [State.advance_memRead, State.writeOdr_memRead]

/-- Settles O18: a pin's level is its bit of the byte observed, which is `ODR` where that holds a value. -/
theorem oenEnablesAllDataPins : Obligations.OenEnablesAllDataPins := by
  unfold Obligations.OenEnablesAllDataPins
  intro s
  refine ⟨_, exec_oen s, rfl, fun obs q => ⟨_, State.pin_of_all_outputs rfl obs q, fun hodr => ?_⟩,
    fun sp a => ?_⟩
  · rw [State.pinByte_of_written (s := (s.writeDir 0xFF).advance) hodr, State.advance_odr, State.writeDir_odr]
  · rw [State.advance_memRead, State.writeDir_memRead]

/-- Settles O19. -/
theorem odsReleasesAllDataPins : Obligations.OdsReleasesAllDataPins := by
  unfold Obligations.OdsReleasesAllDataPins
  intro s
  refine ⟨_, exec_ods s, rfl, State.pin_of_all_inputs rfl, fun sp a => ?_⟩
  rw [State.advance_memRead, State.writeDir_memRead]

/-! ### The access counter (R194) -/

/-- Little-endian: a word reads as `v` where its four bytes are those of `v` (R66). -/
theorem State.memReadWord_eq {s : State} {space : Space} {a v : Word}
    (h : ∀ (i : Nat) (hi : i < (wordBytes v).length), s.memRead space (a + BitVec.ofNat 32 i) = (wordBytes v)[i]) :
    s.memReadWord space a = v := by
  have h0 : s.memRead space a = v.extractLsb' 0 8 := by simpa [wordBytes] using h 0 (by simp)
  have h1 : s.memRead space (a + 1) = v.extractLsb' 8 8 := h 1 (by simp)
  have h2 : s.memRead space (a + 2) = v.extractLsb' 16 8 := h 2 (by simp)
  have h3 : s.memRead space (a + 3) = v.extractLsb' 24 8 := h 3 (by simp)
  rw [State.memReadWord, h3, h2, h1, h0, wordBytes_join]

/-- What is read after CNT is what its store left: the trace and `upc` are no memory. -/
theorem State.countOne_advance_memRead (s : State) (sp : Space) (a : Word) :
    s.countOne.advance.memRead sp a
      = (s.memWrite .rti (countAddress s.cfg) (wordBytes (s.accessCount + 1))).memRead sp a := by
  rw [State.advance_memRead, State.countOne, State.note_memRead]

/-- R194: one more, modulo 2^32. -/
theorem State.countOne_advance_accessCount (s : State) : s.countOne.advance.accessCount = s.accessCount + 1 :=
  State.memReadWord_eq fun i hi => (s.countOne_advance_memRead .rti _).trans
    (s.memWrite_run (by decide) _ _ (by rw [wordBytes_length]; decide) i hi)

/-- CNT writes the four bytes of the counter and no other. -/
theorem State.countOne_advance_sameBytesBut (s : State) :
    SameBytesBut .rti (countAddress s.cfg) 4 s s.countOne.advance := fun sp a h =>
  (s.countOne_advance_memRead sp a).trans (s.memWrite_other .rti _ _ sp a h)

/-- Settles O20, by whether `COUNT_EN` holds. -/
theorem cntCountsOneAccess : Obligations.CntCountsOneAccess := by
  unfold Obligations.CntCountsOneAccess
  intro s
  refine ⟨_, exec_cnt s, fun hen => ?_, fun hen => ?_⟩
  · rw [if_pos hen]
    exact ⟨rfl, s.countOne_advance_accessCount, fun _ _ => rfl, s.countOne_advance_sameBytesBut⟩
  · rw [hen, if_neg Bool.false_ne_true]
    exact ⟨rfl, s.advance_memRead⟩

end Sys2Proof.Machine
end

section
/-! The control transfers (O21 to O24) and the step around a micro-operation (O4, O8). JMP always jumps; BA, BI and BS
are one branch, each with its own condition (R202 to R204). -/

namespace Sys2Proof.Machine

/-! ### The four transfers (R201 to R204) -/

theorem exec_jmp (tgt : UAddr) (s : State) : exec (.jmp tgt) s = .next (s.jump tgt) := rfl

theorem exec_ba_of_holds {s : State} {act : Bool} (hact : s.act = .holds act) (tgt : UAddr) :
    exec (.ba tgt) s = .next (s.branch act tgt) := by
  rw [exec, execBa, hact, readLatch_holds]

theorem exec_bi_of_holds {s : State} {act : Bool} (hact : s.act = .holds act) (tgt : UAddr) :
    exec (.bi tgt) s = .next (s.branch (!act) tgt) := by
  rw [exec, execBi, hact, readLatch_holds]

theorem exec_bs_of_holds {s : State} {raw prev : Word} (hraw : s.raw = .holds raw) (hprev : s.prev = .holds prev)
    (tgt : UAddr) : exec (.bs tgt) s = .next (s.branch (raw == prev) tgt) := by
  rw [exec, execBs, hraw, hprev, readLatch_holds, readLatch_holds]

/-- A branch writes `upc` alone: the target where its condition `p` holds, else the next address. -/
theorem State.branch_eq_of_iff (s : State) {taken : Bool} {p : Prop} [Decidable p] (hp : taken = true ↔ p)
    (tgt : UAddr) : s.branch taken tgt = { s with upc := if p then tgt else s.upc + 1 } := by
  by_cases h : p
  · rw [State.branch, if_pos (hp.mpr h), if_pos h, State.jump]
  · rw [State.branch, if_neg (mt hp.mp h), if_neg h, State.advance]

/-- Settles O21. -/
theorem jmpSetsTheMicroProgramCounter : Obligations.JmpSetsTheMicroProgramCounter := by
  unfold Obligations.JmpSetsTheMicroProgramCounter
  intro s tgt
  exact ⟨_, exec_jmp tgt s, rfl, s.jump_memRead tgt⟩

/-- Settles O22: the condition is `ACT` itself. -/
theorem baBranchesWhenActive : Obligations.BaBranchesWhenActive := by
  unfold Obligations.BaBranchesWhenActive
  intro s tgt act hact
  exact ⟨_, exec_ba_of_holds hact tgt, s.branch_eq_of_iff Iff.rfl tgt, s.branch_memRead act tgt⟩

/-- Settles O23: the condition is that `ACT` is false. -/
theorem biBranchesWhenInactive : Obligations.BiBranchesWhenInactive := by
  unfold Obligations.BiBranchesWhenInactive
  intro s tgt act hact
  exact ⟨_, exec_bi_of_holds hact tgt, s.branch_eq_of_iff (Bool.not_eq_true' act ▸ Iff.rfl) tgt,
    s.branch_memRead (!act) tgt⟩

/-- Settles O24: the condition is that the two words are equal. -/
theorem bsBranchesWhenTheSampleIsTheSame : Obligations.BsBranchesWhenTheSampleIsTheSame := by
  unfold Obligations.BsBranchesWhenTheSampleIsTheSame
  intro s tgt raw prev hraw hprev
  exact ⟨_, exec_bs_of_holds hraw hprev tgt, s.branch_eq_of_iff beq_iff_eq tgt, s.branch_memRead (raw == prev) tgt⟩

/-! ### One step (R200) -/

/-- Settles O4: `BOOT` and `SERVE` are the running states. -/
theorem stepRunsTheDecodedMicroOperation : Obligations.StepRunsTheDecodedMicroOperation := by
  unfold Obligations.StepRunsTheDecodedMicroOperation
  intro s i ha hv hrun hd _
  exact step_of_running ha hv (RunState.running_iff.mpr hrun) hd

/-- R200: with no reset, a step in a stopped run state is the passing of time. -/
theorem step_of_stopped {s : State} (ha : s.accepted) (hv : s.resetNow = none) (hr : s.rs.running = false) :
    step s = s.stopped := by
  rw [step, show configDefect s.cfg s.store s.strap = none from ha, hv, hr]
  rfl

/-- Settles O8, by whether the environment has a tick. -/
theorem stoppedSequencerHasNoStep : Obligations.StoppedSequencerHasNoStep := by
  unfold Obligations.StoppedSequencerHasNoStep
  intro s ha hstop
  have hr : s.rs.running = false := by rcases hstop with h | h <;> rw [h] <;> rfl
  refine ⟨fun hticks => ?_, fun rest hticks => ?_⟩
  · rw [step_of_stopped ha (by rw [State.resetNow, hticks]) hr, State.stopped, hticks, List.isEmpty_nil, if_pos rfl]
  · rw [step_of_stopped ha (by rw [State.resetNow, hticks]) hr, State.stopped, hticks, List.isEmpty_cons,
      if_neg Bool.false_ne_true, State.tickPassed, hticks, List.tail_cons]

end Sys2Proof.Machine
end

section
/-! The serve loop in steps (O49, O56 to O60). A step of the serve loop is one micro-operation of the listing of `MODE`:
it keeps the boot program's results, and control goes to the next offset or to the target of its jump. Runs are put
together from such steps. All three programs sample by the same three micro-operations, a poll (SMP, the mode's test,
a branch on `ACT`); between polls they release the pins, drive them, or look up and store. -/

namespace Sys2Proof.Machine

/-! ### What the serve loop keeps (R210 (d), (e)) -/

/-- R262: a model fault writes nothing but the run state and the record. -/
theorem SameSetup.raised (s : State) (f : FaultRecord) : SameSetup s (s.raised f) :=
  ⟨rfl, rfl, rfl, rfl, rfl, rfl, rfl, rfl, rfl, rfl, rfl, s.raised_memRead f _⟩

/-- Where control goes from the micro-operation fetched in the serve loop. -/
theorem RunInv.serve_move {s : State} (h : RunInv s) (hrs : s.rs = .serve) {i : Instr}
    (hd : decode s.fetched = .ok i) :
    ServeMove s.mode.value s.offset i (s.jumps i) (nextOffset s.mode.value s.offset i (s.jumps i)) := by
  have hpc := (h.serve hrs).pc
  obtain rfl := Except.ok.inj ((decode_fetched_serve h.rom hpc).symm.trans hd)
  exact serveListing_move s.mode.value ⟨s.offset, hpc⟩ _ (s.jumps_mem_choices _)

theorem Effect.rs_of_loop {i : Instr} {s t : State} (he : Effect s i t)
    (hi : i ∉ [.bchk, .strap, .sset, .rmp, .pld, .pck, .rpr, .msk, .rti, .ent]) : t.rs = s.rs := by
  rcases he.rs with hkeep | ⟨rfl, _⟩ | ⟨rfl, _⟩
  · exact hkeep
  · exact absurd (by decide) hi
  · exact absurd (by decide) hi

/-- Settles O49: a micro-operation of the serve loop is none of the boot program's, and a model fault writes nothing. -/
theorem servingChangesNoConfiguration : Obligations.ServingChangesNoConfiguration := by
  unfold Obligations.ServingChangesNoConfiguration
  intro s t h hrs hv hstep
  have ⟨k, hrun⟩ : SameSetup s.tickPassed t ∧ (t.rs = .serve ∨ t.rs = .faulted) := by
    obtain ⟨_, ⟨_, hreset, _⟩ | ⟨_, _, ⟨i, hd, hx⟩ | ⟨_, rfl⟩⟩ | ⟨_, hstopped, _⟩⟩ := step_next hstep
    · cases hv.symm.trans hreset
    · have hloop := (h.serve_move hrs hd).loop
      rcases exec_next hx with he | ⟨f, _, rfl⟩
      · exact ⟨he.sameSetup hloop, .inl ((he.rs_of_loop hloop).trans hrs)⟩
      · exact ⟨.raised .., .inr rfl⟩
    · exact ⟨.raised .., .inr rfl⟩
    · rw [hrs] at hstopped
      cases hstopped
  exact ⟨k.chk, k.inv, k.tbl, k.tlen, k.mode, k.set, k.sel, fun a => by rw [k.cfg]; exact k.table a, hrun⟩

theorem SameSetup.refl (s : State) : SameSetup s s :=
  ⟨rfl, rfl, rfl, rfl, rfl, rfl, rfl, rfl, rfl, rfl, rfl, fun _ => rfl⟩

theorem SameSetup.trans {s t u : State} (h : SameSetup s t) (k : SameSetup t u) : SameSetup s u where
  cfg := k.cfg.trans h.cfg
  store := k.store.trans h.store
  strap := k.strap.trans h.strap
  boots := k.boots.trans h.boots
  sel := k.sel.trans h.sel
  set := k.set.trans h.set
  tlen := k.tlen.trans h.tlen
  tbl := k.tbl.trans h.tbl
  mode := k.mode.trans h.mode
  chk := k.chk.trans h.chk
  inv := k.inv.trans h.inv
  table a := (h.cfg ▸ k.table a).trans (h.table a)

theorem SameSetup.tickPassed (s : State) : SameSetup s s.tickPassed :=
  ⟨rfl, rfl, rfl, rfl, rfl, rfl, rfl, rfl, rfl, rfl, rfl, fun _ => rfl⟩

/-! ### Runs -/

theorem State.leadsTo_succ_iff {s u : State} {k : Nat} :
    s.leadsTo (k + 1) u ↔ ∃ t, step s = .next t ∧ t.leadsTo k u := by
  simp only [State.leadsTo, Host.Core.run, show Sys2Proof.core.step s = step s from rfl]
  cases step s with
  | next t => exact ⟨fun h => ⟨t, rfl, h⟩, fun ⟨_, ht, h⟩ => by cases ht; exact h⟩
  | fault r => exact ⟨fun h => (by cases h), fun ⟨_, ht, _⟩ => (by cases ht)⟩
  | refused r => exact ⟨fun h => (by cases h), fun ⟨_, ht, _⟩ => (by cases ht)⟩

theorem State.leadsTo.add {s t u : State} {j k : Nat} (h : s.leadsTo j t) (h' : t.leadsTo k u) :
    s.leadsTo (j + k) u := by
  induction j generalizing s with
  | zero =>
    cases h
    rwa [Nat.zero_add]
  | succ j ih =>
    obtain ⟨v, hstep, hrest⟩ := State.leadsTo_succ_iff.mp h
    rw [Nat.succ_add]
    exact State.leadsTo_succ_iff.mpr ⟨v, hstep, ih hrest⟩

theorem State.leadsTo.one {s t : State} (h : step s = .next t) : s.leadsTo 1 t :=
  State.leadsTo_succ_iff.mpr ⟨t, h, rfl⟩

/-- What the statements about the serve loop assume of a state: the loop runs and nothing disturbs it. -/
structure Serving (s : State) : Prop where
  inv : RunInv s
  accepted : s.accepted
  noReset : s.noReset
  rs : s.rs = .serve

/-- `k` undisturbed steps of the serve loop lead from `s` to `t`. -/
structure ServeRun (s : State) (k : Nat) (t : State) : Prop where
  steps : s.leadsTo k t
  serving : Serving t
  setup : SameSetup s t

theorem ServeRun.trans {s t u : State} {j k : Nat} (h : ServeRun s j t) (h' : ServeRun t k u) :
    ServeRun s (j + k) u :=
  ⟨h.steps.add h'.steps, h'.serving, h.setup.trans h'.setup⟩

theorem State.noReset.resetNow {s : State} (h : s.noReset) : s.resetNow = none := by
  unfold State.resetNow
  split
  · next v rest hticks => cases h (.reset v) (by simp [hticks])
  · rfl

theorem Effect.ticks {i : Instr} {s t : State} (h : Effect s i t) : t.ticks = s.ticks := by
  cases h <;> simp

/-- An undisturbed step of the serve loop has the effect of the micro-operation fetched, but where LKP finds the sample
at or above `TLEN`. -/
theorem Serving.step_effect {s : State} (h : Serving s) {i : Instr} (hd : decode s.fetched = .ok i)
    (hrange : i = .lkp → s.raw.value < s.tlen.value) : ∃ t, ServeRun s 1 t ∧ Effect s.tickPassed i t := by
  obtain ⟨hinv, ha, hquiet, hrs⟩ := h
  have hrunning : s.rs.running = true := RunState.running_iff.mpr (.inr hrs)
  obtain ⟨j, hj, hready⟩ := hinv.fetches_ready ha (.inr hrs)
  obtain rfl := Except.ok.inj (hj.symm.trans hd)
  obtain ⟨t, hx, hfault⟩ := hready.tickPassed.exec_answersNext (by rw [State.tickPassed_rs, hrs]; decide)
  have he : Effect s.tickPassed j t := (exec_next hx).resolve_right fun hraised => by
    obtain ⟨hlkp, hout, _⟩ := hfault hraised.rs
    exact BitVec.not_le.mpr (hrange hlkp) hout
  have hstep : step s = .next t := (step_of_running ha hquiet.resetNow hrunning hd).trans hx
  have hloop := (hinv.serve_move hrs hd).loop
  have k : SameSetup s t := (SameSetup.tickPassed s).trans (he.sameSetup hloop)
  refine ⟨t, ⟨.one hstep, ⟨stepKeepsTheProgramInvariant s t hinv hstep, ?_, ?_, ?_⟩, k⟩, he⟩
  · rw [State.accepted, k.cfg, k.store, k.strap]
    exact ha
  · intro x hx
    rw [he.ticks] at hx
    exact hquiet x (List.mem_of_mem_tail hx)
  · exact (he.rs_of_loop hloop).trans hrs

/-- The micro-operation at an offset of the listing is the one fetched there. -/
theorem decode_fetched_at {s : State} (hrom : s.urom = microcodeRom) {i : Instr}
    (hi : (serveListing s.mode.value)[s.offset]? = some i) : decode s.fetched = .ok i := by
  obtain ⟨hpc, hget⟩ := Vector.getElem?_eq_some_iff.mp hi
  rw [decode_fetched_serve hrom hpc, hget]

/-- The offset after one of the listing: the target's, or the next. -/
theorem nextOffset_eq {m : ServeMode} {o : Nat} (ho : o < 15) (i : Instr) (jumps : Bool) :
    nextOffset m o i jumps = if jumps then (i.operand - entryOf m).toNat else o + 1 := by
  cases jumps with
  | true => rfl
  | false =>
    have hadd : entryOf m + BitVec.ofNat 8 o + 1 - entryOf m = BitVec.ofNat 8 (o + 1) := by
      rw [BitVec.add_assoc, BitVec.add_comm, BitVec.add_sub_cancel, BitVec.ofNat_add]
      rfl
    rw [nextOffset, if_neg Bool.false_ne_true, if_neg Bool.false_ne_true, hadd, BitVec.toNat_ofNat]
    exact Nat.mod_eq_of_lt (by omega)

/-- One step at offset `o` of the listing of `m`, where `i` stands. -/
theorem Serving.step_at {s : State} (h : Serving s) {m : ServeMode} {o : Nat} {i : Instr} (hm : s.mode.value = m)
    (ho : s.offset = o) (hi : (serveListing m)[o]? = some i) (hrange : i = .lkp → s.raw.value < s.tlen.value) :
    ∃ t, ServeRun s 1 t ∧ Effect s.tickPassed i t
      ∧ t.offset = if s.jumps i then (i.operand - entryOf m).toNat else o + 1 := by
  subst hm ho
  have hd := decode_fetched_at h.inv.rom hi
  obtain ⟨t, hrun, he⟩ := h.step_effect hd hrange
  refine ⟨t, hrun, he, ?_⟩
  exact (he.offset (h.inv.serve_move h.rs hd).loop).trans (nextOffset_eq (h.inv.serve h.rs).pc i _)

/-- The same where `i` does not jump. -/
theorem Serving.step_on {s : State} (h : Serving s) {m : ServeMode} {o : Nat} {i : Instr} (hm : s.mode.value = m)
    (ho : s.offset = o) (hi : (serveListing m)[o]? = some i) (hjumps : s.jumps i = false)
    (hrange : i = .lkp → s.raw.value < s.tlen.value) :
    ∃ t, ServeRun s 1 t ∧ Effect s.tickPassed i t ∧ t.offset = o + 1 := by
  obtain ⟨t, hrun, he, hoff⟩ := h.step_at hm ho hi hrange
  rw [hjumps, if_neg Bool.false_ne_true] at hoff
  exact ⟨t, hrun, he, hoff⟩

theorem ServeRun.mode {s t : State} {k : Nat} (h : ServeRun s k t) : t.mode.value = s.mode.value :=
  congrArg Latch.value h.setup.mode

theorem ServeRun.upc_eq {s t : State} {k : Nat} (h : ServeRun s k t) (ho : t.offset = s.offset) : t.upc = s.upc := by
  rw [upc_eq_entry_add_offset t, h.setup.mode, ho, ← upc_eq_entry_add_offset]

/-! ### The poll (R208, R209, R212, R214 to R216) -/

/-- The offsets of the SMPs. -/
def pollOffsets (m : ServeMode) : List Nat := if m = .twoCheck then [0x0, 0x6, 0xA] else [0x0, 0x8]

/-- The branch on `ACT` that ends the poll at offset `o`: in IDLE back to the entry, in SERVING to the release, and at
program A's last SMP on to the next lookup. -/
def pollBranch (m : ServeMode) (o : Nat) : Instr :=
  if o = 0xA then .ba (entryOf m + 0x5) else .bi (entryOf m + if o = 0x0 then 0x0 else 0xD)

/-- Where the poll at offset `o` leads, by whether its sample is active. -/
def afterPoll (o : Nat) (active : Bool) : Nat :=
  if active then (if o = 0xA then 0x5 else o + 3) else if o = 0x0 then 0x0 else 0xD

theorem serveListing_poll (m : ServeMode) : ∀ o ∈ pollOffsets m, (serveListing m)[o]? = some .smp
    ∧ (serveListing m)[o + 1]? = some (testOf m) ∧ (serveListing m)[o + 2]? = some (pollBranch m o) := by
  cases m <;> decide

theorem entryOf_add_sub (m : ServeMode) (a : UAddr) : entryOf m + a - entryOf m = a := by
  rw [BitVec.add_comm, BitVec.add_sub_cancel]

/-- The branch of a poll leads where `afterPoll` says. -/
theorem offset_of_pollBranch (s : State) (m : ServeMode) (o : Nat) :
    (if s.jumps (pollBranch m o) then ((pollBranch m o).operand - entryOf m).toNat else o + 2 + 1)
      = afterPoll o s.act.value := by
  by_cases hlast : o = 0xA
  · subst hlast
    rw [show pollBranch m 0xA = .ba (entryOf m + 0x5) from rfl, State.jumps, Instr.operand, entryOf_add_sub]
    cases s.act.value <;> rfl
  · rw [show pollBranch m o = .bi (entryOf m + if o = 0x0 then 0x0 else 0xD) from if_neg hlast, State.jumps,
      Instr.operand, entryOf_add_sub, afterPoll, if_neg hlast]
    cases s.act.value with
    | true => rfl
    | false =>
      by_cases hidle : o = 0x0
      · rw [if_pos hidle, if_pos hidle]
        rfl
      · rw [if_neg hidle, if_neg hidle]
        rfl

theorem testOf_jumps (s : State) (m : ServeMode) : s.jumps (testOf m) = false := by cases m <;> rfl

/-- The test writes `EFF`, and in `ACT` whether the last sample is active (R181, R182). -/
theorem Effect.eq_of_test {s t : State} (he : Effect s (testOf s.mode.value) t) :
    ∃ e, t = (s.writeTest e (s.activeSample s.raw.value)).advance := by
  unfold State.activeSample
  cases hm : s.mode.value <;> rw [hm] at he <;> cases he <;> exact ⟨_, rfl⟩

/-- The branch of a poll writes `upc` alone (R202, R203). -/
theorem Effect.eq_of_pollBranch {s t : State} {m : ServeMode} {o : Nat} (he : Effect s (pollBranch m o) t) :
    ∃ taken tgt, t = s.branch taken tgt := by
  unfold pollBranch at he
  split at he <;> cases he <;> exact ⟨_, _, rfl⟩

/-- What a poll does to the registers and the pins: `RAW` holds the sample, and the read is its only access. -/
structure Polled (s t : State) : Prop where
  raw : t.raw = .holds s.inputNow
  dat : t.dat = s.dat
  prev : t.prev = s.prev
  odr : t.odr = s.odr
  dir : t.dir = s.dir
  trace : t.trace = .readIn s.inputNow :: s.trace

@[simp] theorem State.tickPassed_inputNow (s : State) : s.tickPassed.inputNow = s.inputNow := rfl

/-- Three steps: SMP, the test, the branch. -/
theorem Serving.poll {s : State} (h : Serving s) (ho : s.offset ∈ pollOffsets s.mode.value) :
    ∃ t, ServeRun s 3 t ∧ Polled s t ∧ t.offset = afterPoll s.offset (s.activeSample s.inputNow) := by
  obtain ⟨hsmp, htest, hbranch⟩ := serveListing_poll _ _ ho
  obtain ⟨a, hrunA, heA, hoffA⟩ := h.step_on rfl rfl hsmp rfl nofun
  obtain ⟨b, hrunB, heB, hoffB⟩ := hrunA.serving.step_on hrunA.mode hoffA htest (testOf_jumps ..)
    (by cases s.mode.value <;> nofun)
  obtain ⟨c, hrunC, heC, hoffC⟩ := hrunB.serving.step_at (hrunB.mode.trans hrunA.mode) hoffB hbranch
    (by unfold pollBranch; split <;> nofun)
  refine ⟨c, (hrunA.trans hrunB).trans hrunC, ?_⟩
  rw [hoffC, offset_of_pollBranch]
  rw [← hrunA.setup.mode] at heB
  cases heA
  obtain ⟨_, rfl⟩ := Effect.eq_of_test heB
  obtain ⟨_, _, rfl⟩ := heC.eq_of_pollBranch
  exact ⟨⟨by simp, by simp, by simp, by simp, by simp, by simp⟩, rfl⟩

/-! ### What stands between the polls (R208, R209, R211, R212) -/

/-- R208: at an active sample in IDLE the pins become outputs. -/
theorem Serving.enable {s : State} (h : Serving s) (ho : s.offset = 3) :
    ∃ t, ServeRun s 1 t ∧ t.offset = 4 ∧ t.dir = 0xFF ∧ t.raw = s.raw ∧ t.odr = s.odr
      ∧ t.trace = .writeDir 0xFF :: s.trace := by
  obtain ⟨t, hrun, he, hoff⟩ := h.step_on rfl ho (i := .oen) (by cases s.mode.value <;> rfl) rfl nofun
  cases he
  exact ⟨_, hrun, hoff, rfl, rfl, rfl, rfl⟩

/-- R209: at an inactive sample in SERVING the pins become inputs, and `ODR` is not stored to. -/
theorem Serving.release {s : State} (h : Serving s) (ho : s.offset = 0xD) :
    ∃ t, ServeRun s 1 t ∧ t.offset = 0xE ∧ t.dir = 0x00 ∧ t.odr = s.odr ∧ t.trace = .writeDir 0x00 :: s.trace := by
  obtain ⟨t, hrun, he, hoff⟩ := h.step_on rfl ho (i := .ods) (by cases s.mode.value <;> rfl) rfl nofun
  cases he
  exact ⟨_, hrun, hoff, rfl, rfl, rfl⟩

/-- The access is counted, or not, between the switch of the pins and the lookup. -/
theorem Serving.count {s : State} (h : Serving s) (ho : s.offset = 4) :
    ∃ t, ServeRun s 1 t ∧ t.offset = 5 ∧ t.dir = s.dir ∧ t.raw = s.raw := by
  obtain ⟨t, hrun, he, hoff⟩ := h.step_on rfl ho (i := .cnt) (by cases s.mode.value <;> rfl) rfl nofun
  have w := he.ownWriters
  exact ⟨t, hrun, hoff, w.dir (by decide), w.raw (by decide)⟩

/-- LKP on a sample below `TLEN` puts its table entry in `DAT`, and the bus host is not asked. -/
theorem Serving.lookup {s : State} (h : Serving s) (ho : s.offset = 5) (hrange : s.raw.value < s.tlen.value) :
    ∃ t, ServeRun s 1 t ∧ t.offset = 6 ∧ t.dat = .holds ((s.tableEntry s.raw.value).setWidth 32)
      ∧ t.inputNow = s.inputNow ∧ t.dir = s.dir ∧ t.odr = s.odr ∧ t.trace = s.trace := by
  obtain ⟨t, hrun, he, hoff⟩ := h.step_on rfl ho (i := .lkp) (by cases s.mode.value <;> rfl) rfl fun _ => hrange
  cases he
  exact ⟨_, hrun, hoff, rfl, rfl, rfl, rfl, rfl⟩

/-- The low byte of a byte widened to a word is the byte. -/
theorem lowByte_setWidth (b : Byte) : (b.setWidth 32).extractLsb' 0 8 = b := by
  rw [← BitVec.setWidth_eq_extractLsb' (by decide), BitVec.setWidth_setWidth_of_le _ (by decide), BitVec.setWidth_eq]

/-- DRV, where a listing has it, stores the byte in `DAT`. -/
theorem Serving.drive {s : State} (h : Serving s) {b : Byte} (hi : (serveListing s.mode.value)[s.offset]? = some .drv)
    (hdat : s.dat = .holds (b.setWidth 32)) :
    ∃ t, ServeRun s 1 t ∧ t.offset = s.offset + 1 ∧ t.dat = s.dat ∧ t.odr = .holds b ∧ t.dir = s.dir
      ∧ t.trace = .writeOdr b :: s.trace := by
  obtain ⟨t, hrun, he, hoff⟩ := h.step_on rfl rfl hi rfl nofun
  cases he
  have hbyte : s.tickPassed.dat.value.extractLsb' 0 8 = b := by
    rw [State.tickPassed_dat, hdat, Latch.holds_value, lowByte_setWidth]
  exact ⟨_, hrun, hoff, rfl, congrArg Latch.holds hbyte, rfl, congrArg (fun x => Access.writeOdr x :: s.trace) hbyte⟩

/-- R212: programs B and C store the byte right after the lookup. -/
theorem Serving.lookup_drive {s : State} (h : Serving s) (hmode : s.mode.value ≠ .twoCheck) (ho : s.offset = 5)
    (hrange : s.raw.value < s.tlen.value) :
    ∃ t, ServeRun s 2 t ∧ t.offset = 7 ∧ t.dat = .holds ((s.tableEntry s.raw.value).setWidth 32)
      ∧ t.odr = .holds (s.tableEntry s.raw.value) ∧ t.dir = s.dir
      ∧ t.trace = .writeOdr (s.tableEntry s.raw.value) :: s.trace := by
  obtain ⟨a, hrunA, hoffA, hdatA, _, hdirA, _, htraceA⟩ := h.lookup ho hrange
  have hdrv : (serveListing a.mode.value)[a.offset]? = some .drv := by
    rw [hrunA.mode, hoffA]
    cases hm : s.mode.value with
    | twoCheck => exact absurd hm hmode
    | addrOnCs | addrOnAnyCs => rfl
  obtain ⟨t, hrunT, hoffT, hdatT, hodrT, hdirT, htraceT⟩ := hrunA.serving.drive hdrv hdatA
  exact ⟨t, hrunA.trans hrunT, by rw [hoffT, hoffA], hdatT.trans hdatA, hodrT, hdirT.trans hdirA,
    by rw [htraceT, htraceA]⟩

/-- The hold loop's end: back to its SMP while the sample is the latched one, else on to the lookup (R212). -/
theorem serveListing_hold {m : ServeMode} (hm : m ≠ .twoCheck) :
    (serveListing m)[0xB]? = some (.bs (entryOf m + 0x8)) ∧ (serveListing m)[0xC]? = some (.jmp (entryOf m + 0x5)) := by
  cases m with
  | twoCheck => exact absurd rfl hm
  | addrOnCs | addrOnAnyCs => exact ⟨rfl, rfl⟩

/-- R204: the hold loop compares the sample with the latched one, and writes `upc` alone. -/
theorem Serving.compare {s : State} (h : Serving s) (hmode : s.mode.value ≠ .twoCheck) (ho : s.offset = 0xB) :
    ∃ t, ServeRun s 1 t ∧ t.offset = (if s.raw.value = s.prev.value then 0x8 else 0xC) ∧ t.raw = s.raw
      ∧ t.dat = s.dat ∧ t.odr = s.odr ∧ t.dir = s.dir ∧ t.trace = s.trace := by
  obtain ⟨t, hrun, he, hoff⟩ := h.step_at rfl ho (serveListing_hold hmode).1 nofun
  cases he
  simp only [State.jumps, Instr.operand, entryOf_add_sub, beq_iff_eq] at hoff
  exact ⟨_, hrun, hoff, by simp, by simp, by simp, by simp, by simp⟩

/-- R201, R212: a changed sample goes to the lookup. -/
theorem Serving.rejoin {s : State} (h : Serving s) (hmode : s.mode.value ≠ .twoCheck) (ho : s.offset = 0xC) :
    ∃ t, ServeRun s 1 t ∧ t.offset = 0x5 ∧ t.raw = s.raw ∧ t.dir = s.dir ∧ t.trace = s.trace := by
  obtain ⟨t, hrun, he, hoff⟩ := h.step_at rfl ho (serveListing_hold hmode).2 nofun
  cases he
  rw [State.jumps, Instr.operand, entryOf_add_sub] at hoff
  exact ⟨_, hrun, hoff, rfl, rfl, rfl⟩

/-! ### The statements about runs -/

/-- Settles O56: an active sample leads on to OEN, an inactive one back to the SMP. -/
theorem idleAnswersASample : Obligations.IdleAnswersASample := by
  unfold Obligations.IdleAnswersASample
  intro s hinv ha hquiet hrs ho
  have h : Serving s := ⟨hinv, ha, hquiet, hrs⟩
  obtain ⟨a, hrunA, polled, hoffA⟩ := h.poll (by rw [ho]; cases s.mode.value <;> decide)
  rw [ho] at hoffA
  refine ⟨fun hactive => ?_, fun hinactive => ?_⟩
  · rw [hactive] at hoffA
    obtain ⟨t, hrunT, hoffT, hdir, _, hodr, htrace⟩ := hrunA.serving.enable hoffA
    exact ⟨t, (hrunA.trans hrunT).steps, hdir, hodr.trans polled.odr, hrunT.serving.rs, hoffT,
      by rw [htrace, polled.trace]⟩
  · rw [hinactive] at hoffA
    have hdir : s.dir = 0x00 := by rw [(hinv.serve hrs).pins, ho]; rfl
    exact ⟨a, hrunA.steps, polled.dir.trans hdir, polled.odr, hrunA.serving.rs, hrunA.upc_eq (hoffA.trans ho.symm),
      polled.trace⟩

/-- An inactive sample in SERVING, and the release of the pins it leads to. -/
theorem Serving.poll_release {s : State} (h : Serving s) (ho : s.offset ∈ pollOffsets s.mode.value)
    (hserving : s.offset ≠ 0) (hinactive : s.activeSample s.inputNow = false) :
    ∃ t, ServeRun s 4 t ∧ t.offset = 0xE ∧ t.dir = 0x00 ∧ t.odr = s.odr
      ∧ t.trace = .writeDir 0x00 :: .readIn s.inputNow :: s.trace := by
  obtain ⟨a, hrunA, polled, hoffA⟩ := h.poll ho
  rw [hinactive, afterPoll, if_neg Bool.false_ne_true, if_neg hserving] at hoffA
  obtain ⟨t, hrunT, hoffT, hdir, hodr, htrace⟩ := hrunA.serving.release hoffA
  exact ⟨t, hrunA.trans hrunT, hoffT, hdir, hodr.trans polled.odr, by rw [htrace, polled.trace]⟩

/-- The polls of SERVING are those that do not begin at the entry. -/
theorem mem_pollOffsets_of_serving (m : ServeMode) :
    ∀ o ∈ (if m = .twoCheck then [0x6, 0xA] else [0x8]), o ∈ pollOffsets m ∧ o ≠ 0 := by
  cases m <;> decide

/-- Settles O57: in all three programs a poll of SERVING leads to the release. -/
theorem inactiveSampleReleasesThePins : Obligations.InactiveSampleReleasesThePins := by
  unfold Obligations.InactiveSampleReleasesThePins
  intro s hinv ha hquiet hrs ho hinactive
  obtain ⟨hpoll, hserving⟩ := mem_pollOffsets_of_serving _ _ ho
  obtain ⟨t, hrun, hoff, hdir, hodr, htrace⟩ :=
    Serving.poll_release ⟨hinv, ha, hquiet, hrs⟩ hpoll hserving hinactive
  exact ⟨t, hrun.steps, hdir, hodr, hrun.serving.rs, hoff, htrace⟩

/-- Settles O58: poll, OEN, CNT, then lookup and store. -/
theorem programsBAndCServeInSixMicroOperations : Obligations.ProgramsBAndCServeInSixMicroOperations := by
  unfold Obligations.ProgramsBAndCServeInSixMicroOperations
  intro s hinv ha hquiet hrs ho hmode hactive hrange
  have h : Serving s := ⟨hinv, ha, hquiet, hrs⟩
  obtain ⟨a, hrunA, polled, hoffA⟩ := h.poll (by rw [ho]; cases s.mode.value <;> decide)
  rw [ho, hactive] at hoffA
  obtain ⟨b, hrunB, hoffB, hdirB, hrawB, _, _⟩ := hrunA.serving.enable hoffA
  obtain ⟨c, hrunC, hoffC, hdirC, hrawC⟩ := hrunB.serving.count hoffB
  have hrun : ServeRun s 5 c := (hrunA.trans hrunB).trans hrunC
  have hraw : c.raw.value = s.inputNow := by rw [hrawC, hrawB, polled.raw, Latch.holds_value]
  obtain ⟨t, hrunT, hoffT, hdatT, hodrT, hdirT, _⟩ := hrun.serving.lookup_drive (hrun.mode ▸ hmode) hoffC
    (by rwa [hraw, hrun.setup.tlen])
  rw [hraw, hrun.setup.tableEntry] at hdatT hodrT
  exact ⟨t, (hrun.trans hrunT).steps, hrunT.serving.rs, hoffT, by rw [hdirT, hdirC, hdirB], hodrT, hdatT⟩

/-- Settles O59: after the lookup program A polls once more, then drives or releases. -/
theorem programAServesOrReleases : Obligations.ProgramAServesOrReleases := by
  unfold Obligations.ProgramAServesOrReleases
  intro s hinv ha hquiet hrs ho hmode hrange
  have h : Serving s := ⟨hinv, ha, hquiet, hrs⟩
  obtain ⟨a, hrunA, hoffA, hdatA, hinputA, hdirA, hodrA, _⟩ := h.lookup ho hrange
  have hmodeA : a.mode.value = .twoCheck := hrunA.mode.trans hmode
  have hpollA : a.offset ∈ pollOffsets a.mode.value := by
    rw [hoffA, hmodeA]
    decide
  have hsample : a.activeSample a.inputNow = s.activeSample s.inputNow := by
    rw [hrunA.setup.activeSample, hinputA]
  refine ⟨fun hactive => ?_, fun hinactive => ?_⟩
  · obtain ⟨b, hrunB, polled, hoffB⟩ := hrunA.serving.poll hpollA
    rw [hsample, hactive, hoffA] at hoffB
    have hdrv : (serveListing b.mode.value)[b.offset]? = some .drv := by
      rw [hrunB.mode, hmodeA, hoffB]
      rfl
    obtain ⟨t, hrunT, hoffT, _, hodrT, hdirT, _⟩ := hrunB.serving.drive hdrv (polled.dat.trans hdatA)
    have hdir : s.dir = 0xFF := by rw [(hinv.serve hrs).pins, ho]; rfl
    exact ⟨t, ((hrunA.trans hrunB).trans hrunT).steps, hrunT.serving.rs, by rw [hoffT, hoffB]; rfl,
      by rw [hdirT, polled.dir, hdirA, hdir], hodrT⟩
  · obtain ⟨t, hrunT, hoffT, hdirT, hodrT, _⟩ := hrunA.serving.poll_release hpollA (by rw [hoffA]; decide)
      (hsample.trans hinactive)
    exact ⟨t, (hrunA.trans hrunT).steps, hrunT.serving.rs, hoffT, hdirT, hodrT.trans hodrA⟩

/-- Settles O60, by whether BS finds the sample to be the latched one (R204). -/
theorem holdLoopServesOnlyChanges : Obligations.HoldLoopServesOnlyChanges := by
  unfold Obligations.HoldLoopServesOnlyChanges
  intro s hinv ha hquiet hrs ho hmode hactive
  have h : Serving s := ⟨hinv, ha, hquiet, hrs⟩
  obtain ⟨a, hrunA, polled, hoffA⟩ := h.poll (by rw [ho]; revert hmode; cases s.mode.value <;> decide)
  rw [ho, hactive] at hoffA
  obtain ⟨b, hrunB, hoffB, hrawB, hdatB, hodrB, hdirB, htraceB⟩ :=
    hrunA.serving.compare (hrunA.mode ▸ hmode) hoffA
  have hrun : ServeRun s 4 b := hrunA.trans hrunB
  rw [polled.raw, polled.prev, Latch.holds_value] at hoffB
  refine ⟨fun hsame => ?_, fun hchanged hrange => ?_⟩
  · rw [if_pos hsame] at hoffB
    exact ⟨b, hrun.steps, hrun.upc_eq (hoffB.trans ho.symm), hdirB.trans polled.dir, hodrB.trans polled.odr,
      hdatB.trans polled.dat, htraceB.trans polled.trace⟩
  · rw [if_neg hchanged] at hoffB
    obtain ⟨c, hrunC, hoffC, hrawC, hdirC, htraceC⟩ := hrunB.serving.rejoin (hrun.mode ▸ hmode) hoffB
    have hrun : ServeRun s 5 c := hrun.trans hrunC
    have hraw : c.raw.value = s.inputNow := by rw [hrawC, hrawB, polled.raw, Latch.holds_value]
    obtain ⟨t, hrunT, hoffT, _, hodrT, hdirT, htraceT⟩ := hrun.serving.lookup_drive (hrun.mode ▸ hmode) hoffC
      (by rwa [hraw, hrun.setup.tlen])
    rw [hraw, hrun.setup.tableEntry] at hodrT htraceT
    have hdir : s.dir = 0xFF := by rw [(hinv.serve hrs).pins, ho]; rfl
    exact ⟨t, (hrun.trans hrunT).steps, hoffT, hodrT, by rw [hdirT, hdirC, hdirB, polled.dir, hdir],
      by rw [htraceT, htraceC, htraceB, polled.trace]⟩

end Sys2Proof.Machine
end

section
/-! The boot program's own micro-operations (O25 to O27, O29, O35, O36): BCHK, STRAP, SSET, PLD, RTI and ENT. What each
answers, and what its operands are: the boot pins (R231), the selector bit by bit (R233), the set (R234), the bytes PLD
copies (R236), and the fields of the RuntimeInfo record, each a run of bytes inside one store (R105, R240). -/

namespace Sys2Proof.Machine

/-! ### BCHK (R231) -/

theorem exec_bchk_of_high {s : State} (h : bootPinsHigh s.cfg.pm.boot s.strap = true) :
    exec .bchk s = .next (s.afterReadStrap.writeRs .bootloader) := by
  rw [exec, execBchk, if_pos h]

theorem exec_bchk_of_not_high {s : State} (h : ¬ bootPinsHigh s.cfg.pm.boot s.strap = true) :
    exec .bchk s = .next s.afterReadStrap.advance := by
  rw [exec, execBchk, if_neg h]

theorem bootPinsHigh_iff (bootPins : List (Fin 32)) (strap : Word) :
    bootPinsHigh bootPins strap = true ↔ bootPins ≠ [] ∧ ∀ p ∈ bootPins, strap.getLsbD p.val = true := by
  rw [bootPinsHigh, Bool.and_eq_true, Bool.not_eq_true', List.isEmpty_eq_false_iff, List.all_eq_true]

/-- Settles O25, by whether the boot pins are all high. -/
theorem bchkEntersTheBootloaderOnAllHigh : Obligations.BchkEntersTheBootloaderOnAllHigh := by
  unfold Obligations.BchkEntersTheBootloaderOnAllHigh
  intro s
  simp only [← bootPinsHigh_iff]
  by_cases h : bootPinsHigh s.cfg.pm.boot s.strap = true
  · refine ⟨_, exec_bchk_of_high h, fun _ => rfl, fun hn => absurd h hn, fun sp a => ?_⟩
    rw [State.writeRs_memRead, State.afterReadStrap_memRead]
  · refine ⟨_, exec_bchk_of_not_high h, fun hh => absurd hh h, fun _ => rfl, fun sp a => ?_⟩
    rw [State.advance_memRead, State.afterReadStrap_memRead]

/-! ### STRAP (R233) -/

theorem exec_strap (s : State) :
    exec .strap s = .next (s.afterReadStrap.writeSel (strapSelector s.cfg.pm.sel s.strap)).advance := rfl

/-- Bit `i` of the selector is the level of the `i`-th select pin. -/
theorem strapSelector_bit (selPins : List (Fin 32)) (strap : Word) {i : Nat} (hi : i < 32) :
    (strapSelector selPins strap).getLsbD i = ((selPins[i]?).map fun p => strap.getLsbD p.val).getD false := by
  rw [strapSelector, BitVec.getLsbD_ofNat, gather_testBit, List.getElem?_map, Option.map_map, decide_eq_true hi,
    Bool.true_and]
  rfl

theorem strapSelector_lt (selPins : List (Fin 32)) (strap : Word) :
    (strapSelector selPins strap).toNat < 2 ^ selPins.length := by
  have hlt := gather_lt (selPins.map (·.val)) strap.toNat
  rw [List.length_map] at hlt
  rw [strapSelector, BitVec.toNat_ofNat]
  exact Nat.lt_of_le_of_lt (Nat.mod_le _ _) hlt

/-- Settles O26. -/
theorem strapReadsTheSelector : Obligations.StrapReadsTheSelector := by
  unfold Obligations.StrapReadsTheSelector
  intro s
  refine ⟨_, _, exec_strap s, rfl, fun i hi => strapSelector_bit _ _ hi, strapSelector_lt _ _, fun sp a => ?_⟩
  rw [State.advance_memRead, State.writeSel_memRead, State.afterReadStrap_memRead]

/-! ### SSET (R234) -/

theorem exec_sset_of_holds {s : State} {sel : Word} (hsel : s.sel = .holds sel) (hn : s.cfg.numSets ≠ 0) :
    exec .sset s = .next (s.writeSet (selectedSet s.cfg sel)).advance := by
  rw [exec, execSset, hsel, readLatch_holds, if_neg hn]

theorem exec_sset_of_no_sets {s : State} {sel : Word} (hsel : s.sel = .holds sel) (hn : s.cfg.numSets = 0) :
    exec .sset s = .refused (.configuration .noSets) := by
  rw [exec, execSset, hsel, readLatch_holds, if_pos hn]

/-- A remainder of a word fits in a word. -/
theorem selectedSet_toNat (cfg : Config) (sel : Word) : (selectedSet cfg sel).toNat = sel.toNat % cfg.numSets := by
  rw [selectedSet, BitVec.toNat_ofNat]
  exact Nat.mod_eq_of_lt (Nat.lt_of_le_of_lt (Nat.mod_le _ _) sel.isLt)

/-- Settles O27, by whether there is a set. -/
theorem ssetWrapsTheSelector : Obligations.SsetWrapsTheSelector := by
  unfold Obligations.SsetWrapsTheSelector
  intro s sel hsel
  refine ⟨fun hn => ⟨_, _, exec_sset_of_holds hsel hn, rfl, selectedSet_toNat s.cfg sel, ?_, fun sp a => ?_⟩,
    exec_sset_of_no_sets hsel⟩
  · rw [selectedSet_toNat]
    exact Nat.mod_lt _ (Nat.pos_of_ne_zero hn)
  · rw [State.advance_memRead, State.writeSet_memRead]

/-! ### PLD (R236) -/

theorem exec_pld_of_copy {s : State} {set tbl tlen : Word} (hset : s.set = .holds set) (htbl : s.tbl = .holds tbl)
    (htlen : s.tlen = .holds tlen) (hc : s.cfg.fastCopy = true) :
    exec .pld s =
      .next ((s.memWrite .fast s.cfg.fastBase (sourceTable s tbl tlen)).writeTbl s.cfg.fastBase).advance := by
  rw [exec, execPld, if_pos hc, hset, htbl, htlen, readLatch_holds, readLatch_holds, readLatch_holds]

theorem exec_pld_of_no_copy {s : State} (hc : s.cfg.fastCopy = false) : exec .pld s = .next s.advance := by
  rw [exec, execPld, hc, if_neg Bool.false_ne_true]

theorem sourceTable_length (s : State) (tbl tlen : Word) : (sourceTable s tbl tlen).length = tlen.toNat := by
  rw [sourceTable, List.length_map, List.length_range]

theorem sourceTable_getElem (s : State) (tbl tlen : Word) {i : Nat} (hi : i < (sourceTable s tbl tlen).length) :
    (sourceTable s tbl tlen)[i] = s.memRead (remapSpace s.cfg) (tbl + BitVec.ofNat 32 i) := by
  simp [sourceTable]

/-- Settles O29: the copy is one run of bytes, which reads back, and no byte outside it changes. -/
theorem pldCopiesTheTableOrChangesNothing : Obligations.PldCopiesTheTableOrChangesNothing := by
  unfold Obligations.PldCopiesTheTableOrChangesNothing
  refine fun s => ⟨fun set tbl tlen hset htbl htlen hc => ?_,
    fun hc => ⟨_, exec_pld_of_no_copy hc, rfl, s.advance_memRead⟩⟩
  have hlen := sourceTable_length s tbl tlen
  refine ⟨_, exec_pld_of_copy hset htbl htlen hc, rfl, fun i hi => ?_, fun sp a ha => ?_⟩
  · rw [← hlen] at hi
    rw [State.advance_memRead, State.writeTbl_memRead,
      State.memWrite_run s (by decide) _ _ (hlen ▸ Nat.le_of_lt tlen.isLt) i hi, sourceTable_getElem s tbl tlen hi,
      remapSpace]
  · rw [← hlen] at ha
    rw [State.advance_memRead, State.writeTbl_memRead, State.memWrite_other s .fast _ _ sp a ha]

/-! ### RTI (R240) -/

theorem exec_rti_of_holds {s : State} {set tbl tlen : Word} (hset : s.set = .holds set) (htbl : s.tbl = .holds tbl)
    (htlen : s.tlen = .holds tlen) :
    exec .rti s = .next (s.memWrite .rti s.cfg.rtiBase (rtiRecord s.cfg.magic set tbl tlen)).advance := by
  rw [exec, execRti, hset, htbl, htlen, readLatch_holds, readLatch_holds, readLatch_holds]

theorem State.memReadWord_congr {s t : State} {space : Space} (h : ∀ a, t.memRead space a = s.memRead space a)
    (a : Word) : t.memReadWord space a = s.memReadWord space a := by
  rw [State.memReadWord, h, h, h, h, State.memReadWord]

/-- A word whose four bytes stand in a store after `k` others reads back there. -/
theorem State.memWrite_word (s : State) {space : Space} (hsp : space ≠ .store) (base v : Word) {bs : List Byte}
    (hn : bs.length ≤ 2 ^ 32) {pre : List Byte} (post : List Byte) (hbs : bs = pre ++ (wordBytes v ++ post)) {k : Nat}
    (hk : pre.length = k) : (s.memWrite space base bs).memReadWord space (base + BitVec.ofNat 32 k) = v := by
  refine State.memReadWord_eq fun i hi => ?_
  have hlt : k + i < bs.length := by
    rw [hbs, List.length_append, List.length_append]
    omega
  have hbyte : bs[k + i]? = (wordBytes v)[i]? := by
    rw [hbs, ← hk, List.getElem?_append_right (Nat.le_add_right ..), Nat.add_sub_cancel_left,
      List.getElem?_append_left hi]
  rw [BitVec.add_assoc, ← BitVec.ofNat_add, State.memWrite_run s hsp base bs hn _ hlt]
  rwa [List.getElem?_eq_getElem hlt, List.getElem?_eq_getElem hi, Option.some_inj] at hbyte

/-- Word `j` of a run of words has `4 * j` bytes before it. -/
theorem flatMap_wordBytes_split (ws : List Word) (j : Nat) (hj : j < ws.length) :
    ∃ pre post, ws.flatMap wordBytes = pre ++ (wordBytes ws[j] ++ post) ∧ pre.length = 4 * j := by
  induction ws generalizing j with
  | nil => exact absurd hj (Nat.not_lt_zero j)
  | cons w ws ih =>
    cases j with
    | zero => exact ⟨[], ws.flatMap wordBytes, by simp, rfl⟩
    | succ j =>
      obtain ⟨pre, post, hsplit, hlen⟩ := ih j (Nat.lt_of_succ_lt_succ hj)
      refine ⟨wordBytes w ++ pre, post, by simp [hsplit], ?_⟩
      rw [List.length_append, wordBytes_length, hlen]
      omega

/-- The RuntimeInfo record stands in `RTI` from `base` on (R105). -/
structure State.HoldsRecord (s : State) (base : Word) (magic : Vector Byte 4) (set tbl tlen : Word) : Prop where
  magic : ∀ i : Fin 4, s.memRead .rti (base + BitVec.ofNat 32 i.val) = magic[i.val]
  size : s.memReadWord .rti (base + 4) = 24
  set : s.memReadWord .rti (base + 8) = set
  count : s.memReadWord .rti (base + 12) = 0
  tbl : s.memReadWord .rti (base + 16) = tbl
  tlen : s.memReadWord .rti (base + 20) = tlen

theorem State.HoldsRecord.congr {s t : State} {base : Word} {magic : Vector Byte 4} {set tbl tlen : Word}
    (hs : s.HoldsRecord base magic set tbl tlen) (h : ∀ a, t.memRead .rti a = s.memRead .rti a) :
    t.HoldsRecord base magic set tbl tlen where
  magic i := (h _).trans (hs.magic i)
  size := (State.memReadWord_congr h _).trans hs.size
  set := (State.memReadWord_congr h _).trans hs.set
  count := (State.memReadWord_congr h _).trans hs.count
  tbl := (State.memReadWord_congr h _).trans hs.tbl
  tlen := (State.memReadWord_congr h _).trans hs.tlen

/-- The five words behind the magic (R105). -/
theorem rtiRecord_eq (magic : Vector Byte 4) (set tbl tlen : Word) :
    rtiRecord magic set tbl tlen = magic.toList ++ [24, set, 0, tbl, tlen].flatMap wordBytes := by
  simp [rtiRecord]

theorem rtiRecord_length (magic : Vector Byte 4) (set tbl tlen : Word) :
    (rtiRecord magic set tbl tlen).length = 24 := by
  simp [rtiRecord]

/-- Storing the 24 bytes leaves the record: field `j` has the magic and `j` words before it. -/
theorem State.memWrite_rtiRecord (s : State) (base : Word) (magic : Vector Byte 4) (set tbl tlen : Word) :
    (s.memWrite .rti base (rtiRecord magic set tbl tlen)).HoldsRecord base magic set tbl tlen := by
  have hlen := rtiRecord_length magic set tbl tlen
  have hfits : (rtiRecord magic set tbl tlen).length ≤ 2 ^ 32 := by omega
  have field (j : Fin 5) : (s.memWrite .rti base (rtiRecord magic set tbl tlen)).memReadWord .rti
      (base + BitVec.ofNat 32 (4 + 4 * j.val)) = [24, set, 0, tbl, tlen][j.val] := by
    obtain ⟨pre, post, hsplit, hpre⟩ := flatMap_wordBytes_split [24, set, 0, tbl, tlen] j.val j.isLt
    refine s.memWrite_word (by decide) base _ hfits (pre := magic.toList ++ pre) post ?_ ?_
    · rw [rtiRecord_eq, hsplit, List.append_assoc]
    · rw [List.length_append, Vector.length_toList, hpre]
  refine ⟨fun i => ?_, field 0, field 1, field 2, field 3, field 4⟩
  rw [s.memWrite_run (by decide) base _ hfits i.val (by omega)]
  simp [rtiRecord]

/-- RTI leaves the record, and every byte outside its 24 as it was. -/
theorem exec_rti_holdsRecord {s : State} {set tbl tlen : Word} (hset : s.set = .holds set) (htbl : s.tbl = .holds tbl)
    (htlen : s.tlen = .holds tlen) : ∃ t, exec .rti s = .next t ∧ t = { s with rti := t.rti, upc := s.upc + 1 }
      ∧ t.HoldsRecord s.cfg.rtiBase s.cfg.magic set tbl tlen ∧ SameBytesBut .rti s.cfg.rtiBase 24 s t := by
  refine ⟨_, exec_rti_of_holds hset htbl htlen, rfl, (s.memWrite_rtiRecord _ _ set tbl tlen).congr fun a => ?_,
    fun sp a ha => ?_⟩
  · rw [State.advance_memRead]
  · rw [State.advance_memRead, State.memWrite_other s .rti _ _ sp a]
    rwa [rtiRecord_length]

/-- Settles O35. -/
theorem rtiWritesTheRecord : Obligations.RtiWritesTheRecord := by
  unfold Obligations.RtiWritesTheRecord
  intro s set tbl tlen hset htbl htlen
  obtain ⟨t, hx, ht, hrecord, hframe⟩ := exec_rti_holdsRecord hset htbl htlen
  exact ⟨t, hx, ht, hrecord.magic, hrecord.size, hrecord.set, hrecord.count, hrecord.tbl, hrecord.tlen,
    fun _ _ => rfl, hframe⟩

/-! ### ENT (R241) -/

theorem exec_ent_of_holds {s : State} {m : ServeMode} (hm : s.mode = .holds m) :
    exec .ent s = .next (((s.writeDir 0x00).writeRs .serve).jump (entryOf m)) := by
  rw [exec, execEnt, hm, readLatch_holds]

/-- Settles O36, by the mode. -/
theorem entDispatchesOnTheMode : Obligations.EntDispatchesOnTheMode := by
  unfold Obligations.EntDispatchesOnTheMode
  intro s m hm
  refine ⟨_, exec_ent_of_holds hm, ?_, fun sp a => ?_⟩
  · cases m <;> rfl
  · rw [State.jump_memRead, State.writeRs_memRead, State.writeDir_memRead]

end Sys2Proof.Machine
end

section
/-! The boot program in steps (O55). Ten undisturbed steps run the listing of R242 once. What the registers hold in
between the program invariant says; what it does not say is followed here: the bytes of the table, which RMP provides
and PLD copies (R147, R236), the warnings of PCK, RPR and MSK (R160 to R167), and the record of RTI (R240). -/

namespace Sys2Proof.Machine

/-! ### The length of a table that is built or copied (log 27) -/

/-- A range of addresses that shares none with a non-empty one is not the whole address space. -/
theorem Range.len_lt_of_apart {r q : Range} (h : q.apart r = true) (hr : r.lo + r.len ≤ 2 ^ 32) (hq : q.lo < 2 ^ 32)
    (hlen : 0 < q.len) : r.len < 2 ^ 32 := by
  simp only [Range.apart, Bool.or_eq_true, decide_eq_true_eq] at h
  omega

/-- A table in `FAST` or `WORK` shares no address with the RuntimeInfo record, so its length fits in `TLEN` (R75). -/
theorem tableLength_toNat_of_checkRanges {cfg : Config} {set : RomSet} {storeEnd : Nat}
    (h : checkRanges cfg set storeEnd = .ok ()) (hc : cfg.fastCopy = true ∨ cfg.remapAtBoot = true) :
    set.tableLength.toNat = 2 ^ set.indexWidth := by
  obtain ⟨_, hfits, hapart, _⟩ := checkRanges_ok h
  rw [otherRanges, pairwiseApart, Bool.and_eq_true, List.all_eq_true] at hapart
  obtain ⟨base, hmem⟩ : ∃ base, Range.mk base (2 ^ set.indexWidth) ∈
      (if cfg.fastCopy then [⟨cfg.fastBase.toNat, 2 ^ set.indexWidth⟩] else [])
        ++ (if cfg.remapAtBoot then [⟨cfg.workBase.toNat, 2 ^ set.indexWidth⟩] else []) := by
    rcases hc with hc | hc
    · exact ⟨_, List.mem_append_left _ (by rw [if_pos hc]; exact List.mem_singleton_self _)⟩
    · exact ⟨_, List.mem_append_right _ (by rw [if_pos hc]; exact List.mem_singleton_self _)⟩
  have hlt := Range.len_lt_of_apart (hapart.1 _ hmem)
    (hfits _ (List.mem_append_right _ (List.mem_cons_of_mem _ hmem))) cfg.rtiBase.isLt (Nat.succ_pos 23)
  rw [RomSet.tableLength, BitVec.toNat_ofNat, Nat.mod_eq_of_lt hlt]

/-- The set that the straps select (R234). -/
def State.strapSet (s : State) : Word := selectedSet s.cfg (strapSelector s.cfg.pm.sel s.strap)

/-- What `checkConfig` has found of the set that the straps select: it is a RomSet, and its table's length fits in
`TLEN` where the table is built or copied. -/
theorem State.accepted.strapSet {s : State} (ha : s.accepted) : ∃ set,
    romSetAt s.cfg s.store s.strapSet.toNat = .ok set
      ∧ (s.cfg.fastCopy = true ∨ s.cfg.remapAtBoot = true → set.tableLength.toNat = 2 ^ set.indexWidth) := by
  obtain ⟨_, _, _, _, set, _, hrom, _, _, hranges⟩ := configDefect_none ha
  exact ⟨set, by rwa [State.strapSet, selectedSet_strapSelector], tableLength_toNat_of_checkRanges hranges⟩

/-! ### Runs of the boot program -/

theorem State.tickPassed_memRead (s : State) (sp : Space) (a : Word) : s.tickPassed.memRead sp a = s.memRead sp a := by
  cases sp <;> rfl

/-- The passing of a tick writes no register. -/
theorem OwnWriters.of_tickPassed {i : Instr} {s t : State} (w : OwnWriters i s.tickPassed t) : OwnWriters i s t :=
  { w with }

/-- The first `k` steps of the boot program lead undisturbed from `s` to `t`. -/
structure BootRun (s : State) (k : Nat) (t : State) : Prop where
  steps : s.leadsTo k t
  inv : RunInv t
  accepted : t.accepted
  noReset : t.noReset
  rs : t.rs = .boot
  upc : t.upc.toNat = k
  cfg : t.cfg = s.cfg
  store : t.store = s.store
  strap : t.strap = s.strap

/-- The micro-operation `i` is the step from `t` to `u` in the boot program. -/
structure BootStep (i : Instr) (t u : State) : Prop where
  exec : exec i t.tickPassed = .next u
  effect : Effect t.tickPassed i u

theorem BootRun.bootInv {s t : State} {k : Nat} (h : BootRun s k t) : BootInv t := h.inv.boot h.rs

theorem BootRun.listed {s t : State} {k : Nat} (h : BootRun s k t) {i : Instr} (hi : bootListing[k]? = some i) :
    ∃ hlt : t.upc.toNat < 10, bootListing[t.upc.toNat] = i := by
  obtain ⟨hk, hlisted⟩ := Vector.getElem?_eq_some_iff.mp hi
  exact ⟨h.upc ▸ hk, by simpa only [h.upc] using hlisted⟩

/-- A step of the boot program is the micro-operation listed at `upc`; it raises no model fault. -/
theorem BootRun.step {s t : State} {k : Nat} (h : BootRun s k t) {i : Instr} (hi : bootListing[k]? = some i) :
    ∃ u, Machine.step t = .next u ∧ BootStep i t u := by
  obtain ⟨hlt, hlisted⟩ := h.listed hi
  have hd : decode t.fetched = .ok i := hlisted ▸ decode_fetched_boot h.inv.rom hlt
  have hready : Ready i t := hlisted ▸ h.bootInv.ready h.accepted hlt
  obtain ⟨u, hx, hfault⟩ := hready.tickPassed.exec_answersNext (by rw [State.tickPassed_rs, h.rs]; decide)
  have hstep := step_of_running h.accepted h.noReset.resetNow (RunState.running_iff.mpr (.inl h.rs)) hd
  refine ⟨u, hstep.trans hx, hx, (exec_next hx).resolve_right fun hraised => ?_⟩
  have hno : bootListing[t.upc.toNat] ∉ _ := bootListing_no_serve ⟨_, hlt⟩
  rw [hlisted, (hfault hraised.rs).1] at hno
  exact hno (by decide)

/-- A step to another address of the boot program: any but ENT, and BCHK where it does not find the pins high. -/
theorem BootRun.next {s t : State} {k : Nat} (h : BootRun s k t) {i : Instr} (hi : bootListing[k]? = some i)
    (hent : i ≠ .ent) (hlow : i = .bchk → ¬ bootPinsHigh s.cfg.pm.boot s.strap = true) :
    ∃ u, BootRun s (k + 1) u ∧ BootStep i t u := by
  obtain ⟨u, hstep, hx, he⟩ := h.step hi
  have hloader : i = .bchk → u.rs ≠ .bootloader := by
    rintro rfl hu
    rw [← h.cfg, ← h.strap] at hlow
    obtain rfl := Host.Outcome.next.inj ((exec_bchk_of_not_high (s := t.tickPassed) (hlow rfl)).symm.trans hx)
    cases h.rs.symm.trans hu
  have hrs : u.rs = t.rs := by
    rcases he.rs with hkeep | ⟨hi, _⟩ | ⟨hi, hu, _⟩
    · exact hkeep
    · exact absurd hi hent
    · exact absurd hu (hloader hi)
  obtain ⟨hlt, hlisted⟩ := h.listed hi
  have move : BootMove t.tickPassed u i := he.bootMove hlt hlisted hent hloader
  have w := he.ownWriters
  refine ⟨u, ⟨h.steps.add (.one hstep), stepKeepsTheProgramInvariant t u h.inv hstep, ?_, ?_, hrs.trans h.rs,
    move.next.trans (congrArg (· + 1) h.upc), w.cfg.trans h.cfg, w.store.trans h.store, w.strap.trans h.strap⟩,
    hx, he⟩
  · rw [State.accepted, w.cfg, w.store, w.strap]
    exact h.accepted
  · intro x hx
    rw [he.ticks] at hx
    exact h.noReset x (List.mem_of_mem_tail hx)

/-! ### What the registers hold in a run (R243) -/

section
variable {s t : State} {k : Nat} (h : BootRun s k t)
include h

theorem BootRun.sel_eq (hk : 2 ≤ k) : t.sel = .holds (strapSelector s.cfg.pm.sel s.strap) := by
  rw [h.bootInv.sel (h.upc.symm ▸ hk), h.cfg, h.strap]

theorem BootRun.set_eq (hk : 3 ≤ k) : t.set = .holds s.strapSet := by
  rw [h.bootInv.set (h.upc.symm ▸ hk), State.strapSet, h.cfg, h.strap]

theorem BootRun.remapBase_eq (hk : 3 ≤ k) : t.remapBase =
    if s.cfg.remapAtBoot then s.cfg.workBase else prebuiltTable s.cfg s.store s.strapSet.toNat := by
  rw [State.remapBase, h.set_eq hk, h.cfg, h.store, Latch.holds_value]

theorem BootRun.tableBase_eq (hk : 3 ≤ k) {u : State} {j : Nat} (h' : BootRun s j u) (hj : 3 ≤ j) :
    u.tableBase = t.tableBase :=
  State.tableBase_congr (h'.cfg.trans h.cfg.symm) (h'.store.trans h.store.symm)
    ((h'.set_eq hj).trans (h.set_eq hk).symm)

/-- The bytes of the Image Store are those the run began with (R61). -/
theorem BootRun.memRead_store (a : Word) : t.memRead .store a = s.memRead .store a := by
  rw [State.memRead, State.memory, State.contentsOf, h.store, State.memRead, State.memory, State.contentsOf]

theorem BootRun.tbl_eq_remapBase (hk : k = 4) : t.tbl = .holds t.remapBase := by
  obtain ⟨_, _, _, htbl⟩ := h.bootInv.table (h.upc.symm ▸ hk.ge)
  have hupc : t.upc = 0x04 := BitVec.eq_of_toNat_eq (h.upc.trans hk)
  rwa [if_pos hupc] at htbl

theorem BootRun.tbl_eq_tableBase (hk : 5 ≤ k) : t.tbl = .holds t.tableBase := by
  obtain ⟨_, _, _, htbl⟩ := h.bootInv.table (h.upc.symm ▸ Nat.le_of_succ_le hk)
  have hne : t.upc ≠ 0x04 := fun hu => by
    have hupc : t.upc.toNat = 4 := congrArg BitVec.toNat hu
    have := h.upc
    omega
  rwa [if_neg hne] at htbl

variable {set : RomSet} (hrom : romSetAt s.cfg s.store s.strapSet.toNat = .ok set)
include hrom

theorem BootRun.romSetAt_eq : romSetAt t.cfg t.store s.strapSet.toNat = .ok set := by
  rw [h.cfg, h.store, hrom]

theorem BootRun.selected (hk : 3 ≤ k) : t.selected set := by
  rw [State.selected, h.set_eq hk, Latch.holds_value, h.romSetAt_eq hrom]

theorem BootRun.tlen_eq (hk : 4 ≤ k) : t.tlen = .holds set.tableLength := by
  obtain ⟨set', hsel, htlen, _⟩ := h.bootInv.table (h.upc.symm ▸ hk)
  rwa [State.selected_unique (h.selected hrom (by omega)) hsel]

theorem BootRun.mode_eq (hk : 7 ≤ k) : t.mode = .holds (repairMode set).1 := by
  obtain ⟨set', hsel, hmode⟩ := h.bootInv.mode (h.upc.symm ▸ hk)
  rwa [State.selected_unique (h.selected hrom (by omega)) hsel]

theorem BootRun.masks (hk : 8 ≤ k) : t.masksOf set := by
  obtain ⟨set', hsel, hmasks⟩ := h.bootInv.masks (h.upc.symm ▸ hk)
  rwa [State.selected_unique (h.selected hrom (by omega)) hsel]

end

/-! ### The set, and its table (R147, R233 to R236)

Each lemma is one stretch of the listing, from one `BootRun` to the next. -/

/-- From `base` on, `space` holds in `t` the table of the set that the straps of `s` select: the prebuilt one, or under
`PinMapOK` that of `remap_ref`. -/
def HoldsTable (s : State) (set : RomSet) (t : State) (space : Space) (base : Word) : Prop :=
  ∀ idx < 2 ^ set.indexWidth,
    (s.cfg.remapAtBoot = false → t.memRead space (base + BitVec.ofNat 32 idx)
      = s.memRead .store (prebuiltTable s.cfg s.store s.strapSet.toNat + BitVec.ofNat 32 idx))
    ∧ (s.cfg.remapAtBoot = true → pinMapOK s.cfg.pm set = true → t.memRead space (base + BitVec.ofNat 32 idx)
      = remapRef s.cfg.pm set (logicalImage s s.strapSet.toNat) idx)

/-- A copy of a table is that table. -/
theorem HoldsTable.copy {s t u : State} {set : RomSet} {space space' : Space} {base base' : Word}
    (h : HoldsTable s set t space base) (hcopy : ∀ idx < 2 ^ set.indexWidth,
      u.memRead space' (base' + BitVec.ofNat 32 idx) = t.memRead space (base + BitVec.ofNat 32 idx)) :
    HoldsTable s set u space' base' := fun idx hidx =>
  ⟨fun hb => (hcopy idx hidx).trans ((h idx hidx).1 hb), fun hb hp => (hcopy idx hidx).trans ((h idx hidx).2 hb hp)⟩

/-- BCHK, STRAP, SSET: no warning (R235). -/
theorem BootRun.choose {s t : State} (h : BootRun s 0 t) (hlow : ¬ bootPinsHigh s.cfg.pm.boot s.strap = true) :
    ∃ u, BootRun s 3 u ∧ u.warn = t.warn := by
  obtain ⟨a, hrunA, _, heA⟩ := h.next (i := .bchk) rfl (by decide) fun _ => hlow
  obtain ⟨b, hrunB, _, heB⟩ := hrunA.next (i := .strap) rfl (by decide) nofun
  obtain ⟨c, hrunC, _, heC⟩ := hrunB.next (i := .sset) rfl (by decide) nofun
  refine ⟨c, hrunC, ?_⟩
  rw [heC.ownWriters.warn (by decide), State.tickPassed_warn, heB.ownWriters.warn (by decide), State.tickPassed_warn,
    heA.ownWriters.warn (by decide), State.tickPassed_warn]

/-- RMP: the table lies at `TBL`, in the work area if it is built. -/
theorem BootRun.provide {s t : State} {set : RomSet} (h : BootRun s 3 t)
    (hrom : romSetAt s.cfg s.store s.strapSet.toNat = .ok set)
    (hlen : s.cfg.remapAtBoot = true → set.tableLength.toNat = 2 ^ set.indexWidth) :
    ∃ u, BootRun s 4 u ∧ u.warn = t.warn ∧ HoldsTable s set u (remapSpace s.cfg) u.remapBase := by
  obtain ⟨u, hrun, hx, he⟩ := h.next (i := .rmp) rfl (by decide) nofun
  obtain ⟨_, hx', _, hbuilt⟩ :=
    rmpProvidesTheTable t.tickPassed set s.strapSet (h.set_eq (by decide)) (h.romSetAt_eq hrom)
  obtain rfl := Host.Outcome.next.inj (hx.symm.trans hx')
  refine ⟨u, hrun, he.ownWriters.warn (by decide), fun idx hidx => ⟨fun hb => ?_, fun hb hp => ?_⟩⟩
  · rw [hrun.remapBase_eq (by decide), remapSpace, hb, if_neg Bool.false_ne_true, if_neg Bool.false_ne_true,
      hrun.memRead_store]
  · obtain ⟨_, hbytes, _⟩ := hbuilt (h.cfg ▸ hb)
    obtain ⟨_, hbytes⟩ := hbytes (h.cfg ▸ hp)
    have hread := hbytes idx (lt_of_lt_of_eq hidx (hlen hb).symm)
    have himage : logicalImage t.tickPassed s.strapSet.toNat = logicalImage s s.strapSet.toNat :=
      funext fun k => funext fun a => logicalImage_congr h.cfg h.memRead_store _ k a
    rw [State.tickPassed_cfg, h.cfg, himage] at hread
    rw [hrun.remapBase_eq (by decide), remapSpace, if_pos hb, if_pos hb, hread]

/-- PLD: the table lies at `TBL`, in the fast memory if it is copied. -/
theorem BootRun.preload {s t : State} {set : RomSet} (h : BootRun s 4 t)
    (hrom : romSetAt s.cfg s.store s.strapSet.toNat = .ok set)
    (hlen : s.cfg.fastCopy = true → set.tableLength.toNat = 2 ^ set.indexWidth)
    (htable : HoldsTable s set t (remapSpace s.cfg) t.remapBase) :
    ∃ u, BootRun s 5 u ∧ u.warn = t.warn ∧ HoldsTable s set u (tableSpace s.cfg) u.tableBase := by
  obtain ⟨u, hrun, hx, he⟩ := h.next (i := .pld) rfl (by decide) nofun
  obtain ⟨hcopy, hkeep⟩ := pldCopiesTheTableOrChangesNothing t.tickPassed
  refine ⟨u, hrun, he.ownWriters.warn (by decide), htable.copy fun idx hidx => ?_⟩
  cases hc : s.cfg.fastCopy with
  | true =>
    obtain ⟨_, hx', _, hbytes, _⟩ := hcopy _ _ _ (h.set_eq (by decide)) (h.tbl_eq_remapBase rfl)
      (h.tlen_eq hrom (by decide)) (h.cfg ▸ hc)
    obtain rfl := Host.Outcome.next.inj (hx.symm.trans hx')
    have hread := hbytes idx (lt_of_lt_of_eq hidx (hlen hc).symm)
    rw [State.tickPassed_cfg, h.cfg] at hread
    rw [tableSpace, if_pos hc, State.tableBase, hrun.cfg, if_pos hc, hread]
    rfl
  | false =>
    obtain ⟨_, hx', _, hbytes⟩ := hkeep (h.cfg ▸ hc)
    obtain rfl := Host.Outcome.next.inj (hx.symm.trans hx')
    rw [tableSpace, hc, if_neg Bool.false_ne_true, State.tableBase, hrun.cfg, hc, if_neg Bool.false_ne_true,
      hrun.remapBase_eq (by decide), ← h.remapBase_eq (by decide)]
    exact hbytes _ _

/-- From PCK on no step writes the table (R62, R63). -/
theorem BootStep.keeps_table {s t u : State} {set : RomSet} {i : Instr} {k : Nat} (x : BootStep i t u)
    (h : BootRun s k t) (hk : 3 ≤ k) (h' : BootRun s (k + 1) u) (hi : i ∉ [.rmp, .pld])
    (htable : HoldsTable s set t (tableSpace s.cfg) t.tableBase) :
    HoldsTable s set u (tableSpace s.cfg) u.tableBase :=
  htable.copy fun idx _ => by
    rw [h.tableBase_eq hk h' (by omega), ← h.cfg]
    exact x.effect.table_kept hi _

/-! ### The warnings, the record, and the loop (R160 to R167, R240, R241) -/

section
variable {s t : State} {set : RomSet} {n : Word} (hset : s.set = .holds n)
  (hrom : romSetAt s.cfg s.store n.toNat = .ok set)
include hset hrom

theorem exec_pck_warn (hx : exec .pck s = .next t) :
    t.warn = s.warn ||| (if pinMapOK s.cfg.pm set = true then 0 else 8) := by
  obtain rfl := Host.Outcome.next.inj (hx.symm.trans (exec_pck_of_holds hset hrom))
  rw [State.advance_warn]
  split
  · exact BitVec.or_zero.symm
  · rfl

theorem exec_rpr_warn (hx : exec .rpr s = .next t) : t.warn = s.warn ||| (repairMode set).2 := by
  obtain rfl := Host.Outcome.next.inj (hx.symm.trans (exec_rpr_of_holds hset hrom))
  rfl

theorem exec_msk_warn (hx : exec .msk s = .next t) : t.warn = s.warn ||| romTypeWarning set := by
  by_cases hp : pinMapOK s.cfg.pm set = true
  · obtain rfl := Host.Outcome.next.inj (hx.symm.trans (exec_msk_of_pinMapOK hset hrom hp))
    rfl
  · obtain rfl := Host.Outcome.next.inj (hx.symm.trans (exec_msk_of_not_pinMapOK hset hrom hp))
    rfl

end

/-- PCK, RPR, MSK: a warning for each repair (R32). -/
theorem BootRun.repair {s t : State} {set : RomSet} (h : BootRun s 5 t)
    (hrom : romSetAt s.cfg s.store s.strapSet.toNat = .ok set)
    (htable : HoldsTable s set t (tableSpace s.cfg) t.tableBase) :
    ∃ u, BootRun s 8 u ∧ HoldsTable s set u (tableSpace s.cfg) u.tableBase
      ∧ u.warn = t.warn ||| (if pinMapOK s.cfg.pm set = true then 0 else 8) ||| (repairMode set).2
        ||| romTypeWarning set := by
  obtain ⟨a, hrunA, xA⟩ := h.next (i := .pck) rfl (by decide) nofun
  obtain ⟨b, hrunB, xB⟩ := hrunA.next (i := .rpr) rfl (by decide) nofun
  obtain ⟨c, hrunC, xC⟩ := hrunB.next (i := .msk) rfl (by decide) nofun
  have hwarnA := exec_pck_warn (s := t.tickPassed) (h.set_eq (by decide)) (h.romSetAt_eq hrom) xA.exec
  have hwarnB := exec_rpr_warn (s := a.tickPassed) (hrunA.set_eq (by decide)) (hrunA.romSetAt_eq hrom) xB.exec
  have hwarnC := exec_msk_warn (s := b.tickPassed) (hrunB.set_eq (by decide)) (hrunB.romSetAt_eq hrom) xC.exec
  rw [State.tickPassed_warn] at hwarnA hwarnB hwarnC
  rw [State.tickPassed_cfg, h.cfg] at hwarnA
  have htableA := xA.keeps_table h (by decide) hrunA (by decide) htable
  have htableB := xB.keeps_table hrunA (by decide) hrunB (by decide) htableA
  exact ⟨c, hrunC, xC.keeps_table hrunB (by decide) hrunC (by decide) htableB, by rw [hwarnC, hwarnB, hwarnA]⟩

/-- RTI: the record of the selected set and its table. -/
theorem BootRun.record {s t : State} {set : RomSet} (h : BootRun s 8 t)
    (hrom : romSetAt s.cfg s.store s.strapSet.toNat = .ok set)
    (htable : HoldsTable s set t (tableSpace s.cfg) t.tableBase) :
    ∃ u, BootRun s 9 u ∧ HoldsTable s set u (tableSpace s.cfg) u.tableBase ∧ u.warn = t.warn
      ∧ u.HoldsRecord s.cfg.rtiBase s.cfg.magic s.strapSet u.tableBase set.tableLength := by
  obtain ⟨u, hrun, x⟩ := h.next (i := .rti) rfl (by decide) nofun
  obtain ⟨_, hx', _, hrecord, _⟩ := exec_rti_holdsRecord (s := t.tickPassed) (h.set_eq (by decide))
    (h.tbl_eq_tableBase (by decide)) (h.tlen_eq hrom (by decide))
  obtain rfl := Host.Outcome.next.inj (x.exec.symm.trans hx')
  rw [State.tickPassed_cfg, h.cfg] at hrecord
  exact ⟨u, hrun, x.keeps_table h (by decide) hrun (by decide) htable, x.effect.ownWriters.warn (by decide),
    h.tableBase_eq (by decide) hrun (by decide) ▸ hrecord⟩

/-- ENT: the pins are released and the program of the mode begins. -/
theorem BootRun.enter {s t : State} {set : RomSet} (h : BootRun s 9 t)
    (hrom : romSetAt s.cfg s.store s.strapSet.toNat = .ok set) :
    ∃ u, s.leadsTo 10 u ∧ OwnWriters .ent t u ∧ SameBytes t u
      ∧ u.rs = .serve ∧ u.dir = 0x00 ∧ u.upc = entryOf (repairMode set).1 := by
  obtain ⟨u, hstep, x⟩ := h.step (i := .ent) rfl
  refine ⟨u, h.steps.add (.one hstep), x.effect.ownWriters.of_tickPassed, ?_⟩
  obtain rfl := Host.Outcome.next.inj
    (x.exec.symm.trans (exec_ent_of_holds (s := t.tickPassed) (h.mode_eq hrom (by decide))))
  refine ⟨fun sp a => ?_, rfl, rfl, rfl⟩
  rw [State.jump_memRead, State.writeRs_memRead, State.writeDir_memRead, State.tickPassed_memRead]

/-- Settles O55: the boot program's steps in their order; what they leave, ENT keeps. -/
theorem bootProgramReachesTheServeLoop : Obligations.BootProgramReachesTheServeLoop := by
  unfold Obligations.BootProgramReachesTheServeLoop
  intro s hinv ha hquiet hrs hupc hlow
  rw [← bootPinsHigh_iff] at hlow
  obtain ⟨set, hrom, hlen⟩ := ha.strapSet
  have hstart : BootRun s 0 s := ⟨rfl, hinv, ha, hquiet, hrs, congrArg BitVec.toNat hupc, rfl, rfl, rfl⟩
  obtain ⟨a, hrunA, hwarnA⟩ := hstart.choose hlow
  obtain ⟨b, hrunB, hwarnB, htableB⟩ := hrunA.provide hrom fun hb => hlen (.inr hb)
  obtain ⟨c, hrunC, hwarnC, htableC⟩ := hrunB.preload hrom (fun hc => hlen (.inl hc)) htableB
  obtain ⟨d, hrunD, htableD, hwarnD⟩ := hrunC.repair hrom htableC
  obtain ⟨e, hrunE, htableE, hwarnE, hrecord⟩ := hrunD.record hrom htableD
  obtain ⟨t, hsteps, w, hbytes, hserve, hdir, hentry⟩ := hrunE.enter hrom
  have hsetT : t.set = .holds s.strapSet := (w.set (by decide)).trans (hrunE.set_eq (by decide))
  have hbase : t.tableBase = e.tableBase := State.tableBase_congr w.cfg w.store (w.set (by decide))
  have htableT : HoldsTable s set t (tableSpace s.cfg) t.tableBase :=
    htableE.copy fun idx _ => by rw [hbase, hbytes]
  have hrecordT := hrecord.congr (hbytes .rti)
  refine ⟨t, set, hsteps, hserve, hdir, ?_, ?_, (w.mode (by decide)).trans (hrunE.mode_eq hrom (by decide)), hentry,
    (w.tlen (by decide)).trans (hrunE.tlen_eq hrom (by decide)), ?_, ?_, ?_, hrecordT.magic, hrecordT.size, ?_,
    hrecordT.count, ?_, hrecordT.tlen, ?_, ?_⟩
  · rw [hsetT, w.sel (by decide), hrunE.sel_eq (by decide), Latch.holds_value, Latch.holds_value, State.strapSet,
      selectedSet_toNat]
  · rw [hsetT, Latch.holds_value, hrom]
  · rw [w.tbl (by decide), hrunE.tbl_eq_tableBase (by decide), hbase]
  · rw [hsetT, Latch.holds_value]
    exact htableT
  · exact (State.masksOf_congr w.cfg (w.chk (by decide)) (w.inv (by decide))).mpr (hrunE.masks hrom (by decide))
  · rw [hsetT, Latch.holds_value, hrecordT.set]
  · rw [hbase, hrecordT.tbl]
  · rw [w.warn (by decide), hwarnE, hwarnD, hwarnC, hwarnB, hwarnA]
  · rw [w.raw (by decide), w.eff (by decide), w.dat (by decide), w.prev (by decide), w.act (by decide),
      w.odr (by decide)]
    exact hrunE.bootInv.scratch

end Sys2Proof.Machine
end

section
/-! Exceptions (O9, O41). The model runs a configuration only where every check of R263 has passed, so an accepted one
has the facts checked: the header's fields byte by byte (R99 to R101), the length of each image (R131), and the ranges
(R67, R75). A micro-operation that raises a model fault changes the run state and the record alone (R262). -/

namespace Sys2Proof.Machine

/-! ### A configuration with a defect (R263) -/

theorem step_of_configDefect {s : State} {d : ConfigDefect} (h : configDefect s.cfg s.store s.strap = some d) :
    step s = .refused (.configuration d) := by
  rw [step, h]

/-! ### The selected set's header and images (R99 to R101, R131) -/

/-- A fact about byte `i` of a header is one about the cell that lies there. -/
theorem exists_cell_of_header_byte {store : Memory} {base i : Nat} {bytes : List Byte} {P : Byte → Prop}
    (hbytes : headerBytes store base = some bytes) (h : ∃ b, bytes[i]? = some b ∧ P b) :
    ∃ b, cellAt store (base + i) = some b ∧ P b := by
  obtain ⟨b, hb, hP⟩ := h
  exact ⟨b, headerBytes_cell hbytes hb, hP⟩

/-- A placed image of a set whose images have been checked has `size(eff_type)` bytes. -/
theorem image_len_of_checkImages {cfg : Config} {n k : Nat} {set : RomSet} {i : ImageLoc}
    (h : checkImages cfg n set = .ok ()) (hk : k < set.romCount) (hi : (cfg.images[n]?).bind (·[k]?) = some i) :
    i.len = (set.typeAt k).size := by
  have hchecked := forM_ok h k (List.mem_range.mpr hk)
  rw [hi] at hchecked
  exact beq_iff_eq.mp (require_ok hchecked)

/-! ### The ranges in use (R67, R75) -/

/-- A range as the statement writes it: its first address and its length. -/
def Range.pair (r : Range) : Nat × Nat := (r.lo, r.len)

theorem Range.apart_iff {r q : Range} :
    r.apart q = true ↔ r.pair.1 + r.pair.2 ≤ q.pair.1 ∨ q.pair.1 + q.pair.2 ≤ r.pair.1 := by
  simp [Range.apart, Range.pair]

theorem pairwiseApart_iff (rs : List Range) :
    pairwiseApart rs = true ↔ rs.Pairwise fun r q => r.apart q = true := by
  induction rs with
  | nil => simp [pairwiseApart]
  | cons r rs ih => rw [pairwiseApart, Bool.and_eq_true, List.all_eq_true, ih, List.pairwise_cons]

theorem otherRanges_map_pair (cfg : Config) (set : RomSet) :
    (otherRanges cfg set).map Range.pair = (cfg.rtiBase.toNat, 24)
      :: ((if cfg.fastCopy = true then [(cfg.fastBase.toNat, 2 ^ set.indexWidth)] else [])
        ++ (if cfg.remapAtBoot = true then [(cfg.workBase.toNat, 2 ^ set.indexWidth)] else [])) := by
  rw [otherRanges, List.map_cons, List.map_append, apply_ite (List.map Range.pair), apply_ite (List.map Range.pair)]
  rfl

theorem storeRanges_map_pair (cfg : Config) (storeEnd : Nat) :
    (storeRanges cfg storeEnd).map Range.pair = (cfg.storeBase.toNat, storeEnd - cfg.storeBase.toNat)
      :: (if cfg.remapAtBoot = true then cfg.images.flatten.map fun i => (i.addr.toNat, i.len) else []) := by
  rw [storeRanges, List.map_cons, apply_ite (List.map Range.pair), List.map_map]
  rfl

/-- Settles O9: `step` looks for a defect first, and what is then known to be sound is read off the checks. -/
theorem unsoundConfigurationsAreRefused : Obligations.UnsoundConfigurationsAreRefused := by
  unfold Obligations.UnsoundConfigurationsAreRefused
  refine fun s => ⟨fun d => step_of_configDefect, fun ha => ?_⟩
  obtain ⟨hmin, hmax, hsets, _, set, storeEnd, hrom, himages, hend, hranges⟩ := configDefect_none ha
  obtain ⟨_, a, bytes, haddr, hbytes, header⟩ := romSetAt_ok hrom
  obtain ⟨hcount, hcountMax, hroms⟩ := header.count
  obtain ⟨haligned, hfits, hothers, hstored⟩ := checkRanges_ok hranges
  refine ⟨hsets, haligned, hmin, hmax, set, a, storeEnd, hrom, haddr, hend, hcount, hcountMax, hroms,
    header.width.1, header.width.2, exists_cell_of_header_byte hbytes header.countByte,
    fun i hi => exists_cell_of_header_byte hbytes (header.codes i hi),
    fun hmulti => exists_cell_of_header_byte hbytes (header.multi hmulti),
    fun k hk i => image_len_of_checkImages himages hk, ?_⟩
  rw [← otherRanges_map_pair, ← storeRanges_map_pair]
  simp only [← List.map_append, List.forall_mem_map, List.pairwise_map, ← Range.apart_iff]
  exact ⟨hfits, (pairwiseApart_iff _).mp hothers, hstored⟩

/-! ### A model fault (R262) -/

/-- Without a model fault no micro-operation leads to FAULTED: ENT and BCHK alone write `RS` (R27). -/
theorem Effect.rs_ne_faulted {i : Instr} {s t : State} (h : Effect s i t) (hs : s.rs ≠ .faulted) : t.rs ≠ .faulted := by
  rcases h.rs with hrs | ⟨_, hrs⟩ | ⟨_, hrs, _⟩
  · rwa [hrs]
  · simp [hrs]
  · simp [hrs]

/-- Settles O41: of the two outcomes of a micro-operation, only a model fault leads to FAULTED. -/
theorem modelFaultsArePrecise : Obligations.ModelFaultsArePrecise := by
  unfold Obligations.ModelFaultsArePrecise
  intro i s t h hs ht
  obtain ⟨f, hf, rfl⟩ := (exec_next h).resolve_left fun he => he.rs_ne_faulted hs ht
  refine ⟨f, rfl, ?_⟩
  rcases hf with ⟨hlkp, _, hf⟩ | ⟨r, _, hf⟩
  · exact .inl ⟨hf, hlkp⟩
  · exact .inr ⟨r, hf⟩

end Sys2Proof.Machine
end

section
/-! Reset (O6). At a step where the reset line is active the answer is `performReset` of the state once that tick has
passed, whatever its run state (R290). Its fields are the values of R48 (R291), and what is read of the Image Store
depends on its contents alone, so those bytes are kept. -/

namespace Sys2Proof.Machine

theorem State.resetNow_of_ticks {s : State} {v : Word} {rest : List Tick} (h : s.ticks = .reset v :: rest) :
    s.resetNow = some v := by
  rw [State.resetNow, h]

/-- Unlike that of the other spaces, the unspecified part of the Image Store is not renewed by a reset (R291). -/
theorem State.memRead_store_congr {s t : State} (h : t.store = s.store) (a : Word) :
    t.memRead .store a = s.memRead .store a := by
  simp only [State.memRead, State.memory, State.contentsOf, h]

/-- Settles O6: `step` answers `performReset`, and each field of that is one of `State.performReset`'s lemmas. -/
theorem resetWinsAndLeavesTheResetValues : Obligations.ResetWinsAndLeavesTheResetValues := by
  unfold Obligations.ResetWinsAndLeavesTheResetValues
  intro s v rest ha hticks
  have hstep : step s = .next (s.tickPassed.performReset v) := step_of_reset ha (State.resetNow_of_ticks hticks)
  have hstore : ∀ a, (s.tickPassed.performReset v).memRead .store a = s.memRead .store a :=
    State.memRead_store_congr (by simp)
  exact ⟨_, hstep, by simp [hticks, hstore]⟩

end Sys2Proof.Machine
end
